-- ==== Sys2Proof/Word.lean ====
section
/-! DEFINITION. The word types of the ZSECP core: bytes, command words, integer registers,
coordinates and point triples (10_state.md R42, R45; 30_encoding.md R140). -/

namespace Sys2Proof

/-- A byte of the digest buffer or of a DRBG string. -/
abbrev Byte := BitVec 8

/-- A 32-bit MMIO or command word (20_memory.md R103, 30_encoding.md R140). -/
abbrev Word := BitVec 32

/-- The field of an integer register: 512 bits, read as two's complement (10_state.md R42). -/
abbrev IntReg := BitVec 512

/-- One stored coordinate of a point register: 256 bits (10_state.md R45). -/
abbrev Coord := BitVec 256

/-- A byte string of any length. -/
abbrev Bytes := List Byte

/-- A hash-sized string, the shape of the DRBG's V and K (10_state.md R58). -/
abbrev Bytes32 := Vector Byte 32

/-- A point triple (X, Y, Z) as a point register holds it (10_state.md R45). -/
structure Point where
  x : Coord
  y : Coord
  z : Coord
  deriving DecidableEq, Repr

end Sys2Proof
end

