-- ==== Sys2Proof/Config.lean ====
section
/-! DEFINITION. What the implementation fixes: the curve constants and sizes of 00_scope.md R5 and
R20–R24, the ID value, and the two parameters the spec leaves OPEN (R5), which are opaque. -/

namespace Sys2Proof.Config

/-- The field prime P = 2^256 − 2^32 − 977 (00_scope.md R20). -/
def P : Int := 0xFFFFFFFFFFFFFFFFFFFFFFFFFFFFFFFFFFFFFFFFFFFFFFFFFFFFFFFEFFFFFC2F

/-- The group order n (00_scope.md R21). -/
def n : Int := 0xFFFFFFFFFFFFFFFFFFFFFFFFFFFFFFFEBAAEDCE6AF48A03BBFD25E8CD0364141

/-- HALF_N = floor(n / 2) (00_scope.md R21, 44_ecdsa.md R381). -/
def halfN : Int := 0x7FFFFFFFFFFFFFFFFFFFFFFFFFFFFFFF5D576E7357A4501DDFE92F46681B20A0

/-- The curve coefficients of y² = x³ + a·x + b: a = 0, b = 7 (00_scope.md R22). -/
def a : Int := 0
def b : Int := 7

/-- The constant 3·b of the addition formula (00_scope.md R22). -/
def b3 : Int := 21

/-- The base point's affine coordinates (00_scope.md R23). -/
def gx : Coord := 0x79BE667EF9DCBBAC55A06295CE870B07029BFCDB2DCE28D959F2815B16F81798
def gy : Coord := 0x483ADA7726A3C4655DA4FBFC0E1108A8FD17B448A68554199C47D08FFB10D4B8

/-- BASE = G = (Gx, Gy, 1), the hardwired P1 (00_scope.md R23, 10_state.md R46). -/
def base : Point := ⟨gx, gy, 1⟩

/-- ZERO = (0, 1, 0), the hardwired P0 (00_scope.md R24, 10_state.md R46). -/
def zero : Point := ⟨0, 1, 0⟩

/-- (P + 1) / 4, the exponent of the square root (40_field.md R220). -/
def sqrtExp : Nat := 0x3FFFFFFFFFFFFFFFFFFFFFFFFFFFFFFFFFFFFFFFFFFFFFFFFFFFFFFFBFFFFF0C

/-- The number of windows of the fixed-base multiply (00_scope.md R5). -/
def windows : Nat := 33

/-- The number of table entries of one window, 2^(W−1) (00_scope.md R5). -/
def windowSize : Nat := 128

/-- The number of entries of the precomputed table (00_scope.md R5). -/
def tableSize : Nat := 4224

/-- DRBG_LIMIT, the greatest number of generate calls between resets (00_scope.md R5). -/
def drbgLimit : Nat := 1000

/-- DGMAX, the size of the digest buffer in bytes (00_scope.md R5). -/
def digestMax : Nat := 64

/-- The exclusive upper bound 2^256 of scalars and of a register modulus (00_scope.md R5). -/
def scalarBound : Int := 2 ^ 256

/-- The constant the ID register reads (00_scope.md R4, 10_state.md R52). -/
def idValue : Word := 0x5A530007

/-- ZSECP_BASE / 4096. OPEN: the platform fixes it (20_memory.md R100). No value of it is known
here (assumption log 3). -/
opaque zsecpPage : Nat

/-- ZSECP_BASE, 4 KiB aligned (20_memory.md R100). -/
def zsecpBase : Nat := 4096 * zsecpPage

/-- LATENCY(cmd, operands). OPEN (00_scope.md R5, 70_reset_and_hazards.md R520): finite, and it may
depend on the command, everything the command can read, and whether the table is built. It is
counted in steps of the model between acceptance and completion (assumption log 2). -/
opaque latency (command : Word) (r : Vector IntReg 16) (p : Vector Point 14)
  (dg : Vector Byte 64) (dlen : BitVec 7) (v k : Bytes32) (ctr : Nat) (tableValid : Bool) : Nat

end Sys2Proof.Config
end

