-- ==== Sys2Proof/Syntax.lean ====
section
/-! DEFINITION. The 25 commands of spec/opcode_table.json, one constructor a row, with the operand
roles of 30_encoding.md R142. Operands stand in field order A, B, C, D, M, F. -/

namespace Sys2Proof

/-- The index of an integer register R0–R15 (30_encoding.md R142, "r"). -/
abbrev RIdx := Fin 16

/-- The index of a point register P0–P15 (30_encoding.md R142, "p"). -/
abbrev PIdx := Fin 16

/-- The modulus operand of the MOD family: M = 0, M = 1, or M = 2 with D (30_encoding.md R143). -/
inductive ModSel where
  | p
  | n
  | reg (d : RIdx)
  deriving DecidableEq, Repr

/-- A command (30_encoding.md R142, R148). -/
inductive Instr where
  | mod (rd ra : RIdx) (m : ModSel)
  | modadd (rd ra rb : RIdx) (m : ModSel)
  | modsub (rd ra rb : RIdx) (m : ModSel)
  | modmul (rd ra rb : RIdx) (m : ModSel)
  | modinv (rd ra : RIdx) (m : ModSel)
  | modsqrt (rd ra : RIdx)
  | padd (pd pa pb : PIdx)
  | pdbl (pd pa : PIdx)
  | pneg (pd pa : PIdx)
  | peq (pa pb : PIdx)
  | pmov (pd pa : PIdx)
  | toaff (rx : RIdx) (pa : PIdx) (ry : RIdx)
  | fromaff (pd : PIdx) (rx ry : RIdx)
  | fromx (pd : PIdx) (rx : RIdx) (headOdd : Bool)
  | mul (pd pbase : PIdx) (rk : RIdx) (safe : Bool)
  | mulg (pd : PIdx) (rk : RIdx)
  | muladd (pd : PIdx) (ru1 ru2 : RIdx) (pq : PIdx)
  | naf (rpos rk rneg : RIdx)
  | precomp
  | drbgrst
  | drbgseed
  | drbggen (rd : RIdx)
  | sign (rr rkey rs rrec : RIdx) (lowS : Bool)
  | verify (rr rs : RIdx) (pq : PIdx) (lowS : Bool)
  | recover (pd : PIdx) (rr rs rrec : RIdx)
  deriving DecidableEq, Repr

/-- The point register a command names as its destination (30_encoding.md R147). -/
def Instr.pointDest : Instr → Option PIdx
  | .padd pd _ _ | .pdbl pd _ | .pneg pd _ | .pmov pd _ => some pd
  | .fromaff pd _ _ | .fromx pd _ _ => some pd
  | .mul pd _ _ _ | .mulg pd _ | .muladd pd _ _ _ => some pd
  | .recover pd _ _ _ => some pd
  | .mod _ _ _ | .modadd _ _ _ _ | .modsub _ _ _ _ | .modmul _ _ _ _ | .modinv _ _ _ => none
  | .modsqrt _ _ | .peq _ _ | .toaff _ _ _ | .naf _ _ _ | .precomp => none
  | .drbgrst | .drbgseed | .drbggen _ | .sign _ _ _ _ _ | .verify _ _ _ _ => none

end Sys2Proof
end

