-- ==== Sys2Proof/WellFormed.lean ====
section
/-! DEFINITION. Which terms of Instr are commands: the one constraint of 30_encoding.md R143–R147
that the types of Syntax.lean do not already carry is R147's, on point destinations. -/

namespace Sys2Proof

/-- A point destination is not P0 or P1, which are hardwired (30_encoding.md R147). -/
def Instr.destOk (i : Instr) : Bool :=
  match i.pointDest with
  | some d => decide (2 ≤ d.val)
  | none => true

/-- The term is one of the 25 commands with all constraints met (30_encoding.md R149). -/
def Instr.wellFormed (i : Instr) : Bool := i.destOk

end Sys2Proof
end

