-- ==== Sys2Proof/Decode.lean ====
section
/-! DEFINITION. Decoding a command word (30_encoding.md R140–R150): total on all 32-bit words,
rejecting by name; then the encoder (R141, R152), written from the same table of roles (R142). -/

namespace Sys2Proof

/-- Why a word is ILLEGAL (30_encoding.md R145–R148). All reasons have the same cause (R150). -/
inductive DecodeReject where
  /-- bits [31:27] are not 0 (R145) -/
  | reservedBits
  /-- OP is not in the opcode map (R148) -/
  | unknownOpcode
  /-- a field the opcode does not use is not 0 (R146) -/
  | unusedField
  /-- M = 3 (R143) -/
  | modulusSelect
  /-- D is not 0 although M ≠ 2 (R146) -/
  | modulusRegister
  /-- the point destination is P0 or P1 (R147) -/
  | hardwiredDest
  deriving DecidableEq, Repr

/-- The fields of a command word (30_encoding.md R141). -/
structure Fields where
  op : BitVec 8
  a : BitVec 4
  b : BitVec 4
  c : BitVec 4
  d : BitVec 4
  m : BitVec 2
  f : BitVec 1
  rsv : BitVec 5
  deriving DecidableEq, Repr

/-- Taking the word apart (30_encoding.md R141). -/
def Fields.ofWord (w : Word) : Fields where
  op := w.extractLsb' 0 8
  a := w.extractLsb' 8 4
  b := w.extractLsb' 12 4
  c := w.extractLsb' 16 4
  d := w.extractLsb' 20 4
  m := w.extractLsb' 24 2
  f := w.extractLsb' 26 1
  rsv := w.extractLsb' 27 5

/-- Putting the word together: `RRRRR F MM DDDD CCCC BBBB AAAA OOOOOOOO` (30_encoding.md R141). -/
def Fields.toWord (x : Fields) : Word :=
  x.rsv ++ x.f ++ x.m ++ x.d ++ x.c ++ x.b ++ x.a ++ x.op

/-- Which fields an opcode uses, and whether A is a point destination: one row of the table of
30_encoding.md R142. -/
structure Roles where
  a : Bool
  b : Bool
  c : Bool
  d : Bool
  m : Bool
  f : Bool
  pointDest : Bool
  deriving DecidableEq, Repr

/-- The table of 30_encoding.md R142. D of the MOD family counts as used here; that it must be 0
unless M = 2 is a test of its own (R146). -/
def roles (op : BitVec 8) : Option Roles :=
  match op.toNat with
  | 0x10 => some ⟨true, true, false, true, true, false, false⟩
  | 0x11 => some ⟨true, true, true, true, true, false, false⟩
  | 0x12 => some ⟨true, true, true, true, true, false, false⟩
  | 0x13 => some ⟨true, true, true, true, true, false, false⟩
  | 0x14 => some ⟨true, true, false, true, true, false, false⟩
  | 0x15 => some ⟨true, true, false, false, false, false, false⟩
  | 0x20 => some ⟨true, true, true, false, false, false, true⟩
  | 0x21 => some ⟨true, true, false, false, false, false, true⟩
  | 0x22 => some ⟨true, true, false, false, false, false, true⟩
  | 0x23 => some ⟨false, true, true, false, false, false, false⟩
  | 0x24 => some ⟨true, true, false, false, false, false, true⟩
  | 0x25 => some ⟨true, true, true, false, false, false, false⟩
  | 0x26 => some ⟨true, true, true, false, false, false, true⟩
  | 0x27 => some ⟨true, true, false, false, false, true, true⟩
  | 0x30 => some ⟨true, true, true, false, false, true, true⟩
  | 0x31 => some ⟨true, false, true, false, false, false, true⟩
  | 0x32 => some ⟨true, true, true, true, false, false, true⟩
  | 0x33 => some ⟨true, true, true, false, false, false, false⟩
  | 0x34 => some ⟨false, false, false, false, false, false, false⟩
  | 0x40 => some ⟨false, false, false, false, false, false, false⟩
  | 0x41 => some ⟨false, false, false, false, false, false, false⟩
  | 0x42 => some ⟨true, false, false, false, false, false, false⟩
  | 0x50 => some ⟨true, true, true, true, false, true, false⟩
  | 0x51 => some ⟨false, true, true, true, false, true, false⟩
  | 0x52 => some ⟨true, true, true, true, false, false, true⟩
  | _ => none

/-- Every field the opcode does not use is 0 (30_encoding.md R146). -/
def Fields.unusedZero (x : Fields) (u : Roles) : Bool :=
  (u.a || x.a == 0) && (u.b || x.b == 0) && (u.c || x.c == 0) &&
  (u.d || x.d == 0) && (u.m || x.m == 0) && (u.f || x.f == 0)

/-- A 4-bit field as a register index. -/
def idx (x : BitVec 4) : Fin 16 := x.toFin

/-- The modulus operand of the MOD family from M and D (30_encoding.md R143). -/
def modSelOf (x : Fields) : ModSel :=
  match x.m.toNat with
  | 0 => .p
  | 1 => .n
  | _ => .reg (idx x.d)

/-- The flag F (30_encoding.md R144). -/
def flagOf (x : Fields) : Bool := x.f == 1

/-- The command of an opcode, its operands read from the fields by the roles of
30_encoding.md R142. -/
def build (x : Fields) : Except DecodeReject Instr :=
  let a := idx x.a
  let b := idx x.b
  let c := idx x.c
  let d := idx x.d
  match x.op.toNat with
  | 0x10 => .ok (.mod a b (modSelOf x))
  | 0x11 => .ok (.modadd a b c (modSelOf x))
  | 0x12 => .ok (.modsub a b c (modSelOf x))
  | 0x13 => .ok (.modmul a b c (modSelOf x))
  | 0x14 => .ok (.modinv a b (modSelOf x))
  | 0x15 => .ok (.modsqrt a b)
  | 0x20 => .ok (.padd a b c)
  | 0x21 => .ok (.pdbl a b)
  | 0x22 => .ok (.pneg a b)
  | 0x23 => .ok (.peq b c)
  | 0x24 => .ok (.pmov a b)
  | 0x25 => .ok (.toaff a b c)
  | 0x26 => .ok (.fromaff a b c)
  | 0x27 => .ok (.fromx a b (flagOf x))
  | 0x30 => .ok (.mul a b c (flagOf x))
  | 0x31 => .ok (.mulg a c)
  | 0x32 => .ok (.muladd a b c d)
  | 0x33 => .ok (.naf a b c)
  | 0x34 => .ok .precomp
  | 0x40 => .ok .drbgrst
  | 0x41 => .ok .drbgseed
  | 0x42 => .ok (.drbggen a)
  | 0x50 => .ok (.sign a b c d (flagOf x))
  | 0x51 => .ok (.verify b c d (flagOf x))
  | 0x52 => .ok (.recover a b c d)
  | _ => .error .unknownOpcode

/-- `decode(c)` on the fields, with the tests in the order of 30_encoding.md R150. -/
def decodeFields (x : Fields) : Except DecodeReject Instr :=
  if x.rsv ≠ 0 then .error .reservedBits
  else
    match roles x.op with
    | none => .error .unknownOpcode
    | some u =>
      if !x.unusedZero u then .error .unusedField
      else if u.m && x.m == 3 then .error .modulusSelect
      else if u.m && x.m != 2 && x.d != 0 then .error .modulusRegister
      else if u.pointDest && x.a.toNat < 2 then .error .hardwiredDest
      else build x

/-- `decode(c)` (30_encoding.md R150). -/
def decode (w : Word) : Except DecodeReject Instr := decodeFields (Fields.ofWord w)

/-- The host's view of the decoder: the command in the word w of nbits bits, higher bits 0. -/
def decodeTableWord (nbits w : Nat) : Option Instr :=
  match decode (BitVec.ofNat 32 (w % 2 ^ nbits)) with
  | .ok i => some i
  | .error _ => none

/-- The OP field of each command (30_encoding.md R142). -/
def opcode : Instr → BitVec 8
  | .mod _ _ _ => 0x10
  | .modadd _ _ _ _ => 0x11
  | .modsub _ _ _ _ => 0x12
  | .modmul _ _ _ _ => 0x13
  | .modinv _ _ _ => 0x14
  | .modsqrt _ _ => 0x15
  | .padd _ _ _ => 0x20
  | .pdbl _ _ => 0x21
  | .pneg _ _ => 0x22
  | .peq _ _ => 0x23
  | .pmov _ _ => 0x24
  | .toaff _ _ _ => 0x25
  | .fromaff _ _ _ => 0x26
  | .fromx _ _ _ => 0x27
  | .mul _ _ _ _ => 0x30
  | .mulg _ _ => 0x31
  | .muladd _ _ _ _ => 0x32
  | .naf _ _ _ => 0x33
  | .precomp => 0x34
  | .drbgrst => 0x40
  | .drbgseed => 0x41
  | .drbggen _ => 0x42
  | .sign _ _ _ _ _ => 0x50
  | .verify _ _ _ _ => 0x51
  | .recover _ _ _ _ => 0x52

/-- The M field of a modulus operand (30_encoding.md R143). -/
def ModSel.mField : ModSel → BitVec 2
  | .p => 0
  | .n => 1
  | .reg _ => 2

/-- The D field of a modulus operand: 0 unless M = 2 (30_encoding.md R143, R146). -/
def ModSel.dField : ModSel → BitVec 4
  | .p => 0
  | .n => 0
  | .reg d => .ofFin d

/-- Fields with the given operands and every field the command does not use 0 (30_encoding.md
R152: "with unused fields 0"). -/
def fieldsOf (op : BitVec 8) (a b c d : Fin 16) (m : BitVec 2) (f : Bool) : Fields :=
  ⟨op, .ofFin a, .ofFin b, .ofFin c, .ofFin d, m, .ofBool f, 0⟩

/-- The fields of a MOD-family command. -/
def modFields (op : BitVec 8) (a b c : Fin 16) (m : ModSel) : Fields :=
  ⟨op, .ofFin a, .ofFin b, .ofFin c, m.dField, m.mField, 0, 0⟩

/-- The fields of each command (30_encoding.md R142, R152). -/
def encodeFields (i : Instr) : Fields :=
  match i with
  | .mod rd ra m => modFields (opcode i) rd ra 0 m
  | .modadd rd ra rb m => modFields (opcode i) rd ra rb m
  | .modsub rd ra rb m => modFields (opcode i) rd ra rb m
  | .modmul rd ra rb m => modFields (opcode i) rd ra rb m
  | .modinv rd ra m => modFields (opcode i) rd ra 0 m
  | .modsqrt rd ra => fieldsOf (opcode i) rd ra 0 0 0 false
  | .padd pd pa pb => fieldsOf (opcode i) pd pa pb 0 0 false
  | .pdbl pd pa => fieldsOf (opcode i) pd pa 0 0 0 false
  | .pneg pd pa => fieldsOf (opcode i) pd pa 0 0 0 false
  | .peq pa pb => fieldsOf (opcode i) 0 pa pb 0 0 false
  | .pmov pd pa => fieldsOf (opcode i) pd pa 0 0 0 false
  | .toaff rx pa ry => fieldsOf (opcode i) rx pa ry 0 0 false
  | .fromaff pd rx ry => fieldsOf (opcode i) pd rx ry 0 0 false
  | .fromx pd rx odd => fieldsOf (opcode i) pd rx 0 0 0 odd
  | .mul pd pbase rk safe => fieldsOf (opcode i) pd pbase rk 0 0 safe
  | .mulg pd rk => fieldsOf (opcode i) pd 0 rk 0 0 false
  | .muladd pd ru1 ru2 pq => fieldsOf (opcode i) pd ru1 ru2 pq 0 false
  | .naf rpos rk rneg => fieldsOf (opcode i) rpos rk rneg 0 0 false
  | .precomp => fieldsOf (opcode i) 0 0 0 0 0 false
  | .drbgrst => fieldsOf (opcode i) 0 0 0 0 0 false
  | .drbgseed => fieldsOf (opcode i) 0 0 0 0 0 false
  | .drbggen rd => fieldsOf (opcode i) rd 0 0 0 0 false
  | .sign rr rkey rs rrec low => fieldsOf (opcode i) rr rkey rs rrec 0 low
  | .verify rr rs pq low => fieldsOf (opcode i) 0 rr rs pq 0 low
  | .recover pd rr rs rrec => fieldsOf (opcode i) pd rr rs rrec 0 false

/-- The command word of a command (30_encoding.md R152). -/
def encode (i : Instr) : Word := (encodeFields i).toWord

end Sys2Proof
end

