-- ==== Sys2Proof/Machine/State.lean ====
section
/-! DEFINITION. The state of the ZSECP core as plain data (10_state.md), the events its host and
platform can cause, its cause codes by name, the reasons a step can stop, and reset. -/

namespace Sys2Proof.Machine

/-- The causes of 60_exceptions.md R451, by name; `Cause.code` (Flags.lean) gives each its code. -/
inductive Cause where
  | none
  | illegal
  | domain
  | noInverse
  | noSqrt
  | range
  | badRecid
  | xOverflow
  | fatalInvariant
  | fatalDrbg
  deriving DecidableEq, Repr

/-- The DRBG state: two 32-byte buffers and the attempt counter (10_state.md R58). -/
structure Drbg where
  v : Bytes32
  k : Bytes32
  ctr : Nat
  deriving DecidableEq, Repr

/-- What the host and the platform can do to the block (assumption log 1). Addresses are platform
addresses; widths are in bytes (20_memory.md R103). -/
inductive HostEvent where
  /-- the host reads `bytes` bytes at `addr` -/
  | read (addr bytes : Nat)
  /-- the host writes `bytes` bytes at `addr`; `value` is what a 32-bit write carries -/
  | write (addr bytes : Nat) (value : Word)
  /-- the platform asserts and releases the reset input (70_reset_and_hazards.md R501) -/
  | hardReset
  /-- the host issues nothing for one step -/
  | idle
  deriving DecidableEq, Repr

/-- The block's answer to an access (20_memory.md R102, R103). -/
inductive BusResponse where
  /-- a read returns 32 bits -/
  | data (value : Word)
  /-- a write is answered, whether it took effect or was ignored -/
  | written
  /-- the bus error response to a malformed access (R103) -/
  | busError
  deriving DecidableEq, Repr

/-- The whole state. The last two fields are the model's own (assumption log 1, 6); all others are
listed in 10_state.md R65. P0 and P1 are constants and have no storage (R46). -/
structure State where
  /-- R0–R15 (10_state.md R42) -/
  r : Vector IntReg 16
  /-- P2–P15 (10_state.md R45) -/
  p : Vector Point 14
  /-- DG[0..63] (10_state.md R49) -/
  dg : Vector Byte 64
  /-- DLEN (10_state.md R50) -/
  dlen : BitVec 7
  /-- CTRL.IRQEN (10_state.md R51) -/
  irqen : Bool
  /-- STATUS.DONE (10_state.md R53) -/
  done : Bool
  /-- STATUS.ERR (10_state.md R53) -/
  err : Bool
  /-- STATUS.RESULT (10_state.md R53) -/
  result : Bool
  /-- STATUS.FATAL (10_state.md R53, R66) -/
  fatal : Bool
  /-- STATUS.OVR (10_state.md R53) -/
  ovr : Bool
  /-- STATUS.CAUSE (10_state.md R53) -/
  cause : Cause
  /-- CMDLOG: the word last accepted, which is the word in flight while BUSY (10_state.md R56) -/
  cmdlog : Word
  /-- STATUS.BUSY: some while a command is in flight, with the delay still to run (R60) -/
  inFlight : Option Nat
  /-- the DRBG's V, K and CTR (10_state.md R58) -/
  drbg : Drbg
  /-- TABLE_VALID, visible as STATUS.TABLE (10_state.md R59) -/
  tableValid : Bool
  /-- TBL[0..4223] (10_state.md R59) -/
  tbl : List Point
  /-- what the host and the platform will do next, oldest first -/
  hostQueue : List HostEvent
  /-- the answer to the last access served -/
  lastResponse : Option BusResponse
  deriving DecidableEq, Repr

/-- Why the machine stops. -/
inductive Fault where
  /-- Raised by the step when the next access of the host is outside the block's window. The spec
  gives the block one address space, the window (20_memory.md R100), and no behaviour elsewhere.
  Safe: the model stops where the platform would route the access to something else. -/
  | outsideWindow
  deriving DecidableEq, Repr

/-- Why an instruction has no meaning here. -/
inductive Refusal where
  /-- Raised by an arm of `exec` whose instruction is not modelled yet. Safe. No arm raises it. -/
  | notModelled (mnemonic : String)
  deriving DecidableEq, Repr

/-- The answer of a meaning. -/
abbrev Answer := Host.Outcome State Fault Refusal

/-- The DRBG's reset values (43_drbg.md R350, R352; 10_state.md R65). -/
def Drbg.reset : Drbg where
  v := Vector.replicate 32 0x01
  k := Vector.replicate 32 0x00
  ctr := 0

/-- The state after reset (10_state.md R65). The contents of TBL before it is built are a DESIGN
CHOICE (assumption log 5), the two host fields too (log 1, 6). -/
def State.reset : State where
  r := Vector.replicate 16 0
  p := Vector.replicate 14 Config.zero
  dg := Vector.replicate 64 0x00
  dlen := 32
  irqen := false
  done := false
  err := false
  result := false
  fatal := false
  ovr := false
  cause := .none
  cmdlog := 0
  inFlight := none
  drbg := .reset
  tableValid := false
  tbl := List.replicate Config.tableSize Config.zero
  hostQueue := []
  lastResponse := none

/-- STATUS.BUSY (10_state.md R53). -/
def State.busy (s : State) : Bool := s.inFlight.isSome

end Sys2Proof.Machine
end

