-- ==== Sys2Proof/Machine/Sha256.lean ====
section
/-! DEFINITION. The keyed primitive HMAC-SHA-256 of 43_drbg.md R351. The spec names it as this
hardware's value of the parameter HMAC and leaves its steps to FIPS 180-4 and FIPS 198-1; the
steps here are PRESUMED (assumption log 4). -/

namespace Sys2Proof.Machine.Sha256

/-- The eight working variables. -/
structure Vars where
  a : Word
  b : Word
  c : Word
  d : Word
  e : Word
  f : Word
  g : Word
  h : Word
  deriving DecidableEq, Repr

/-- The round constants, eight to a numeral, the first in the top bits: the first 32 bits of the
fractional parts of the cube roots of the first 64 primes. -/
def constantRows : List (BitVec 256) := [
  0x428A2F9871374491B5C0FBCFE9B5DBA53956C25B59F111F1923F82A4AB1C5ED5,
  0xD807AA9812835B01243185BE550C7DC372BE5D7480DEB1FE9BDC06A7C19BF174,
  0xE49B69C1EFBE47860FC19DC6240CA1CC2DE92C6F4A7484AA5CB0A9DC76F988DA,
  0x983E5152A831C66DB00327C8BF597FC7C6E00BF3D5A7914706CA635114292967,
  0x27B70A852E1B21384D2C6DFC53380D13650A7354766A0ABB81C2C92E92722C85,
  0xA2BFE8A1A81A664BC24B8B70C76C51A3D192E819D6990624F40E3585106AA070,
  0x19A4C1161E376C082748774C34B0BCB5391C0CB34ED8AA4A5B9CCA4F682E6FF3,
  0x748F82EE78A5636F84C878148CC7020890BEFFFAA4506CEBBEF9A3F7C67178F2]

/-- The eight words of a row, from the top bits down. -/
def rowWords (row : BitVec 256) : List Word :=
  (List.range 8).map fun i => row.extractLsb' (224 - 32 * i) 32

/-- The round constants in their order. -/
def roundConstants : List Word := constantRows.flatMap rowWords

/-- The initial hash value: the first 32 bits of the fractional parts of the square roots of the first
eight primes. -/
def initial : Vars :=
  ⟨0x6a09e667, 0xbb67ae85, 0x3c6ef372, 0xa54ff53a, 0x510e527f, 0x9b05688c, 0x1f83d9ab, 0x5be0cd19⟩

def bigSigma0 (x : Word) : Word := x.rotateRight 2 ^^^ x.rotateRight 13 ^^^ x.rotateRight 22
def bigSigma1 (x : Word) : Word := x.rotateRight 6 ^^^ x.rotateRight 11 ^^^ x.rotateRight 25
def smallSigma0 (x : Word) : Word := x.rotateRight 7 ^^^ x.rotateRight 18 ^^^ (x >>> 3)
def smallSigma1 (x : Word) : Word := x.rotateRight 17 ^^^ x.rotateRight 19 ^^^ (x >>> 10)
def choose (x y z : Word) : Word := (x &&& y) ^^^ (~~~x &&& z)
def majority (x y z : Word) : Word := (x &&& y) ^^^ (x &&& z) ^^^ (y &&& z)

/-- `count` words of the message schedule, given the sixteen that come next. -/
def schedule : Nat → List Word → List Word
  | 0, _ => []
  | _ + 1, [] => []
  | count + 1, w :: ws =>
    w :: schedule count
      (ws ++ [smallSigma1 (ws.getD 13 0) + ws.getD 8 0 + smallSigma0 (ws.getD 0 0) + w])

/-- One round with a round constant and a schedule word. -/
def round (s : Vars) (kw : Word × Word) : Vars :=
  let t1 := s.h + bigSigma1 s.e + choose s.e s.f s.g + kw.1 + kw.2
  let t2 := bigSigma0 s.a + majority s.a s.b s.c
  ⟨t1 + t2, s.a, s.b, s.c, s.d + t1, s.e, s.f, s.g⟩

/-- One block. -/
def compress (h : Vars) (block : List Word) : Vars :=
  let r := (roundConstants.zip (schedule 64 block)).foldl round h
  ⟨h.a + r.a, h.b + r.b, h.c + r.c, h.d + r.d, h.e + r.e, h.f + r.f, h.g + r.g, h.h + r.h⟩

/-- The padding of a message of `len` bytes. -/
def padding (len : Nat) : Bytes :=
  0x80 :: List.replicate ((119 - len % 64) % 64) 0 ++
    (List.range 8).map fun i => BitVec.ofNat 8 (len * 8 / 256 ^ (7 - i))

/-- `count` big-endian words from the front of a byte string. -/
def beWords : Nat → Bytes → List Word
  | 0, _ => []
  | count + 1, bs =>
    ((bs.getD 0 0) ++ (bs.getD 1 0) ++ (bs.getD 2 0) ++ (bs.getD 3 0) : BitVec 32)
      :: beWords count (bs.drop 4)

/-- The blocks of a padded message, one after another. -/
def absorb : Nat → Vars → Bytes → Vars
  | 0, h, _ => h
  | count + 1, h, bs => absorb count (compress h (beWords 16 bs)) (bs.drop 64)

/-- The eight words as a list. -/
def Vars.toList (h : Vars) : List Word := [h.a, h.b, h.c, h.d, h.e, h.f, h.g, h.h]

/-- The digest bytes of the eight words, each word most significant byte first. -/
def digest (h : Vars) : Bytes32 :=
  Vector.ofFn fun i : Fin 32 =>
    (h.toList.getD (i.val / 4) 0).extractLsb' (8 * (3 - i.val % 4)) 8

/-- SHA-256 of a byte string. -/
def sha256 (msg : Bytes) : Bytes32 :=
  let padded := msg ++ padding msg.length
  digest (absorb (padded.length / 64) initial padded)

end Sys2Proof.Machine.Sha256

namespace Sys2Proof.Machine

/-- A 32-byte key filled up to a block of 64 bytes, each byte combined with `mask`. -/
def hmacKeyBlock (key : Bytes32) (mask : Byte) : Bytes :=
  (key.toList ++ List.replicate 32 0).map (· ^^^ mask)

/-- `HMAC_K(data)`, 32 bytes (43_drbg.md R351). -/
def hmac (key : Bytes32) (data : Bytes) : Bytes32 :=
  Sha256.sha256
    (hmacKeyBlock key 0x5c ++ (Sha256.sha256 (hmacKeyBlock key 0x36 ++ data)).toList)

end Sys2Proof.Machine
end

