-- ==== Sys2Proof/Machine/DrbgArith.lean ====
section
/-! DEFINITION. The functions of the deterministic nonce generator: reseed, generate and the
driver (43_drbg.md R352–R355). -/

namespace Sys2Proof.Machine

/-- `drbg_reseed(seed)`: two steps for the empty seed, four otherwise (43_drbg.md R353). CTR is not
changed. -/
def drbgReseed (g : Drbg) (seed : Bytes) : Drbg :=
  let k1 := hmac g.k (g.v.toList ++ [0x00] ++ seed)
  let v1 := hmac k1 g.v.toList
  if seed.isEmpty then { g with k := k1, v := v1 }
  else
    let k2 := hmac k1 (v1.toList ++ [0x01] ++ seed)
    let v2 := hmac k2 v1.toList
    { g with k := k2, v := v2 }

/-- `drbg_generate()`: the output with the state after it, or the state after the failing step,
with CTR past the limit and V and K unchanged (43_drbg.md R354). -/
def drbgGenerate (g : Drbg) : Except Drbg (Bytes32 × Drbg) :=
  let ctr := g.ctr + 1
  if ctr > Config.drbgLimit then .error { g with ctr := ctr }
  else
    let v := hmac g.k g.v.toList
    .ok (v, { g with v := v, ctr := ctr })

/-- What the driver's predicate answers for a candidate (43_drbg.md R355): no result, a result, or
a fatal error of the command around it. -/
inductive Verdict (α : Type) where
  | retry
  | accept (result : α)
  | abort (c : Cause)
  deriving DecidableEq, Repr

/-- How a run of the driver ends: the DRBG state it leaves, whether the predicate used the
precomputed table, and the result or the fatal cause. -/
structure DrbgRun (α : Type) where
  drbg : Drbg
  usedTable : Bool
  outcome : Except Cause α

/-- The driver's loop (43_drbg.md R355). The predicate also says whether it used the table. `fuel`
bounds the generate calls; from CTR = 0 the 1001st call fails, so the first line is not reached
with fuel 1001 (assumption log 9). -/
def drbgLoop {α : Type} (pred : Bytes32 → Bool × Verdict α) : Nat → Drbg → Bool → DrbgRun α
  | 0, g, used => ⟨g, used, .error .fatalDrbg⟩
  | fuel + 1, g, used =>
    match drbgGenerate g with
    | .error g' => ⟨g', used, .error .fatalDrbg⟩
    | .ok (c, g') =>
      match pred c with
      | (u, .accept res) => ⟨.reset, used || u, .ok res⟩
      | (u, .abort cause) => ⟨g', used || u, .error cause⟩
      | (u, .retry) => drbgLoop pred fuel (drbgReseed g' []) (used || u)

/-- `drbg_run(initialSeed, pred)` (43_drbg.md R355): it starts from the reset state, whatever the
DRBG held before. -/
def drbgRun {α : Type} (seed : Bytes) (pred : Bytes32 → Bool × Verdict α) : DrbgRun α :=
  drbgLoop pred (Config.drbgLimit + 1) (drbgReseed .reset seed) false

end Sys2Proof.Machine
end

