-- ==== Sys2Proof/Machine/Flags.lean ====
section
/-! DEFINITION. The STATUS register: the cause codes, the word a read returns, the effect of a
write, and the interrupt output (10_state.md R53, R54; 60_exceptions.md R451, R464). -/

namespace Sys2Proof.Machine

/-- The code of each cause as STATUS.CAUSE shows it (60_exceptions.md R451). -/
def Cause.code : Cause → BitVec 8
  | .none => 0x00
  | .illegal => 0x01
  | .domain => 0x02
  | .noInverse => 0x03
  | .noSqrt => 0x04
  | .range => 0x05
  | .badRecid => 0x06
  | .xOverflow => 0x07
  | .fatalInvariant => 0x80
  | .fatalDrbg => 0x81

/-- Whether the cause is of the fatal class (60_exceptions.md R451). -/
def Cause.isFatal : Cause → Bool
  | .fatalInvariant | .fatalDrbg => true
  | .none | .illegal | .domain | .noInverse | .noSqrt | .range | .badRecid | .xOverflow => false

/-- The word a read of STATUS returns: CAUSE in [15:8], then bit 7 reserved, OVR, FATAL, TABLE,
RESULT, ERR, DONE, BUSY (10_state.md R53). -/
def statusWord (s : State) : Word :=
  (0 : BitVec 16) ++ s.cause.code ++ (0 : BitVec 1) ++ BitVec.ofBool s.ovr ++
    BitVec.ofBool s.fatal ++ BitVec.ofBool s.tableValid ++ BitVec.ofBool s.result ++
    BitVec.ofBool s.err ++ BitVec.ofBool s.done ++ BitVec.ofBool s.busy

/-- A host write of v to STATUS: write-1-to-clear of DONE, of ERR with CAUSE unless FATAL, and of
OVR (10_state.md R54). -/
def writeStatus (v : Word) (s : State) : State :=
  let clearErr := v.getLsbD 2 && !s.fatal
  { s with
    done := s.done && !v.getLsbD 1
    err := s.err && !clearErr
    cause := if clearErr then .none else s.cause
    ovr := s.ovr && !v.getLsbD 6 }

/-- The interrupt output IRQ = CTRL.IRQEN ∧ STATUS.DONE (60_exceptions.md R464). -/
def State.irq (s : State) : Bool := s.irqen && s.done

end Sys2Proof.Machine
end

