-- ==== Sys2Proof/Machine/Operands.lean ====
section
/-! DEFINITION. Reading operands: integer and point registers, the modulus operand, the ranges the
commands accept, and conversions between integers and byte strings. -/

namespace Sys2Proof.Machine

/-- The integer an integer register holds: its field as two's complement (10_state.md R42). -/
def readR (s : State) (i : RIdx) : Int := s.r[i].toInt

/-- The triple a point register holds; P0 and P1 are hardwired (10_state.md R45, R46). -/
def readP (s : State) (i : PIdx) : Point :=
  if i.val = 0 then Config.zero
  else if i.val = 1 then Config.base
  else s.p[i.val - 2]'(by omega)

/-- The Euclidean remainder `mod(a, m)` (00_scope.md R10, 40_field.md R200). -/
def emod (a m : Int) : Int := a % m

/-- A modulus is valid when 1 ≤ m < 2^256 (40_field.md R201). -/
def validModulus (m : Int) : Bool := decide (1 ≤ m) && decide (m < Config.scalarBound)

/-- The value the modulus operand names (40_field.md R201). -/
def modulusValue (s : State) (m : ModSel) : Int :=
  match m with
  | .p => Config.P
  | .n => Config.n
  | .reg d => readR s d

/-- Modulus selection with its check: an invalid register modulus is DOMAIN (40_field.md R201). -/
def selectModulus (s : State) (m : ModSel) : Except Cause Int :=
  let v := modulusValue s m
  if validModulus v then .ok v else .error .domain

/-- 0 ≤ k < 2^256 (42_scalar.md R300). -/
def scalarOk (k : Int) : Bool := decide (0 ≤ k) && decide (k < Config.scalarBound)

/-- x in [0, P) (41_point.md R264, R266). -/
def coordOk (x : Int) : Bool := decide (0 ≤ x) && decide (x < Config.P)

/-- A valid scalar is in [1, n − 1] (44_ecdsa.md R381). -/
def validScalar (k : Int) : Bool := decide (1 ≤ k) && decide (k ≤ Config.n - 1)

/-- `be_int`: a byte string as a big-endian unsigned integer (00_scope.md R11). -/
def beInt (bs : Bytes) : Int := (bs.foldl (fun acc b => acc * 256 + b.toNat) 0 : Nat)

/-- `be32`: an integer in [0, 2^256) as 32 bytes, most significant first (00_scope.md R11). -/
def be32 (x : Int) : Bytes :=
  (List.range 32).map fun i => BitVec.ofNat 8 (x.toNat / 256 ^ (31 - i))

/-- The digest or seed bytes DG[0..DLEN−1] (10_state.md R49). -/
def digestBytes (s : State) : Bytes := s.dg.toList.take s.dlen.toNat

end Sys2Proof.Machine
end

