-- ==== Sys2Proof/Machine/FieldArith.lean ====
section
/-! DEFINITION. The functions of the field family: reduction modulo P, the modular inverse and the
modular square root (40_field.md R200, R215, R216, R220). -/

namespace Sys2Proof.Machine

/-- `mod(a)` = `mod(a, P)` (00_scope.md R10). -/
def modP (a : Int) : Int := emod a Config.P

/-- The loop of the extended Euclidean algorithm (40_field.md R216): b0, a0 are the remainders and
x, u the coefficients of the operand. The rule's y and v are the coefficients of m and reach no
result. `fuel` bounds the iterations; Laws/FieldArith.lean shows that 512 are enough. -/
def euclid : Nat → (b0 a0 x u : Int) → Int
  | 0, _, _, x, _ => x
  | fuel + 1, b0, a0, x, u =>
    if a0 = 0 then x
    else euclid fuel a0 (b0 % a0) u (x - u * (b0 / a0))

/-- `invert(a, m)` with its checks in order (40_field.md R215). -/
def invert (a m : Int) : Except Cause Int :=
  if !validModulus m then .error .domain
  else if emod a m = 0 then .error .domain
  else if Int.gcd (emod a m) m ≠ 1 then .error .noInverse
  else .ok (emod (euclid 512 m (emod a m) 0 1) m)

/-- `mod(a^e, m)` by squaring: `acc` holds the factors taken so far. `fuel` bounds the bits of e. -/
def powModLoop : Nat → (a : Int) → (e : Nat) → (m acc : Int) → Int
  | 0, _, _, _, acc => acc
  | fuel + 1, a, e, m, acc =>
    if e = 0 then acc
    else
      powModLoop fuel (emod (a * a) m) (e / 2) m (if e % 2 = 1 then emod (acc * a) m else acc)

/-- `mod(a^e, m)` for e < 2^256, "via fast exponentiation" (40_field.md R220). -/
def powMod (a : Int) (e : Nat) (m : Int) : Int := powModLoop 256 (emod a m) e m (emod 1 m)

/-- `sqrt(a)` over the field prime, with its self-check (40_field.md R220). -/
def sqrtP (a : Int) : Except Cause Int :=
  let r := powMod (modP a) Config.sqrtExp Config.P
  if modP (r * r) = modP a then .ok r else .error .noSqrt

end Sys2Proof.Machine
end

