-- ==== Sys2Proof/Machine/PointArith.lean ====
section
/-! DEFINITION. The functions of the point family: complete addition, negation, equality, affine
conversion and reconstruction from x (41_point.md R250–R265). -/

namespace Sys2Proof

/-- The coordinates of a stored triple as integers (00_scope.md R12). -/
def Point.X (p : Point) : Int := p.x.toNat
def Point.Y (p : Point) : Int := p.y.toNat
def Point.Z (p : Point) : Int := p.z.toNat

end Sys2Proof

namespace Sys2Proof.Machine

/-- A triple of integers in [0, 2^256) as a point register stores it (10_state.md R45). -/
def mkPoint (x y z : Int) : Point := ⟨BitVec.ofInt 256 x, BitVec.ofInt 256 y, BitVec.ofInt 256 z⟩

/-- `ADD(p1, p2)`: Renes, Costello and Batina, Algorithm 1, the forty steps of 41_point.md R252. -/
def pointAdd (p1 p2 : Point) : Point :=
  let X1 := p1.X; let Y1 := p1.Y; let Z1 := p1.Z
  let X2 := p2.X; let Y2 := p2.Y; let Z2 := p2.Z
  -- steps 1–8
  let t0 := modP (X1 * X2); let t1 := modP (Y1 * Y2); let t2 := modP (Z1 * Z2)
  let t3 := modP (X1 + Y1)
  let t4 := modP (X2 + Y2); let t3 := modP (t3 * t4); let t4 := modP (t0 + t1)
  let t3 := modP (t3 - t4)
  -- steps 9–16
  let t4 := modP (X1 + Z1); let t5 := modP (X2 + Z2); let t4 := modP (t4 * t5)
  let t5 := modP (t0 + t2)
  let t4 := modP (t4 - t5); let t5 := modP (Y1 + Z1); let X3 := modP (Y2 + Z2)
  let t5 := modP (t5 * X3)
  -- steps 17–24
  let X3 := modP (t1 + t2); let t5 := modP (t5 - X3); let Z3 := modP (Config.a * t4)
  let X3 := modP (Config.b3 * t2)
  let Z3 := modP (X3 + Z3); let X3 := modP (t1 - Z3); let Z3 := modP (t1 + Z3)
  let Y3 := modP (X3 * Z3)
  -- steps 25–32
  let t1 := modP (t0 + t0); let t1 := modP (t1 + t0); let t2 := modP (Config.a * t2)
  let t4 := modP (Config.b3 * t4)
  let t1 := modP (t1 + t2); let t2 := modP (t0 - t2); let t2 := modP (Config.a * t2)
  let t4 := modP (t4 + t2)
  -- steps 33–40
  let t0 := modP (t1 * t4); let Y3 := modP (Y3 + t0); let t0 := modP (t5 * t4)
  let X3 := modP (t3 * X3)
  let X3 := modP (X3 - t0); let t0 := modP (t3 * t1); let Z3 := modP (t5 * Z3)
  let Z3 := modP (Z3 + t0)
  mkPoint X3 Y3 Z3

/-- `NEG(X, Y, Z)` = (X, mod(−Y), Z) (41_point.md R255). -/
def pointNeg (p : Point) : Point := ⟨p.x, BitVec.ofInt 256 (modP (-p.Y)), p.z⟩

/-- `equals(p1, p2)`, the cross-multiplication test (41_point.md R256). -/
def pointEq (p1 p2 : Point) : Bool :=
  decide (modP (p1.X * p2.Z) = modP (p2.X * p1.Z)) &&
    decide (modP (p1.Y * p2.Z) = modP (p2.Y * p1.Z))

/-- `toAffine(p)` (41_point.md R260). An inverse that fails counts as the failure of the
post-inversion check; both are unreachable (assumption log 9). -/
def toAffine (p : Point) : Except Cause (Int × Int) :=
  if pointEq p Config.zero then .ok (0, 0)
  else if p.Z = 1 then .ok (p.X, p.Y)
  else
    match invert (p.Z) Config.P with
    | .error _ => .error .fatalInvariant
    | .ok iz =>
      if modP (p.Z * iz) ≠ 1 then .error .fatalInvariant
      else .ok (modP (p.X * iz), modP (p.Y * iz))

/-- `fromAffine(x, y)` for x, y in [0, P) (41_point.md R263). -/
def fromAffine (x y : Int) : Point :=
  if x = 0 ∧ y = 0 then Config.zero else mkPoint x y 1

/-- `fromX(x, headOdd)` for x in [0, P) (41_point.md R265). -/
def fromX (x : Int) (headOdd : Bool) : Except Cause Point :=
  match sqrtP (modP (x * x * x + Config.b)) with
  | .error c => .error c
  | .ok y =>
    let y := if decide (y % 2 = 1) ≠ headOdd then modP (-y) else y
    .ok (mkPoint x y 1)

end Sys2Proof.Machine
end

