-- ==== Sys2Proof/Machine/ScalarArith.lean ====
section
/-! DEFINITION. The functions of the scalar family: the generic multiply, the precomputed table,
the windowed multiply, the two-scalar multiply-add and the NAF recoding (42_scalar.md). -/

namespace Sys2Proof.Machine

/-- The loop of `generic` (42_scalar.md R301): p the accumulator, f the dummy accumulator, d the
running base, k what is left of the scalar. `fuel` bounds the bits of k. -/
def genericLoop : Nat → (safe : Bool) → (p f d : Point) → (k : Nat) → Point
  | 0, _, p, _, _, _ => p
  | fuel + 1, safe, p, f, d, k =>
    if k = 0 then p
    else if k % 2 = 1 then
      genericLoop fuel safe (pointAdd p d) f (pointAdd d d) (k / 2)
    else
      genericLoop fuel safe p (if safe then pointAdd f d else f) (pointAdd d d) (k / 2)

/-- `generic(base, k, safe)` for 0 ≤ k < 2^256 (42_scalar.md R301). -/
def generic (base : Point) (k : Int) (safe : Bool) : Point :=
  genericLoop 256 safe Config.zero Config.base base k.toNat

/-- The entries of one window after its first: `count` more additions of p (42_scalar.md R302). -/
def windowEntries : Nat → (p b : Point) → List Point
  | 0, _, _ => []
  | count + 1, p, b =>
    let b' := pointAdd b p
    b' :: windowEntries count p b'

/-- One window: p itself and its multiples up to 128·p (42_scalar.md R302). -/
def window (p : Point) : List Point := p :: windowEntries (Config.windowSize - 1) p p

/-- The windows from the one whose first entry is p on (42_scalar.md R302): the next window starts
at ADD(b, b), b being the last entry. -/
def buildWindows : Nat → Point → List Point
  | 0, _ => []
  | count + 1, p =>
    let w := window p
    let b := w.getLastD p
    w ++ buildWindows count (pointAdd b b)

/-- `build_table()`, all 4224 entries in order (42_scalar.md R302). -/
def buildTable : List Point := buildWindows Config.windows Config.base

/-- The signed digit of a window and the carry into the rest (42_scalar.md R304). -/
def windowDigit (k : Nat) : Int × Nat :=
  let raw := k % 256
  if raw > 128 then ((raw : Int) - 256, k / 256 + 1) else (raw, k / 256)

/-- The loop of `wnaf` (42_scalar.md R304): `count` windows are left, w is the next one. -/
def wnafLoop : Nat → (tbl : List Point) → (w : Nat) → (k : Nat) → (p f : Point) → Point
  | 0, _, _, _, p, _ => p
  | count + 1, tbl, w, k, p, f =>
    let off := Config.windowSize * w
    let dk := windowDigit k
    if dk.1 = 0 then
      let e := tbl.getD off Config.zero
      wnafLoop count tbl (w + 1) dk.2 p (pointAdd f (if w % 2 = 1 then pointNeg e else e))
    else
      let e := tbl.getD (off + dk.1.natAbs - 1) Config.zero
      wnafLoop count tbl (w + 1) dk.2 (pointAdd p (if dk.1 < 0 then pointNeg e else e)) f

/-- `wnaf(k)` for 0 ≤ k < 2^256 over a table already built (42_scalar.md R304). -/
def wnaf (tbl : List Point) (k : Int) : Point :=
  wnafLoop Config.windows tbl 0 k.toNat Config.zero Config.base

/-- `muladd(u1, u2, Q)`, the generic non-safe path for both terms (42_scalar.md R307). -/
def mulAdd (u1 u2 : Int) (q : Point) : Point :=
  pointAdd (generic Config.base u1 false) (generic q u2 false)

/-- The loop of `naf` (42_scalar.md R309): i is the digit position. `fuel` bounds the digits. -/
def nafLoop : Nat → (k i pos neg : Nat) → Nat × Nat
  | 0, _, _, pos, neg => (pos, neg)
  | fuel + 1, k, i, pos, neg =>
    if k = 0 then (pos, neg)
    else if k % 4 = 1 then nafLoop fuel ((k - 1) / 2) (i + 1) (pos ||| 1 <<< i) neg
    else if k % 4 = 3 then nafLoop fuel ((k + 1) / 2) (i + 1) pos (neg ||| 1 <<< i)
    else nafLoop fuel (k / 2) (i + 1) pos neg

/-- `naf(k)` for 1 ≤ k < 2^256: the positive and the negative mask (42_scalar.md R309). -/
def naf (k : Int) : Int × Int :=
  let r := nafLoop 257 k.toNat 0 0 0
  (r.1, r.2)

end Sys2Proof.Machine
end

