-- ==== Sys2Proof/Machine/Ops.lean ====
section
/-! DEFINITION. The shared operations that change the state: register writes, the table, the ways a
command completes (the block's exceptions among them), acceptance and reset. -/

namespace Sys2Proof.Machine

/-- `R[i] <- v` (00_scope.md R12): the register's field holds v as two's complement
(10_state.md R42). -/
def writeR (s : State) (i : RIdx) (v : Int) : State :=
  { s with r := s.r.set i (BitVec.ofInt 512 v) }

/-- `P[i] <- q` (00_scope.md R12). P0 and P1 are hardwired and discard it; no command that decodes
names them (10_state.md R46, 30_encoding.md R147; assumption log 11). -/
def writeP (s : State) (i : PIdx) (q : Point) : State :=
  if i.val < 2 then s
  else { s with p := s.p.set (i.val - 2) q (by omega) }

/-- The table the windowed multiply reads: TBL, or what `build_table()` would put there
(42_scalar.md R303). -/
def tableOf (s : State) : List Point := if s.tableValid then s.tbl else buildTable

/-- The lazy build: TABLE_VALID <- 1 and TBL filled, unless it already is (42_scalar.md R303). -/
def withTable (s : State) : State :=
  if s.tableValid then s else { s with tbl := buildTable, tableValid := true }

/-- A successful completion's STATUS (60_exceptions.md R454): DONE <- 1, ERR <- 0, CAUSE <- 0x00,
RESULT <- the command's result (10_state.md R63), BUSY <- 0. -/
def complete (result : Bool) (s : State) : State :=
  { s with done := true, err := false, cause := .none, result := result, inFlight := none }

/-- Raising an error, the block's exception (60_exceptions.md R455, R458): DONE <- 1, ERR <- 1,
CAUSE <- code, RESULT <- 0, BUSY <- 0, and FATAL <- 1 for a fatal cause. The word that failed stays
in CMDLOG (R460); there is no handler to go to. -/
def raise (c : Cause) (s : State) : State :=
  { s with
    done := true, err := true, cause := c, result := false, inFlight := none
    fatal := s.fatal || c.isFatal }

/-- A command's successful completion as the answer of its meaning; RESULT is 0 for every command
but PEQ and VERIFY (10_state.md R63). -/
def succeed (s : State) : Answer := .next (complete false s)

/-- A completion that reports a boolean in RESULT (10_state.md R63). -/
def succeedWith (result : Bool) (s : State) : Answer := .next (complete result s)

/-- A command's error completion as the answer of its meaning. -/
def fail (c : Cause) (s : State) : Answer := .next (raise c s)

/-- LATENCY of a command word on the operands as they stand (10_state.md R60). -/
def latencyOf (s : State) (c : Word) : Nat :=
  Config.latency c s.r s.p s.dg s.dlen s.drbg.v s.drbg.k s.drbg.ctr s.tableValid

/-- What acceptance writes, `delay` being left to run before completion (10_state.md R55): DONE,
ERR and CAUSE cleared, CMDLOG <- c, BUSY <- 1. It is also the way on from an error
(60_exceptions.md R462). -/
def acceptWith (delay : Nat) (c : Word) (s : State) : State :=
  { s with done := false, err := false, cause := .none, cmdlog := c, inFlight := some delay }

/-- Acceptance of c with its LATENCY (10_state.md R55, R60). -/
def accept (c : Word) (s : State) : State := acceptWith (latencyOf s c) c s

/-- A host write of c to CMD (10_state.md R55): ignored with OVR while BUSY, ignored while FATAL,
accepted otherwise. -/
def writeCmd (c : Word) (s : State) : State :=
  if s.busy then { s with ovr := true }
  else if s.fatal then s
  else accept c s

/-- Reset of the block, hard or soft (10_state.md R65, 70_reset_and_hazards.md R501, R502). What
the host will do next, and what the bus last answered, are not part of the block. -/
def resetBlock (s : State) : State :=
  { State.reset with hostQueue := s.hostQueue, lastResponse := s.lastResponse }

/-- A host write of v to CTRL (10_state.md R51): SRST resets, and then bit 0 is ignored
(70_reset_and_hazards.md R502); otherwise IRQEN <- v[0]. -/
def writeCtrl (v : Word) (s : State) : State :=
  if v.getLsbD 1 then resetBlock s else { s with irqen := v.getLsbD 0 }

/-- The word the core runs: the one in flight (10_state.md R56, R60). -/
def fetchWord (s : State) : Word := s.cmdlog

/-- The completion of a word that fails decode: ILLEGAL, with no operand read and nothing else
written (60_exceptions.md R452). -/
def completeIllegal (s : State) : Answer := fail .illegal s

end Sys2Proof.Machine
end

