-- ==== Sys2Proof/Machine/DrbgFamily.lean ====
section
/-! DEFINITION. The meanings of the DRBG family: DRBGRST, DRBGSEED, DRBGGEN (43_drbg.md
R356–R358). -/

namespace Sys2Proof.Machine

/-- DRBGRST (43_drbg.md R356). -/
def execDrbgrst (s : State) : Answer := succeed { s with drbg := .reset }

/-- DRBGSEED (43_drbg.md R357): the seed is DG[0..DLEN−1]. -/
def execDrbgseed (s : State) : Answer :=
  succeed { s with drbg := drbgReseed s.drbg (digestBytes s) }

/-- DRBGGEN (43_drbg.md R358): the 1001st generate since the generator's reset is fatal and leaves
CTR = 1001 (60_exceptions.md R458). -/
def execDrbggen (rd : RIdx) (s : State) : Answer :=
  match drbgGenerate s.drbg with
  | .error g => fail .fatalDrbg { s with drbg := g }
  | .ok (v, g) => succeed (writeR { s with drbg := g } rd (beInt v.toList))

end Sys2Proof.Machine
end

