-- ==== Sys2Proof/Machine/FieldFamily.lean ====
section
/-! DEFINITION. The meanings of the field family: MOD, MODADD, MODSUB, MODMUL, MODINV, MODSQRT
(40_field.md R210–R221). -/

namespace Sys2Proof.Machine

/-- The MOD family's shape: select the modulus or raise DOMAIN, then R[rd] <- f m mod m, f being
formed as an exact integer (40_field.md R201, R202). -/
def reduceInto (rd : RIdx) (value : Int) (m : ModSel) (s : State) : Answer :=
  match selectModulus s m with
  | .error c => fail c s
  | .ok mv => succeed (writeR s rd (emod value mv))

/-- MOD (40_field.md R210). -/
def execMod (rd ra : RIdx) (m : ModSel) (s : State) : Answer := reduceInto rd (readR s ra) m s

/-- MODADD (40_field.md R211). -/
def execModadd (rd ra rb : RIdx) (m : ModSel) (s : State) : Answer :=
  reduceInto rd (readR s ra + readR s rb) m s

/-- MODSUB (40_field.md R212). -/
def execModsub (rd ra rb : RIdx) (m : ModSel) (s : State) : Answer :=
  reduceInto rd (readR s ra - readR s rb) m s

/-- MODMUL (40_field.md R213). -/
def execModmul (rd ra rb : RIdx) (m : ModSel) (s : State) : Answer :=
  reduceInto rd (readR s ra * readR s rb) m s

/-- MODINV (40_field.md R217): the modulus check, then `invert` with its own. -/
def execModinv (rd ra : RIdx) (m : ModSel) (s : State) : Answer :=
  match selectModulus s m with
  | .error c => fail c s
  | .ok mv =>
    match invert (readR s ra) mv with
    | .error c => fail c s
    | .ok x => succeed (writeR s rd x)

/-- MODSQRT (40_field.md R221). -/
def execModsqrt (rd ra : RIdx) (s : State) : Answer :=
  match sqrtP (readR s ra) with
  | .error c => fail c s
  | .ok r => succeed (writeR s rd r)

end Sys2Proof.Machine
end

