-- ==== Sys2Proof/Machine/PointFamily.lean ====
section
/-! DEFINITION. The meanings of the point family: PADD, PDBL, PNEG, PEQ, PMOV, TOAFF, FROMAFF,
FROMX (41_point.md R253–R266). -/

namespace Sys2Proof.Machine

/-- PADD (41_point.md R253). -/
def execPadd (pd pa pb : PIdx) (s : State) : Answer :=
  succeed (writeP s pd (pointAdd (readP s pa) (readP s pb)))

/-- PDBL (41_point.md R254): ADD of the point with itself. -/
def execPdbl (pd pa : PIdx) (s : State) : Answer :=
  succeed (writeP s pd (pointAdd (readP s pa) (readP s pa)))

/-- PNEG (41_point.md R255). -/
def execPneg (pd pa : PIdx) (s : State) : Answer := succeed (writeP s pd (pointNeg (readP s pa)))

/-- PEQ (41_point.md R257): the result goes to STATUS.RESULT. -/
def execPeq (pa pb : PIdx) (s : State) : Answer :=
  succeedWith (pointEq (readP s pa) (readP s pb)) s

/-- PMOV (41_point.md R258). -/
def execPmov (pd pa : PIdx) (s : State) : Answer := succeed (writeP s pd (readP s pa))

/-- TOAFF (41_point.md R261): x is written first, y second. -/
def execToaff (rx : RIdx) (pa : PIdx) (ry : RIdx) (s : State) : Answer :=
  match toAffine (readP s pa) with
  | .error c => fail c s
  | .ok (x, y) => succeed (writeR (writeR s rx x) ry y)

/-- FROMAFF (41_point.md R264): no curve check (90_conflicts.md C8). -/
def execFromaff (pd : PIdx) (rx ry : RIdx) (s : State) : Answer :=
  let x := readR s rx
  let y := readR s ry
  if coordOk x && coordOk y then succeed (writeP s pd (fromAffine x y)) else fail .range s

/-- FROMX (41_point.md R266). -/
def execFromx (pd : PIdx) (rx : RIdx) (headOdd : Bool) (s : State) : Answer :=
  let x := readR s rx
  if coordOk x then
    match fromX x headOdd with
    | .error c => fail c s
    | .ok q => succeed (writeP s pd q)
  else fail .range s

end Sys2Proof.Machine
end

