-- ==== Sys2Proof/Machine/ScalarFamily.lean ====
section
/-! DEFINITION. The meanings of the scalar family: MUL, MULG, MULADD, NAF, PRECOMP
(42_scalar.md R305–R311). -/

namespace Sys2Proof.Machine

/-- P[pd] <- wnaf(k), the table being built first if it is not (42_scalar.md R303, R304). -/
def windowedInto (pd : PIdx) (k : Int) (s : State) : Answer :=
  succeed (writeP (withTable s) pd (wnaf (tableOf s) k))

/-- MUL (42_scalar.md R305): any base equal to G takes the windowed path, where F is ignored. -/
def execMul (pd pbase : PIdx) (rk : RIdx) (safe : Bool) (s : State) : Answer :=
  let k := readR s rk
  let base := readP s pbase
  if scalarOk k then
    if pointEq base Config.base then windowedInto pd k s
    else succeed (writeP s pd (generic base k safe))
  else fail .range s

/-- MULG (42_scalar.md R306). -/
def execMulg (pd : PIdx) (rk : RIdx) (s : State) : Answer :=
  let k := readR s rk
  if scalarOk k then windowedInto pd k s else fail .range s

/-- MULADD (42_scalar.md R308). -/
def execMuladd (pd : PIdx) (ru1 ru2 : RIdx) (pq : PIdx) (s : State) : Answer :=
  let u1 := readR s ru1
  let u2 := readR s ru2
  if scalarOk u1 && scalarOk u2 then succeed (writeP s pd (mulAdd u1 u2 (readP s pq)))
  else fail .range s

/-- NAF (42_scalar.md R310): the positive mask is written first, the negative second. -/
def execNaf (rpos rk rneg : RIdx) (s : State) : Answer :=
  let k := readR s rk
  if decide (1 ≤ k) && decide (k < Config.scalarBound) then
    let masks := naf k
    succeed (writeR (writeR s rpos masks.1) rneg masks.2)
  else fail .range s

/-- PRECOMP (42_scalar.md R311). -/
def execPrecomp (s : State) : Answer := succeed (withTable s)

end Sys2Proof.Machine
end

