-- ==== Sys2Proof/Machine/EcdsaArith.lean ====
section
/-! DEFINITION. The functions of the signature family: the digest integer, SIGN's predicate,
VERIFY's predicate and RECOVER's reconstruction (44_ecdsa.md R380–R385). -/

namespace Sys2Proof.Machine

/-- `digest_int()` of a digest's bytes (44_ecdsa.md R380): the leftmost 256 bits, mod n. -/
def digestIntOf (g : Bytes) : Int :=
  let bits := 8 * g.length
  let v := beInt g
  emod (if bits > 256 then v / 2 ^ (bits - 256) else v) Config.n

/-- `digest_int()` (44_ecdsa.md R380). -/
def digestInt (s : State) : Int := digestIntOf (digestBytes s)

/-- A signature (r, s, recoveryId) (44_ecdsa.md R381). -/
structure Signature where
  r : Int
  s : Int
  recid : Int
  deriving DecidableEq, Repr

/-- SIGN's predicate on a candidate, steps 2a–2h (44_ecdsa.md R383), with whether it ran the
windowed multiply. An inverse that fails in step 2b is unreachable and counts as a broken internal
invariant (assumption log 9). -/
def signCandidate (tbl : List Point) (d h : Int) (lowS : Bool) (c : Bytes32) :
    Bool × Verdict Signature :=
  let k := beInt c.toList
  if !validScalar k then (false, .retry)
  else
    match invert k Config.n with
    | .error _ => (false, .abort .fatalInvariant)
    | .ok ik =>
      match toAffine (wnaf tbl k) with
      | .error cause => (true, .abort cause)
      | .ok (qx, qy) =>
        let r := emod qx Config.n
        if r = 0 then (true, .retry)
        else
          let s := emod (ik * emod (h + emod (d * r) Config.n) Config.n) Config.n
          if s = 0 then (true, .retry)
          else
            let hi := if qx ≠ r then 2 else 0
            let parity := qy % 2
            if lowS && decide (s > Config.halfN) then
              (true, .accept ⟨r, Config.n - s, hi + (1 - parity)⟩)
            else (true, .accept ⟨r, s, hi + parity⟩)

/-- The seed bytes(d) ∥ bytes(h) of SIGN's driver (44_ecdsa.md R383). -/
def signSeed (d h : Int) : Bytes := be32 d ++ be32 h

/-- SIGN's run of the driver over a table (44_ecdsa.md R383). -/
def signRun (tbl : List Point) (d h : Int) (lowS : Bool) : DrbgRun Signature :=
  drbgRun (signSeed d h) (signCandidate tbl d h lowS)

/-- VERIFY's predicate (44_ecdsa.md R384); the only error is a broken internal invariant in
`toAffine` (60_exceptions.md R457). -/
def verifySignature (h r s : Int) (q : Point) (lowS : Bool) : Except Cause Bool :=
  if !(validScalar r && validScalar s) then .ok false
  else if lowS && decide (s > Config.halfN) then .ok false
  else
    match invert s Config.n with
    | .error _ => .ok false
    | .ok w =>
      let u1 := emod (h * w) Config.n
      let u2 := emod (r * w) Config.n
      match toAffine (mulAdd u1 u2 q) with
      | .error cause => .error cause
      | .ok (x, _) => .ok (decide (emod x Config.n = r))

/-- RECOVER's reconstruction, with its checks in order (44_ecdsa.md R385, 60_exceptions.md R453). -/
def recoverPoint (h r s recid : Int) : Except Cause Point :=
  if ¬(0 ≤ recid ∧ recid ≤ 3) then .error .badRecid
  else if !(validScalar r && validScalar s) then .error .range
  else
    let radj := if recid / 2 = 1 then r + Config.n else r
    if radj ≥ Config.P then .error .xOverflow
    else
      match fromX radj (decide (recid % 2 = 1)) with
      | .error cause => .error cause
      | .ok rp =>
        match invert radj Config.n with
        | .error _ => .error .fatalInvariant
        | .ok ir =>
          .ok (mulAdd (emod (-h * ir) Config.n) (emod (s * ir) Config.n) rp)

end Sys2Proof.Machine
end

