-- ==== Sys2Proof/Machine/SignatureFamily.lean ====
section
/-! DEFINITION. The meanings of the signature family: SIGN, VERIFY, RECOVER (44_ecdsa.md
R383–R385). -/

namespace Sys2Proof.Machine

/-- SIGN (44_ecdsa.md R383). The driver's DRBG state is kept on success (then it is the reset
state) and on a fatal error (60_exceptions.md R458), and so is a table built on the way. The
destinations are written r, s, recoveryId. -/
def execSign (rr rkey rs rrec : RIdx) (lowS : Bool) (s : State) : Answer :=
  let d := readR s rkey
  if validScalar d then
    let run := signRun (tableOf s) d (digestInt s) lowS
    let s1 := { (if run.usedTable then withTable s else s) with drbg := run.drbg }
    match run.outcome with
    | .error c => fail c s1
    | .ok sig => succeed (writeR (writeR (writeR s1 rr sig.r) rs sig.s) rrec sig.recid)
  else fail .range s

/-- VERIFY (44_ecdsa.md R384): the result goes to STATUS.RESULT, nothing else is written. -/
def execVerify (rr rs : RIdx) (pq : PIdx) (lowS : Bool) (s : State) : Answer :=
  match verifySignature (digestInt s) (readR s rr) (readR s rs) (readP s pq) lowS with
  | .error c => fail c s
  | .ok valid => succeedWith valid s

/-- RECOVER (44_ecdsa.md R385). -/
def execRecover (pd : PIdx) (rr rs rrec : RIdx) (s : State) : Answer :=
  match recoverPoint (digestInt s) (readR s rr) (readR s rs) (readR s rrec) with
  | .error c => fail c s
  | .ok q => succeed (writeP s pd q)

end Sys2Proof.Machine
end

