-- ==== Sys2Proof/Machine/Dispatch.lean ====
section
/-! DEFINITION. The meaning of each command: its completion on the state at acceptance
(10_state.md R60), one arm a constructor. -/

namespace Sys2Proof.Machine

def exec (i : Instr) (s : State) : Host.Outcome State Fault Refusal :=
  match i with
  | .mod rd ra m => Sys2Proof.Machine.execMod rd ra m s
  | .modadd rd ra rb m => Sys2Proof.Machine.execModadd rd ra rb m s
  | .modsub rd ra rb m => Sys2Proof.Machine.execModsub rd ra rb m s
  | .modmul rd ra rb m => Sys2Proof.Machine.execModmul rd ra rb m s
  | .modinv rd ra m => Sys2Proof.Machine.execModinv rd ra m s
  | .modsqrt rd ra => Sys2Proof.Machine.execModsqrt rd ra s
  | .padd pd pa pb => Sys2Proof.Machine.execPadd pd pa pb s
  | .pdbl pd pa => Sys2Proof.Machine.execPdbl pd pa s
  | .pneg pd pa => Sys2Proof.Machine.execPneg pd pa s
  | .peq pa pb => Sys2Proof.Machine.execPeq pa pb s
  | .pmov pd pa => Sys2Proof.Machine.execPmov pd pa s
  | .toaff rx pa ry => Sys2Proof.Machine.execToaff rx pa ry s
  | .fromaff pd rx ry => Sys2Proof.Machine.execFromaff pd rx ry s
  | .fromx pd rx headOdd => Sys2Proof.Machine.execFromx pd rx headOdd s
  | .mul pd pbase rk safe => Sys2Proof.Machine.execMul pd pbase rk safe s
  | .mulg pd rk => Sys2Proof.Machine.execMulg pd rk s
  | .muladd pd ru1 ru2 pq => Sys2Proof.Machine.execMuladd pd ru1 ru2 pq s
  | .naf rpos rk rneg => Sys2Proof.Machine.execNaf rpos rk rneg s
  | .precomp => Sys2Proof.Machine.execPrecomp s
  | .drbgrst => Sys2Proof.Machine.execDrbgrst s
  | .drbgseed => Sys2Proof.Machine.execDrbgseed s
  | .drbggen rd => Sys2Proof.Machine.execDrbggen rd s
  | .sign rr rkey rs rrec lowS => Sys2Proof.Machine.execSign rr rkey rs rrec lowS s
  | .verify rr rs pq lowS => Sys2Proof.Machine.execVerify rr rs pq lowS s
  | .recover pd rr rs rrec => Sys2Proof.Machine.execRecover pd rr rs rrec s

end Sys2Proof.Machine
end

