-- ==== Sys2Proof/Machine/Mmio.lean ====
section
/-! DEFINITION. The host's accesses to the MMIO window: the address map, reads, writes, the bus
error response, and serving the next event of the host and the platform (20_memory.md,
70_reset_and_hazards.md R510). -/

namespace Sys2Proof.Machine

/-- What an aligned offset of the window names (20_memory.md R101). -/
inductive MmioReg where
  | id
  | ctrl
  | status
  | cmd
  | dlen
  | drbgctr
  | cmdlog
  | dg (j : Fin 16)
  | r (i : RIdx) (j : Fin 16)
  | px (i : PIdx) (j : Fin 8)
  | py (i : PIdx) (j : Fin 8)
  | pz (i : PIdx) (j : Fin 8)
  | reserved
  deriving DecidableEq, Repr

/-- The MMIO map (20_memory.md R101), for an offset below 0x1000. -/
def mmioReg (off : Nat) : MmioReg :=
  if off < 0x100 then
    match off with
    | 0x000 => .id
    | 0x004 => .ctrl
    | 0x008 => .status
    | 0x00C => .cmd
    | 0x010 => .dlen
    | 0x014 => .drbgctr
    | 0x018 => .cmdlog
    | _ => .reserved
  else if off < 0x140 then .dg (Fin.ofNat 16 ((off - 0x100) / 4))
  else if off < 0x400 then .reserved
  else if off < 0x800 then
    .r (Fin.ofNat 16 ((off - 0x400) / 64)) (Fin.ofNat 16 ((off - 0x400) % 64 / 4))
  else if off < 0x1000 then
    let i := Fin.ofNat 16 ((off - 0x800) / 128)
    let within := (off - 0x800) % 128
    let j := Fin.ofNat 8 (within % 32 / 4)
    if within < 0x20 then .px i j
    else if within < 0x40 then .py i j
    else if within < 0x60 then .pz i j
    else .reserved
  else .reserved

/-- Word j of a wide field: bits [32j+31 : 32j] (20_memory.md R104). -/
def wordOf {w : Nat} (field : BitVec w) (j : Nat) : Word := field.extractLsb' (32 * j) 32

/-- A wide field with word j replaced (20_memory.md R104, R106). -/
def setWordOf {w : Nat} (field : BitVec w) (j : Nat) (v : Word) : BitVec w :=
  (field &&& ~~~((BitVec.setWidth w (BitVec.allOnes 32)) <<< (32 * j))) |||
    (BitVec.setWidth w v <<< (32 * j))

/-- DG word j: DG[4j] in bits [7:0] up to DG[4j+3] in bits [31:24] (20_memory.md R105). -/
def readDgWord (s : State) (j : Fin 16) : Word :=
  s.dg[4 * j.val + 3] ++ s.dg[4 * j.val + 2] ++ s.dg[4 * j.val + 1] ++ s.dg[4 * j.val]

/-- A write of v to DG word j sets its four bytes (20_memory.md R105). -/
def setDgWord (dg : Vector Byte 64) (j : Fin 16) (v : Word) : Vector Byte 64 :=
  (((dg.set (4 * j.val) (v.extractLsb' 0 8)).set (4 * j.val + 1) (v.extractLsb' 8 8)).set
    (4 * j.val + 2) (v.extractLsb' 16 8)).set (4 * j.val + 3) (v.extractLsb' 24 8)

/-- Data reads return 0 while BUSY (70_reset_and_hazards.md R510). -/
def dataRead (s : State) (v : Word) : Word := if s.busy then 0 else v

/-- What a 32-bit read returns (20_memory.md R101–R107, 70_reset_and_hazards.md R510). CTR changes
only at a completion, so DRBGCTR while BUSY shows the value from before (10_state.md R57). -/
def readReg (s : State) (reg : MmioReg) : Word :=
  match reg with
  | .id => Config.idValue
  | .ctrl => (0 : BitVec 31) ++ BitVec.ofBool s.irqen
  | .status => statusWord s
  | .cmd => 0
  | .dlen => (0 : BitVec 25) ++ s.dlen
  | .drbgctr => (0 : BitVec 21) ++ BitVec.ofNat 11 s.drbg.ctr
  | .cmdlog => s.cmdlog
  | .dg j => dataRead s (readDgWord s j)
  | .r i j => dataRead s (wordOf s.r[i] j)
  | .px i j => dataRead s (wordOf (readP s i).x j)
  | .py i j => dataRead s (wordOf (readP s i).y j)
  | .pz i j => dataRead s (wordOf (readP s i).z j)
  | .reserved => 0

/-- A write that the busy window protects: ignored with OVR while BUSY
(70_reset_and_hazards.md R510). -/
def guardBusy (s : State) (s' : State) : State := if s.busy then { s with ovr := true } else s'

/-- A write of v to DLEN: values above 64 are ignored (10_state.md R50). -/
def writeDlen (v : Word) (s : State) : State :=
  let len := v.extractLsb' 0 7
  if len.toNat ≤ Config.digestMax then { s with dlen := len } else s

/-- What a 32-bit write of v does (20_memory.md R101–R107, R110). -/
def writeReg (v : Word) (reg : MmioReg) (s : State) : State :=
  match reg with
  | .ctrl => writeCtrl v s
  | .status => writeStatus v s
  | .cmd => writeCmd v s
  | .dlen => guardBusy s (writeDlen v s)
  | .dg j => guardBusy s { s with dg := setDgWord s.dg j v }
  | .r i j => guardBusy s { s with r := s.r.set i (setWordOf s.r[i] j v) }
  | .id | .drbgctr | .cmdlog | .px _ _ | .py _ _ | .pz _ _ | .reserved => s

/-- A well-formed access is 32 bits wide at a multiple of 4 (20_memory.md R103). -/
def accessOk (off bytes : Nat) : Bool := bytes == 4 && off % 4 == 0

/-- A read at an offset: data, or the bus error response (20_memory.md R103). -/
def busRead (off bytes : Nat) (s : State) : State :=
  if accessOk off bytes then { s with lastResponse := some (.data (readReg s (mmioReg off))) }
  else { s with lastResponse := some .busError }

/-- A write at an offset: its effect, or the bus error response and no effect
(20_memory.md R103). -/
def busWrite (off bytes : Nat) (v : Word) (s : State) : State :=
  if accessOk off bytes then { writeReg v (mmioReg off) s with lastResponse := some .written }
  else { s with lastResponse := some .busError }

/-- The offset of a platform address in the window at `base`, if it is there
(20_memory.md R100). -/
def windowOffset (base addr : Nat) : Option Nat :=
  if base ≤ addr ∧ addr < base + 0x1000 then some (addr - base) else none

/-- One event of the host or the platform, the window being at `base`. -/
def serveEvent (base : Nat) (e : HostEvent) (s : State) : Answer :=
  match e with
  | .read addr bytes =>
    match windowOffset base addr with
    | some off => .next (busRead off bytes s)
    | none => .fault .outsideWindow
  | .write addr bytes v =>
    match windowOffset base addr with
    | some off => .next (busWrite off bytes v s)
    | none => .fault .outsideWindow
  | .hardReset => .next { resetBlock s with lastResponse := none }
  | .idle => .next s

/-- The next event of the queue, if there is one; with none the block changes nothing
(60_exceptions.md R471). -/
def serveHost (s : State) : Answer :=
  match s.hostQueue with
  | [] => .next s
  | e :: rest => serveEvent Config.zsecpBase e { s with hostQueue := rest }

end Sys2Proof.Machine
end

