-- ==== Sys2Proof/Machine/Step.lean ====
section
/-! DEFINITION. One step of the block: the completion of the command in flight once its latency has
run out (10_state.md R40, R60), otherwise one unit of time in which at most one access of the host
is served (20_memory.md R112). -/

namespace Sys2Proof.Machine

/-- Completion: the word in flight is decoded and its command runs (10_state.md R60); a word that
fails decode completes as ILLEGAL (60_exceptions.md R452). -/
def completeInFlight (s : State) : Answer :=
  match decode (fetchWord s) with
  | .ok i => exec i s
  | .error _ => completeIllegal s

/-- One step (assumption log 1, 2). -/
def step (s : State) : Host.Outcome State Fault Refusal :=
  match s.inFlight with
  | some 0 => completeInFlight s
  | some (delay + 1) => serveHost { s with inFlight := some delay }
  | none => serveHost s

/-- The state in which the word w has just been accepted and its latency has run out, so that the
very next step runs it (assumption log 12). -/
def State.withFetchWord (s : State) (nbits w : Nat) : State :=
  acceptWith 0 (BitVec.ofNat 32 (w % 2 ^ nbits)) s

end Sys2Proof.Machine
end

