-- ==== Sys2Proof/Machine/Assembler.lean ====
section
/-! DEFINITION. The notation of 30_encoding.md R152–R154: assembly text, pseudo-instructions, and
host programs as events of the host's queue. No step of the machine uses it. -/

namespace Sys2Proof.Machine

/-- The pseudo-instructions (30_encoding.md R153). -/
inductive Pseudo where
  | pclr (pd : PIdx)
  | pgen (pd : PIdx)
  | fadd (rd ra rb : RIdx)
  | fsub (rd ra rb : RIdx)
  | fmul (rd ra rb : RIdx)
  | finv (rd ra : RIdx)
  | fred (rd ra : RIdx)
  | sadd (rd ra rb : RIdx)
  | smul (rd ra rb : RIdx)
  | sinv (rd ra : RIdx)
  | sred (rd ra : RIdx)
  | fsqr (rd ra : RIdx)
  deriving DecidableEq, Repr

/-- The expansion of each pseudo-instruction, one command (30_encoding.md R153). -/
def Pseudo.expand : Pseudo → Instr
  | .pclr pd => .pmov pd 0
  | .pgen pd => .pmov pd 1
  | .fadd rd ra rb => .modadd rd ra rb .p
  | .fsub rd ra rb => .modsub rd ra rb .p
  | .fmul rd ra rb => .modmul rd ra rb .p
  | .finv rd ra => .modinv rd ra .p
  | .fred rd ra => .mod rd ra .p
  | .sadd rd ra rb => .modadd rd ra rb .n
  | .smul rd ra rb => .modmul rd ra rb .n
  | .sinv rd ra => .modinv rd ra .n
  | .sred rd ra => .mod rd ra .n
  | .fsqr rd ra => .modmul rd ra ra .p

/-- `rN` and `pN` (30_encoding.md R152). -/
def rName (i : RIdx) : String := "r" ++ toString i.val
def pName (i : PIdx) : String := "p" ++ toString i.val

/-- The modulus operand (30_encoding.md R152). -/
def modName : ModSel → String
  | .p => "#P"
  | .n => "#N"
  | .reg d => rName d

/-- A line of assembly: the mnemonic and its operands separated by commas. -/
def asmLine (mnemonic : String) (operands : List String) : String :=
  if operands.isEmpty then mnemonic else mnemonic ++ " " ++ ", ".intercalate operands

/-- The assembly text of a command, its operands in the order of 30_encoding.md R152. -/
def asm : Instr → String
  | .mod rd ra m => asmLine "mod" [rName rd, rName ra, modName m]
  | .modadd rd ra rb m => asmLine "modadd" [rName rd, rName ra, rName rb, modName m]
  | .modsub rd ra rb m => asmLine "modsub" [rName rd, rName ra, rName rb, modName m]
  | .modmul rd ra rb m => asmLine "modmul" [rName rd, rName ra, rName rb, modName m]
  | .modinv rd ra m => asmLine "modinv" [rName rd, rName ra, modName m]
  | .modsqrt rd ra => asmLine "modsqrt" [rName rd, rName ra]
  | .padd pd pa pb => asmLine "padd" [pName pd, pName pa, pName pb]
  | .pdbl pd pa => asmLine "pdbl" [pName pd, pName pa]
  | .pneg pd pa => asmLine "pneg" [pName pd, pName pa]
  | .peq pa pb => asmLine "peq" [pName pa, pName pb]
  | .pmov pd pa => asmLine "pmov" [pName pd, pName pa]
  | .toaff rx pa ry => asmLine "toaff" [rName rx, rName ry, pName pa]
  | .fromaff pd rx ry => asmLine "fromaff" [pName pd, rName rx, rName ry]
  | .fromx pd rx odd => asmLine (if odd then "fromx.odd" else "fromx.even") [pName pd, rName rx]
  | .mul pd pb rk safe => asmLine (if safe then "mul.s" else "mul.f") [pName pd, pName pb, rName rk]
  | .mulg pd rk => asmLine "mulg" [pName pd, rName rk]
  | .muladd pd ru1 ru2 pq => asmLine "muladd" [pName pd, rName ru1, rName ru2, pName pq]
  | .naf rpos rk rneg => asmLine "naf" [rName rpos, rName rneg, rName rk]
  | .precomp => asmLine "precomp" []
  | .drbgrst => asmLine "drbgrst" []
  | .drbgseed => asmLine "drbgseed" []
  | .drbggen rd => asmLine "drbggen" [rName rd]
  | .sign rr rkey rs rrec low =>
    asmLine (if low then "sign.lows" else "sign") [rName rr, rName rs, rName rrec, rName rkey]
  | .verify rr rs pq low =>
    asmLine (if low then "verify.lows" else "verify") [rName rr, rName rs, pName pq]
  | .recover pd rr rs rrec => asmLine "recover" [pName pd, rName rr, rName rs, rName rrec]

/-- `w OFF, V` (30_encoding.md R154). -/
def hostW (off : Nat) (v : Word) : HostEvent := .write (Config.zsecpBase + off) 4 v

/-- `r OFF` (30_encoding.md R154). -/
def hostR (off : Nat) : HostEvent := .read (Config.zsecpBase + off) 4

/-- `ldr rI, V`: the sixteen writes of R[I]'s words (30_encoding.md R154). -/
def hostLdr (i : RIdx) (v : Int) : List HostEvent :=
  (List.range 16).map fun j => hostW (0x400 + 64 * i.val + 4 * j) (wordOf (BitVec.ofInt 512 v) j)

/-- `lddg b0 b1 …`: the words of DG the bytes fill, then DLEN (30_encoding.md R154). The bytes of the
last word beyond the string are written 0 (assumption log 13). -/
def hostLddg (bs : Bytes) : List HostEvent :=
  (List.range ((bs.length + 3) / 4)).map (fun j =>
    hostW (0x100 + 4 * j)
      (bs.getD (4 * j + 3) 0 ++ bs.getD (4 * j + 2) 0 ++ bs.getD (4 * j + 1) 0 ++ bs.getD (4 * j) 0))
  ++ [hostW 0x010 (BitVec.ofNat 32 bs.length)]

/-- `cmd <assembly>` (30_encoding.md R154). -/
def hostCmd (i : Instr) : HostEvent := hostW 0x00C (encode i)

/-- `rdr rI`: the sixteen reads of R[I]'s words (30_encoding.md R154). -/
def hostRdr (i : RIdx) : List HostEvent :=
  (List.range 16).map fun j => hostR (0x400 + 64 * i.val + 4 * j)

/-- The integer `rdr` forms from the sixteen words read, `sext_512` (30_encoding.md R154). -/
def rdrValue (words : List Word) : Int :=
  (BitVec.ofNat 512 (words.foldr (fun w acc => acc * 2 ^ 32 + w.toNat) 0)).toInt

/-- `rdp pI`: the twenty-four reads of P[I]'s coordinate words (30_encoding.md R154). -/
def hostRdp (i : PIdx) : List HostEvent :=
  (List.range 24).map fun j => hostR (0x800 + 128 * i.val + 32 * (j / 8) + 4 * (j % 8))

end Sys2Proof.Machine
end

