-- ==== Sys2Proof/Safety.lean ====
section
/-! DEFINITION. What a good state of the block is, and the terms the statements are made in: what a
completion changes and leaves alone, points of the curve and their multiples, the candidates of
SIGN's driver and the signature a candidate gives. -/

namespace Sys2Proof

/-- The coordinates are in [0, P) (10_state.md R47). -/
def Point.canonical (p : Point) : Prop :=
  p.X < Config.P ∧ p.Y < Config.P ∧ p.Z < Config.P

/-- The point satisfies y² = x³ + 7 in homogeneous form, or is a triple with the same property
(41_point.md R251). -/
def Point.onCurve (p : Point) : Prop :=
  (p.Y ^ 2 * p.Z - (p.X ^ 3 + Config.b * p.Z ^ 3)) % Config.P = 0

/-- A curve point or the identity: on the curve, and not the degenerate (0, 0, 0) that equals
everything (41_point.md R251, R256). -/
def Point.isCurvePoint (p : Point) : Prop :=
  p.canonical ∧ p.onCurve ∧ ¬(p.X = 0 ∧ p.Y = 0 ∧ p.Z = 0)

end Sys2Proof

namespace Sys2Proof.Machine

/-- The promises of 10_state.md and 60_exceptions.md about every state. -/
structure State.Inv (s : State) : Prop where
  /-- every coordinate of every point register is in [0, P) (10_state.md R47) -/
  points : ∀ i : PIdx, (readP s i).canonical
  /-- DLEN is in 0..64 (10_state.md R50) -/
  dlen : s.dlen.toNat ≤ Config.digestMax
  /-- CTR is in 0..1001, and 1001 only in the fatal state (10_state.md R58, 43_drbg.md R354) -/
  ctr : s.drbg.ctr ≤ Config.drbgLimit + 1
  ctrLive : s.fatal = false → s.drbg.ctr ≤ Config.drbgLimit
  /-- TBL has 4224 entries, fixed by `build_table()` once valid (10_state.md R59) -/
  tblSize : s.tbl.length = Config.tableSize
  tblBuilt : s.tableValid = true → s.tbl = buildTable
  /-- while a command is in flight, DONE, ERR, CAUSE and FATAL are clear (10_state.md R55) -/
  busyClear : s.busy = true →
    s.done = false ∧ s.err = false ∧ s.cause = .none ∧ s.fatal = false
  /-- ERR and CAUSE agree (10_state.md R53, R54) -/
  errCause : s.err = true ↔ s.cause ≠ .none
  /-- FATAL and the fatal causes agree (10_state.md R66) -/
  fatalCause : s.fatal = true ↔ s.cause.isFatal = true
  /-- RESULT is 0 after an error completion (10_state.md R63) -/
  resultOk : s.result = true → s.err = false

/-! ### Completions -/

/-- What no completion changes: DG, DLEN, IRQEN, OVR and CMDLOG (60_exceptions.md R454, R455, R458),
and the model's two host fields. -/
structure Quiet (s t : State) : Prop where
  dg : t.dg = s.dg
  dlen : t.dlen = s.dlen
  irqen : t.irqen = s.irqen
  ovr : t.ovr = s.ovr
  cmdlog : t.cmdlog = s.cmdlog
  hostQueue : t.hostQueue = s.hostQueue
  lastResponse : t.lastResponse = s.lastResponse

/-- The integer registers outside `dests` are unchanged. -/
def IntsKept (dests : List RIdx) (s t : State) : Prop := ∀ i, i ∉ dests → readR t i = readR s i

/-- The point registers outside `dests` are unchanged. -/
def PointsKept (dests : List PIdx) (s t : State) : Prop := ∀ i, i ∉ dests → readP t i = readP s i

/-- The DRBG is unchanged. -/
def DrbgKept (s t : State) : Prop := t.drbg = s.drbg

/-- The precomputed table and TABLE_VALID are unchanged. -/
def TableKept (s t : State) : Prop := t.tableValid = s.tableValid ∧ t.tbl = s.tbl

/-- The precomputed table is built, and was kept if it already was (42_scalar.md R303). -/
def TableBuilt (s t : State) : Prop :=
  t.tableValid = true ∧ (s.tableValid = true → t.tbl = s.tbl) ∧
    (s.tableValid = false → t.tbl = buildTable)

/-- A successful completion with the given RESULT (60_exceptions.md R454) that writes no register
outside the two lists. What it does to the DRBG and the table is said apart. -/
structure Succeeded (result : Bool) (ints : List RIdx) (points : List PIdx) (s t : State) :
    Prop where
  done : t.done = true
  err : t.err = false
  cause : t.cause = .none
  result : t.result = result
  notBusy : t.inFlight = none
  fatal : t.fatal = s.fatal
  intsKept : IntsKept ints s t
  pointsKept : PointsKept points s t
  quiet : Quiet s t

/-- A completion with a recoverable error: STATUS apart, the state is as at acceptance
(60_exceptions.md R455). -/
structure Errored (c : Cause) (s t : State) : Prop where
  done : t.done = true
  err : t.err = true
  cause : t.cause = c
  result : t.result = false
  notBusy : t.inFlight = none
  fatal : t.fatal = s.fatal
  intsKept : IntsKept [] s t
  pointsKept : PointsKept [] s t
  drbgKept : DrbgKept s t
  tableKept : TableKept s t
  quiet : Quiet s t

/-- A completion with a fatal error: no register is written (60_exceptions.md R458). What it leaves
in the DRBG and the table is said apart. -/
structure Died (c : Cause) (s t : State) : Prop where
  done : t.done = true
  err : t.err = true
  cause : t.cause = c
  result : t.result = false
  notBusy : t.inFlight = none
  fatal : t.fatal = true
  intsKept : IntsKept [] s t
  pointsKept : PointsKept [] s t
  quiet : Quiet s t

/-! ### The curve's group -/

/-- The k-fold sum of a point by repeated ADD, the plain meaning of k·p. -/
def multiple (p : Point) : Nat → Point
  | 0 => Config.zero
  | k + 1 => pointAdd (multiple p k) p

/-! ### SIGN's driver -/

/-- The DRBG after a successful generate call (43_drbg.md R354). -/
def afterGenerate (g : Drbg) : Drbg := ⟨hmac g.k g.v.toList, g.k, g.ctr + 1⟩

/-- The DRBG before the driver's generate call number j, counted from 0: reset and reseeded with the
seed, then for each rejection one generate and one empty reseed (43_drbg.md R355). -/
def driverState (seed : Bytes) : Nat → Drbg
  | 0 => drbgReseed .reset seed
  | j + 1 => drbgReseed (afterGenerate (driverState seed j)) []

/-- The driver's candidate number j as an integer (43_drbg.md R355, 20_memory.md R108). -/
def driverCandidate (seed : Bytes) (j : Nat) : Int :=
  beInt (afterGenerate (driverState seed j)).v.toList

/-- The signature the candidate k gives for the key d and the digest integer h, if it gives one:
44_ecdsa.md R383, steps 2a–2h, by the equation k·s ≡ h + d·r (mod n) and the generic multiply. -/
structure SignatureOf (d h : Int) (lowS : Bool) (k : Int) (sig : Signature) : Prop where
  usable : 1 ≤ k ∧ k ≤ Config.n - 1
  parts : ∃ x y s0 : Int, toAffine (generic Config.base k false) = .ok (x, y) ∧
    sig.r = x % Config.n ∧ sig.r ≠ 0 ∧
    0 < s0 ∧ s0 < Config.n ∧ (k * s0) % Config.n = (h + d * sig.r) % Config.n ∧
    if lowS = true ∧ s0 > Config.halfN then
      sig.s = Config.n - s0 ∧ sig.recid = (if x ≠ sig.r then 2 else 0) + (1 - y % 2)
    else sig.s = s0 ∧ sig.recid = (if x ≠ sig.r then 2 else 0) + y % 2

/-! ### The host's queue -/

/-- An access inside the window that is no reset: every event but a hard reset, an access outside
the window and a well-formed write to CTRL with bit 1 set. -/
def harmless : HostEvent → Bool
  | .read addr _ => decide (Config.zsecpBase ≤ addr) && decide (addr < Config.zsecpBase + 0x1000)
  | .write addr bytes v =>
    decide (Config.zsecpBase ≤ addr) && decide (addr < Config.zsecpBase + 0x1000) &&
      !(accessOk (addr - Config.zsecpBase) bytes && decide (addr = Config.zsecpBase + 4) &&
        v.getLsbD 1)
  | .hardReset => false
  | .idle => true

/-- The delay left after a step in which the command in flight, if any, does not complete. -/
def tick (d : Option Nat) : Option Nat := d.map (· - 1)

end Sys2Proof.Machine
end

