-- ==== Sys2Proof/Certificates/Slice0/Obligations.lean ====
section
/-! DEFINITION. The statements for the provers, in the terms of Safety.lean. Each docstring names the
rules of the spec it formalises. -/

open Sys2Proof Sys2Proof.Machine

/-! ### The machine -/

/-- 10_state.md R65: the value of every piece of state after reset. The contents of TBL are not
stated: the rule leaves them unspecified. -/
def Obligations.ResetValues : Prop :=
  (∀ i, readR State.reset i = 0) ∧
  readP State.reset 0 = ⟨0, 1, 0⟩ ∧ readP State.reset 1 = ⟨Config.gx, Config.gy, 1⟩ ∧
  (∀ i : PIdx, 2 ≤ i.val → readP State.reset i = ⟨0, 1, 0⟩) ∧
  State.reset.dg = Vector.replicate 64 0x00 ∧ State.reset.dlen.toNat = 32 ∧
  State.reset.irqen = false ∧ statusWord State.reset = 0 ∧ State.reset.cmdlog = 0 ∧
  readReg State.reset .id = 0x5A530007 ∧
  State.reset.drbg.v = Vector.replicate 32 0x01 ∧ State.reset.drbg.k = Vector.replicate 32 0x00 ∧
  State.reset.drbg.ctr = 0 ∧ State.reset.tableValid = false ∧ State.reset.inFlight = none ∧
  State.reset.irq = false

/-- 10_state.md R60, R40: the step at the end of the delay is the completion of the word in flight.
A word that decodes to a command runs it; while delay is left, the step only passes one unit of it
and serves the host (the unit is the model's choice, assumption log 2). -/
def Obligations.StepRunsTheDecodedCommand : Prop :=
  (∀ (s : State) (i : Instr), s.inFlight = some 0 → decode s.cmdlog = .ok i →
    step s = exec i s) ∧
  (∀ (s : State) (nbits w : Nat) (i : Instr), decode (BitVec.ofNat 32 (w % 2 ^ nbits)) = .ok i →
    step (s.withFetchWord nbits w) = exec i (s.withFetchWord nbits w)) ∧
  (∀ (s : State) (d : Nat), s.inFlight = some (d + 1) →
    step s = serveHost { s with inFlight := some d }) ∧
  (∀ s : State, s.inFlight = none → step s = serveHost s)

/-- 60_exceptions.md R452: a word that fails decode completes as a recoverable error with
CAUSE = 0x01 and writes nothing else. -/
def Obligations.IllegalWordCompletes : Prop :=
  ∀ (s : State) (e : DecodeReject), s.inFlight = some 0 → decode s.cmdlog = .error e →
    ∃ t, step s = .next t ∧ Errored .illegal s t ∧ (statusWord t).extractLsb' 8 8 = 0x01

/-- 20_memory.md R100, 60_exceptions.md R450: every step answers a next state but one that serves an
access outside the window; no command and no word in flight stops the machine. That such an access
stops the machine is the model's choice, assumption log 3: the rules give the block no behaviour
there. -/
def Obligations.OnlyAnOutsideAccessStops : Prop :=
  ∀ s : State, (∃ t, step s = .next t) ∨
    (step s = .fault .outsideWindow ∧ s.inFlight ≠ some 0 ∧
      ∃ addr bytes rest, (s.hostQueue = .read addr bytes :: rest ∨
          ∃ v, s.hostQueue = .write addr bytes v :: rest) ∧
        ¬(Config.zsecpBase ≤ addr ∧ addr < Config.zsecpBase + 0x1000))

/-- The invariant holds after reset. -/
def Obligations.InvReset : Prop := State.reset.Inv

/-- Every step keeps the invariant: coordinates in [0, P) (10_state.md R47), DLEN in 0..64 (R50),
CTR in 0..1001 (R58), the table fixed once built (R59), ERR, CAUSE and FATAL in agreement (R53, R66),
STATUS clear while a command is in flight (R55), RESULT 0 after an error (R63). -/
def Obligations.StepKeepsInv : Prop :=
  ∀ s t : State, s.Inv → step s = .next t → t.Inv

/-! ### Encoding -/

/-- Words written out from 30_encoding.md R141, R142: a sanity check of a few. -/
def Obligations.SampleWordsDecode : Prop :=
  decode 0x01021313 = .ok (.modmul 3 1 2 .n) ∧
  decode 0x02700210 = .ok (.mod 2 0 (.reg 7)) ∧
  decode 0x00011220 = .ok (.padd 2 1 1) ∧
  decode 0x00021025 = .ok (.toaff 0 1 2) ∧
  decode 0x04000227 = .ok (.fromx 2 0 true) ∧
  decode 0x04002330 = .ok (.mul 3 2 0 true) ∧
  decode 0x00110232 = .ok (.muladd 2 0 1 1) ∧
  decode 0x00000542 = .ok (.drbggen 5) ∧
  decode 0x04431250 = .ok (.sign 2 1 3 4 true) ∧
  decode 0x00432252 = .ok (.recover 2 2 3 4)

/-- Every command with its operands at any value survives the encoding (30_encoding.md R141–R144,
R152). -/
def Obligations.DecodeEncode : Prop :=
  ∀ i : Instr, i.wellFormed = true → decode (encode i) = .ok i

/-- Every word that decodes is the encoding of its command, and the command meets the constraint on
destinations: no two words are one command and no word is both legal and malformed
(30_encoding.md R149). -/
def Obligations.EncodeDecode : Prop :=
  ∀ (w : Word) (i : Instr), decode w = .ok i → encode i = w ∧ i.wellFormed = true

/-- 30_encoding.md R143, R145–R148: the words that are ILLEGAL, test by test: a reserved bit, an
opcode outside the map, a nonzero field the opcode does not use (A, B, C, D, M and F in turn), the
modulus select 3, and the destination P0 or P1. -/
def Obligations.IllegalWords : Prop :=
  ∀ w : Word,
    let op := (w.extractLsb' 0 8).toNat
    let pointDest := op ∈ [0x20, 0x21, 0x22, 0x24, 0x26, 0x27, 0x30, 0x31, 0x32, 0x52]
    let modFamily := 0x10 ≤ op ∧ op ≤ 0x14
    (w.extractLsb' 27 5 ≠ 0 → ∃ e, decode w = .error e) ∧
    (¬((0x10 ≤ op ∧ op ≤ 0x15) ∨ (0x20 ≤ op ∧ op ≤ 0x27) ∨ (0x30 ≤ op ∧ op ≤ 0x34) ∨
        (0x40 ≤ op ∧ op ≤ 0x42) ∨ (0x50 ≤ op ∧ op ≤ 0x52)) → ∃ e, decode w = .error e) ∧
    (¬modFamily → w.extractLsb' 24 2 ≠ 0 → ∃ e, decode w = .error e) ∧
    (modFamily → w.extractLsb' 24 2 = 3 → ∃ e, decode w = .error e) ∧
    (modFamily → w.extractLsb' 24 2 ≠ 2 → w.extractLsb' 20 4 ≠ 0 → ∃ e, decode w = .error e) ∧
    (op ∉ [0x27, 0x30, 0x50, 0x51] → w.extractLsb' 26 1 ≠ 0 → ∃ e, decode w = .error e) ∧
    (op ∈ [0x23, 0x34, 0x40, 0x41, 0x51] → w.extractLsb' 8 4 ≠ 0 → ∃ e, decode w = .error e) ∧
    (op ∈ [0x31, 0x34, 0x40, 0x41, 0x42] → w.extractLsb' 12 4 ≠ 0 → ∃ e, decode w = .error e) ∧
    (op ∈ [0x10, 0x14, 0x15, 0x21, 0x22, 0x24, 0x27, 0x34, 0x40, 0x41, 0x42] →
      w.extractLsb' 16 4 ≠ 0 → ∃ e, decode w = .error e) ∧
    (¬modFamily → op ∉ [0x32, 0x50, 0x51, 0x52] → w.extractLsb' 20 4 ≠ 0 →
      ∃ e, decode w = .error e) ∧
    (pointDest → (w.extractLsb' 8 4).toNat < 2 → ∃ e, decode w = .error e)

/-! ### What every command does and does not do -/

/-- 60_exceptions.md R455, R461: a completion with a recoverable error, of a command or of a word that
is none, writes STATUS and nothing else: FATAL is 0 as before, CMDLOG holds the failing word, and the
next command can be accepted at once. -/
def Obligations.RecoverableErrorWritesNothing : Prop :=
  (∀ (i : Instr) (s t : State), exec i s = .next t → t.err = true → t.cause.isFatal = false →
    Errored t.cause s t) ∧
  ∀ s t : State, s.Inv → s.inFlight = some 0 → step s = .next t → t.err = true →
    t.cause.isFatal = false →
    Errored t.cause s t ∧ t.fatal = false ∧ t.cmdlog = s.cmdlog ∧
      ∀ c : Word, ∃ u, step { t with
          hostQueue := .write (Config.zsecpBase + 0x00C) 4 c :: t.hostQueue } = .next u ∧
        u.cmdlog = c ∧ u.busy = true

/-- 60_exceptions.md R458: a fatal completion writes no register; exhaustion leaves CTR = 1001 and,
for DRBGGEN, V and K as before. -/
def Obligations.FatalErrorWritesNoRegister : Prop :=
  ∀ (i : Instr) (s t : State), s.Inv → s.fatal = false → exec i s = .next t →
    t.cause.isFatal = true →
    t.cause = .fatalDrbg ∧ Died .fatalDrbg s t ∧ t.drbg.ctr = 1001 ∧
      (TableKept s t ∨ TableBuilt s t) ∧
      (∀ rd, i = .drbggen rd → t.drbg.v = s.drbg.v ∧ t.drbg.k = s.drbg.k ∧ TableKept s t)

/-- 60_exceptions.md R450, R451, R454, 10_state.md R63: every command completes, with DONE set and
BUSY clear; ERR and CAUSE agree; RESULT is 0 for every command but PEQ and VERIFY and for every
error; the registers of control keep their values. -/
def Obligations.EveryCommandCompletes : Prop :=
  ∀ (i : Instr) (s : State), ∃ t, exec i s = .next t ∧
    t.done = true ∧ t.busy = false ∧ (t.err = true ↔ t.cause ≠ .none) ∧
    (t.fatal = (s.fatal || t.cause.isFatal)) ∧ Quiet s t ∧
    (t.result = true → t.err = false ∧
      ((∃ pa pb, i = .peq pa pb) ∨ ∃ rr rs pq low, i = .verify rr rs pq low))

/-- 10_state.md R44: every value a command writes to an integer register is in [0, 2^257). -/
def Obligations.IntegerResultsInRange : Prop :=
  ∀ (i : Instr) (s t : State), exec i s = .next t →
    ∀ j, readR t j = readR s j ∨ (0 ≤ readR t j ∧ readR t j < 2 ^ 257)

/-- 10_state.md R46, R48: P0 and P1 read as the constants in every state, and a point register changes
only at the successful completion of a command that names it as destination. (A term whose
destination is P0 or P1 never decodes; that it changes nothing is the model's choice, assumption
log 11.) -/
def Obligations.PointsChangeOnlyAsDestination : Prop :=
  (∀ s : State, readP s 0 = ⟨0, 1, 0⟩ ∧ readP s 1 = ⟨Config.gx, Config.gy, 1⟩) ∧
  ∀ (i : Instr) (s t : State) (j : PIdx), exec i s = .next t → readP t j ≠ readP s j →
    t.err = false ∧ i.pointDest = some j ∧ 2 ≤ j.val

/-- 10_state.md R58, R59, 42_scalar.md R303: the DRBG is changed only by DRBGRST, DRBGSEED, DRBGGEN
and SIGN; the table is built only by PRECOMP, MULG, MUL on a base equal to G and SIGN, and never
changed once valid. -/
def Obligations.HiddenStateChangesOnlyBy : Prop :=
  ∀ (i : Instr) (s t : State), exec i s = .next t →
    (t.drbg = s.drbg ∨ i = .drbgrst ∨ i = .drbgseed ∨ (∃ rd, i = .drbggen rd) ∨
      ∃ rr rkey rs rrec low, i = .sign rr rkey rs rrec low) ∧
    (TableKept s t ∨ (s.tableValid = false ∧ TableBuilt s t ∧
      (i = .precomp ∨ (∃ pd rk, i = .mulg pd rk) ∨
        (∃ pd pb rk f, i = .mul pd pb rk f ∧ pointEq (readP s pb) Config.base = true) ∨
        ∃ rr rkey rs rrec low, i = .sign rr rkey rs rrec low)))

/-- 10_state.md R59: whether the table is valid changes no command's result, only STATUS.TABLE: from
two states that differ in the table alone (each built right if valid), a command leaves states that
differ in the table alone. -/
def Obligations.TableChangesNoResult : Prop :=
  ∀ (i : Instr) (s t : State) (tbl : List Point) (valid : Bool),
    (s.tableValid = true → s.tbl = buildTable) → (valid = true → tbl = buildTable) →
    exec i s = .next t →
    ∃ tbl' valid', exec i { s with tbl := tbl, tableValid := valid } =
      .next { t with tbl := tbl', tableValid := valid' }

/-! ### The field family -/

/-- 40_field.md R200, R202, R210–R213: MOD, MODADD, MODSUB and MODMUL write the Euclidean remainder
of the exact operand, sum, difference or product, for every valid modulus and every operand; they
write nothing else. -/
def Obligations.ReductionResults : Prop :=
  ∀ (s : State) (rd ra rb : RIdx) (m : ModSel),
    1 ≤ modulusValue s m → modulusValue s m < 2 ^ 256 →
    let Writes := fun (i : Instr) (exact : Int) =>
      ∃ t, exec i s = .next t ∧ Succeeded false [rd] [] s t ∧ DrbgKept s t ∧ TableKept s t ∧
        0 ≤ readR t rd ∧ readR t rd < modulusValue s m ∧
        modulusValue s m ∣ exact - readR t rd
    Writes (.mod rd ra m) (readR s ra) ∧
    Writes (.modadd rd ra rb m) (readR s ra + readR s rb) ∧
    Writes (.modsub rd ra rb m) (readR s ra - readR s rb) ∧
    Writes (.modmul rd ra rb m) (readR s ra * readR s rb)

/-- 40_field.md R201: the modulus is P, n or R[D]; when R[D] is not in [1, 2^256) the command raises
DOMAIN before any other check. -/
def Obligations.InvalidModulusIsDomain : Prop :=
  (∀ s : State, modulusValue s .p = Config.P ∧ modulusValue s .n = Config.n ∧
    1 ≤ Config.n ∧ Config.n < Config.P ∧ Config.P < 2 ^ 256 ∧
    ∀ d, modulusValue s (.reg d) = readR s d) ∧
  ∀ (s : State) (rd ra rb d : RIdx), ¬(1 ≤ readR s d ∧ readR s d < 2 ^ 256) →
    ∀ i ∈ [Instr.mod rd ra (.reg d), .modadd rd ra rb (.reg d), .modsub rd ra rb (.reg d),
      .modmul rd ra rb (.reg d), .modinv rd ra (.reg d)],
    ∃ t, exec i s = .next t ∧ Errored .domain s t

/-- 40_field.md R215, R217: MODINV's checks in their order (the modulus, the zero, the common factor),
and the unique inverse when they pass. -/
def Obligations.ModinvResult : Prop :=
  ∀ (s : State) (rd ra : RIdx) (m : ModSel),
    (¬(1 ≤ modulusValue s m ∧ modulusValue s m < 2 ^ 256) →
      ∃ t, exec (.modinv rd ra m) s = .next t ∧ Errored .domain s t) ∧
    (1 ≤ modulusValue s m → modulusValue s m < 2 ^ 256 →
    (modulusValue s m ∣ readR s ra →
      ∃ t, exec (.modinv rd ra m) s = .next t ∧ Errored .domain s t) ∧
    (¬ modulusValue s m ∣ readR s ra → Int.gcd (readR s ra) (modulusValue s m) ≠ 1 →
      ∃ t, exec (.modinv rd ra m) s = .next t ∧ Errored .noInverse s t) ∧
    (¬ modulusValue s m ∣ readR s ra → Int.gcd (readR s ra) (modulusValue s m) = 1 →
      ∃ t, exec (.modinv rd ra m) s = .next t ∧ Succeeded false [rd] [] s t ∧
        DrbgKept s t ∧ TableKept s t ∧
        1 ≤ readR t rd ∧ readR t rd < modulusValue s m ∧
        (readR s ra * readR t rd) % modulusValue s m = 1 ∧
        ∀ x : Int, 1 ≤ x → x < modulusValue s m →
          (readR s ra * x) % modulusValue s m = 1 → x = readR t rd))

/-- 40_field.md R220, R221: MODSQRT writes a^((P+1)/4) mod P, a square root, exactly when a is a
square mod P, and raises NO_SQRT exactly when it is not. -/
def Obligations.ModsqrtResult : Prop :=
  (Config.P + 1) / 4 = 0x3FFFFFFFFFFFFFFFFFFFFFFFFFFFFFFFFFFFFFFFFFFFFFFFFFFFFFFFBFFFFF0C ∧
  ∀ (s : State) (rd ra : RIdx),
    ((∃ y : Int, (y * y) % Config.P = readR s ra % Config.P) →
      ∃ t, exec (.modsqrt rd ra) s = .next t ∧ Succeeded false [rd] [] s t ∧
        DrbgKept s t ∧ TableKept s t ∧ 0 ≤ readR t rd ∧ readR t rd < Config.P ∧
        (readR t rd * readR t rd) % Config.P = readR s ra % Config.P ∧
        readR t rd = (readR s ra % Config.P) ^ ((Config.P.toNat + 1) / 4) % Config.P) ∧
    ((¬∃ y : Int, (y * y) % Config.P = readR s ra % Config.P) →
      ∃ t, exec (.modsqrt rd ra) s = .next t ∧ Errored .noSqrt s t)

/-! ### The point family -/

/-- 41_point.md R252–R254: PADD and PDBL write the complete addition, here in the closed form of its
forty steps with a = 0 and b3 = 21, for all triples; PDBL gives the same triple as PADD with both
sources the same. (The representative is the one the spec marks as its own choice, assumption log 7.) -/
def Obligations.PaddPdblResult : Prop :=
  ∀ (s : State) (pd pa pb : PIdx), 2 ≤ pd.val →
    (∃ t, exec (.padd pd pa pb) s = .next t ∧ Succeeded false [] [pd] s t ∧
      DrbgKept s t ∧ TableKept s t ∧
      let X1 := (readP s pa).X; let Y1 := (readP s pa).Y; let Z1 := (readP s pa).Z
      let X2 := (readP s pb).X; let Y2 := (readP s pb).Y; let Z2 := (readP s pb).Z
      (readP t pd).X = ((X1 * Y2 + X2 * Y1) * (Y1 * Y2 - 21 * Z1 * Z2) -
        21 * (Y1 * Z2 + Y2 * Z1) * (X1 * Z2 + X2 * Z1)) % Config.P ∧
      (readP t pd).Y = ((Y1 * Y2 + 21 * Z1 * Z2) * (Y1 * Y2 - 21 * Z1 * Z2) +
        63 * X1 * X2 * (X1 * Z2 + X2 * Z1)) % Config.P ∧
      (readP t pd).Z = ((Y1 * Z2 + Y2 * Z1) * (Y1 * Y2 + 21 * Z1 * Z2) +
        3 * X1 * X2 * (X1 * Y2 + X2 * Y1)) % Config.P) ∧
    (∃ t, exec (.pdbl pd pa) s = .next t ∧ Succeeded false [] [pd] s t ∧
      DrbgKept s t ∧ TableKept s t ∧ exec (.padd pd pa pa) s = .next t)

/-- 41_point.md R267: the group laws, with equality read as R256's. -/
def Obligations.GroupLaws : Prop :=
  ∀ p q r : Point, p.isCurvePoint → q.isCurvePoint → r.isCurvePoint →
    (pointAdd p q).isCurvePoint ∧ (pointNeg p).isCurvePoint ∧
    pointEq (pointAdd p q) (pointAdd q p) = true ∧
    pointEq (pointAdd (pointAdd p q) r) (pointAdd p (pointAdd q r)) = true ∧
    pointEq (pointAdd p Config.zero) p = true ∧
    pointEq (pointAdd p (pointNeg p)) Config.zero = true ∧
    (∀ (s : State) (pd pa : PIdx), exec (.pdbl pd pa) s = exec (.padd pd pa pa) s)

/-- 41_point.md R251: if every point register holds a curve point or the identity, so does every one
after any command, but for a FROMAFF that is given coordinates off the curve. -/
def Obligations.CurvePointsStayOnTheCurve : Prop :=
  ∀ (i : Instr) (s t : State), s.Inv → (∀ j, (readP s j).isCurvePoint) →
    (∀ pd rx ry, i = .fromaff pd rx ry →
      (readR s rx = 0 ∧ readR s ry = 0) ∨
        (readR s ry ^ 2 - (readR s rx ^ 3 + 7)) % Config.P = 0) →
    exec i s = .next t → ∀ j, (readP t j).isCurvePoint

/-- 41_point.md R250, R252: in affine coordinates PADD is the chord through two curve points, the
tangent at one, and the identity for opposite points, without a special case. -/
def Obligations.PaddIsChordAndTangent : Prop :=
  ∀ (s t : State) (pd pa pb : PIdx) (x1 y1 x2 y2 : Int), 2 ≤ pd.val →
    (readP s pa).isCurvePoint → (readP s pb).isCurvePoint →
    (readP s pa).Z ≠ 0 → (readP s pb).Z ≠ 0 →
    toAffine (readP s pa) = .ok (x1, y1) → toAffine (readP s pb) = .ok (x2, y2) →
    exec (.padd pd pa pb) s = .next t →
    ∃ x3 y3, toAffine (readP t pd) = .ok (x3, y3) ∧
      (x1 ≠ x2 → (readP t pd).Z ≠ 0 ∧
        ((x3 + x1 + x2) * (x2 - x1) ^ 2 - (y2 - y1) ^ 2) % Config.P = 0 ∧
        ((y3 + y1) * (x2 - x1) - (y2 - y1) * (x1 - x3)) % Config.P = 0) ∧
      (x1 = x2 → y1 = y2 → (readP t pd).Z ≠ 0 ∧
        ((x3 + 2 * x1) * (2 * y1) ^ 2 - (3 * x1 ^ 2) ^ 2) % Config.P = 0 ∧
        ((y3 + y1) * (2 * y1) - 3 * x1 ^ 2 * (x1 - x3)) % Config.P = 0) ∧
      (x1 = x2 → y1 ≠ y2 → (readP t pd).Z = 0)

/-- 41_point.md R255, R258: PNEG writes (X, mod(−Y), Z) and PMOV the triple unchanged. -/
def Obligations.PnegPmovResult : Prop :=
  ∀ (s : State) (pd pa : PIdx), 2 ≤ pd.val →
    (∃ t, exec (.pneg pd pa) s = .next t ∧ Succeeded false [] [pd] s t ∧
      DrbgKept s t ∧ TableKept s t ∧ (readP t pd).X = (readP s pa).X ∧
      (readP t pd).Y = (-(readP s pa).Y) % Config.P ∧ (readP t pd).Z = (readP s pa).Z) ∧
    (∃ t, exec (.pmov pd pa) s = .next t ∧ Succeeded false [] [pd] s t ∧
      DrbgKept s t ∧ TableKept s t ∧ readP t pd = readP s pa)

/-- 41_point.md R256, R257: PEQ writes RESULT with the cross-multiplication test and no register;
a canonical triple equals ZERO exactly when Z = 0, two triples with Z = 0 are equal, and two with
Z ≠ 0 are equal exactly when they have the same affine point; (0, 0, 0) equals everything. -/
def Obligations.PeqResult : Prop :=
  (∀ (s : State) (pa pb : PIdx), ∃ t b, exec (.peq pa pb) s = .next t ∧ Succeeded b [] [] s t ∧
    DrbgKept s t ∧ TableKept s t ∧
    (b = true ↔
      ((readP s pa).X * (readP s pb).Z) % Config.P = ((readP s pb).X * (readP s pa).Z) % Config.P ∧
      ((readP s pa).Y * (readP s pb).Z) % Config.P =
        ((readP s pb).Y * (readP s pa).Z) % Config.P)) ∧
  (∀ p q : Point, p.canonical → q.canonical →
    (pointEq p Config.zero = true ↔ p.Z = 0) ∧
    (p.Z = 0 → q.Z = 0 → pointEq p q = true) ∧ pointEq ⟨0, 0, 0⟩ q = true ∧
    (p.Z ≠ 0 → q.Z ≠ 0 → (pointEq p q = true ↔ toAffine p = toAffine q)))

/-- 41_point.md R260–R262: TOAFF writes (0, 0) when Z = 0, and otherwise x then y, the values in
[0, P) with x·Z ≡ X and y·Z ≡ Y; it never raises an error on coordinates in [0, P). When both
destinations are one register it holds y. -/
def Obligations.ToaffResult : Prop :=
  ∀ (s : State) (rx ry : RIdx) (pa : PIdx), (readP s pa).canonical →
    ∃ t x y, exec (.toaff rx pa ry) s = .next t ∧ Succeeded false [rx, ry] [] s t ∧
      DrbgKept s t ∧ TableKept s t ∧
      readR t ry = y ∧ (rx ≠ ry → readR t rx = x) ∧
      0 ≤ x ∧ x < Config.P ∧ 0 ≤ y ∧ y < Config.P ∧
      ((readP s pa).Z = 0 → x = 0 ∧ y = 0) ∧
      ((readP s pa).Z ≠ 0 →
        (x * (readP s pa).Z) % Config.P = (readP s pa).X ∧
        (y * (readP s pa).Z) % Config.P = (readP s pa).Y) ∧
      ((readP s pa).Z = 1 → x = (readP s pa).X ∧ y = (readP s pa).Y)

/-- 41_point.md R263, R264: FROMAFF writes the identity for (0, 0) and (x, y, 1) otherwise, with no
curve test, and raises RANGE when a coordinate is outside [0, P); TOAFF gives the pair back. -/
def Obligations.FromaffResult : Prop :=
  ∀ (s : State) (pd : PIdx) (rx ry : RIdx), 2 ≤ pd.val →
    (0 ≤ readR s rx → readR s rx < Config.P → 0 ≤ readR s ry → readR s ry < Config.P →
      ∃ t, exec (.fromaff pd rx ry) s = .next t ∧ Succeeded false [] [pd] s t ∧
        DrbgKept s t ∧ TableKept s t ∧
        (readR s rx = 0 ∧ readR s ry = 0 → readP t pd = ⟨0, 1, 0⟩) ∧
        (¬(readR s rx = 0 ∧ readR s ry = 0) → (readP t pd).X = readR s rx ∧
          (readP t pd).Y = readR s ry ∧ (readP t pd).Z = 1) ∧
        toAffine (readP t pd) = .ok (readR s rx, readR s ry)) ∧
    (¬(0 ≤ readR s rx ∧ readR s rx < Config.P ∧ 0 ≤ readR s ry ∧ readR s ry < Config.P) →
      ∃ t, exec (.fromaff pd rx ry) s = .next t ∧ Errored .range s t)

/-- 41_point.md R265, R266: FROMX writes (x, y, 1) with y the square root of x³ + 7 of the asked
parity, raises RANGE when x is outside [0, P) and NO_SQRT when x is on no curve point. -/
def Obligations.FromxResult : Prop :=
  ∀ (s : State) (pd : PIdx) (rx : RIdx) (odd : Bool), 2 ≤ pd.val →
    (¬(0 ≤ readR s rx ∧ readR s rx < Config.P) →
      ∃ t, exec (.fromx pd rx odd) s = .next t ∧ Errored .range s t) ∧
    (0 ≤ readR s rx → readR s rx < Config.P →
      (¬∃ y : Int, (y * y) % Config.P = (readR s rx ^ 3 + 7) % Config.P) →
      ∃ t, exec (.fromx pd rx odd) s = .next t ∧ Errored .noSqrt s t) ∧
    (0 ≤ readR s rx → readR s rx < Config.P →
      (∃ y : Int, (y * y) % Config.P = (readR s rx ^ 3 + 7) % Config.P) →
      ∃ t, exec (.fromx pd rx odd) s = .next t ∧ Succeeded false [] [pd] s t ∧
        DrbgKept s t ∧ TableKept s t ∧
        (readP t pd).X = readR s rx ∧ (readP t pd).Z = 1 ∧ (readP t pd).Y < Config.P ∧
        ((readP t pd).Y * (readP t pd).Y) % Config.P = (readR s rx ^ 3 + 7) % Config.P ∧
        (odd = true ↔ (readP t pd).Y % 2 = 1))

/-! ### The scalar family -/

/-- 42_scalar.md R304, R306, R312, R303: MULG gives a curve point equal to the k-fold sum of G for
every k in [0, 2^256), exactly ZERO for k = 0, and leaves the table built. -/
def Obligations.MulgResult : Prop :=
  ∀ (s : State) (pd : PIdx) (rk : RIdx), 2 ≤ pd.val →
    (s.tableValid = true → s.tbl = buildTable) →
    0 ≤ readR s rk → readR s rk < 2 ^ 256 →
    ∃ t, exec (.mulg pd rk) s = .next t ∧ Succeeded false [] [pd] s t ∧ DrbgKept s t ∧
      TableBuilt s t ∧ (readP t pd).isCurvePoint ∧
      pointEq (readP t pd) (multiple Config.base (readR s rk).toNat) = true ∧
      (readR s rk = 0 → readP t pd = ⟨0, 1, 0⟩)

/-- 42_scalar.md R301, R305: MUL takes the windowed path exactly when the base equals G and the
generic path otherwise, completes for every base triple and either F, and on a curve point gives a
curve point equal to the k-fold sum of it. -/
def Obligations.MulResult : Prop :=
  ∀ (s : State) (pd pb : PIdx) (rk : RIdx) (safe : Bool), 2 ≤ pd.val →
    (s.tableValid = true → s.tbl = buildTable) →
    0 ≤ readR s rk → readR s rk < 2 ^ 256 →
    ∃ t, exec (.mul pd pb rk safe) s = .next t ∧ Succeeded false [] [pd] s t ∧ DrbgKept s t ∧
      (pointEq (readP s pb) Config.base = true → TableBuilt s t ∧
        readP t pd = wnaf buildTable (readR s rk)) ∧
      (pointEq (readP s pb) Config.base = false → TableKept s t ∧
        readP t pd = generic (readP s pb) (readR s rk) safe) ∧
      ((readP s pb).isCurvePoint → (readP t pd).isCurvePoint ∧
        pointEq (readP t pd) (multiple (readP s pb) (readR s rk).toNat) = true)

/-- 42_scalar.md R313, 10_state.md R64: the windowed and the generic multiply of G agree in affine
coordinates for k in [1, n − 1], and the balancing mode changes no result and no other state. -/
def Obligations.WindowedAgreesWithGeneric : Prop :=
  (∀ (k : Int) (safe : Bool), 1 ≤ k → k ≤ Config.n - 1 →
    ∃ x y, toAffine (wnaf buildTable k) = .ok (x, y) ∧
      toAffine (generic Config.base k safe) = .ok (x, y)) ∧
  (∀ (b : Point) (k : Int), generic b k true = generic b k false) ∧
  ∀ (s : State) (pd pb : PIdx) (rk : RIdx),
    exec (.mul pd pb rk true) s = exec (.mul pd pb rk false) s

/-- 42_scalar.md R302: the table has 4224 entries, entry 128·w + j − 1 is in the class of
j·2^(8w)·G, and each is computed by the rule's sequence. -/
def Obligations.TableContents : Prop :=
  buildTable.length = 4224 ∧ buildTable.getD 0 Config.zero = Config.base ∧
  ∀ w j : Nat, w < 33 → 1 ≤ j → j ≤ 128 →
    (buildTable.getD (128 * w + j - 1) Config.zero).isCurvePoint ∧
    pointEq (buildTable.getD (128 * w + j - 1) Config.zero)
      (multiple Config.base (j * 2 ^ (8 * w))) = true ∧
    (2 ≤ j → buildTable.getD (128 * w + j - 1) Config.zero =
      pointAdd (buildTable.getD (128 * w + j - 2) Config.zero)
        (buildTable.getD (128 * w) Config.zero)) ∧
    (w < 32 → buildTable.getD (128 * (w + 1)) Config.zero =
      pointAdd (buildTable.getD (128 * w + 127) Config.zero)
        (buildTable.getD (128 * w + 127) Config.zero))

/-- 42_scalar.md R304, R312: the windowed digits of k, least significant first, and what is left
after `count` windows: at most 1 after 32, 0 after 33, and the digits sum to k; so the windowed
multiply is in the class of k·G. -/
def Obligations.WindowDigitsAreExact : Prop :=
  ∃ digits : Nat → Nat → List Int, ∃ left : Nat → Nat → Nat,
    (∀ k, digits 0 k = [] ∧ left 0 k = k) ∧
    (∀ count k, digits (count + 1) k = (windowDigit k).1 :: digits count (windowDigit k).2 ∧
      left (count + 1) k = left count (windowDigit k).2) ∧
    ∀ k : Nat, k < 2 ^ 256 → left 32 k ≤ 1 ∧ left 33 k = 0 ∧
      pointEq (wnaf buildTable k) (multiple Config.base k) = true ∧
      (∀ d ∈ digits 33 k, -127 ≤ d ∧ d ≤ 128) ∧
      (digits 33 k).foldr (fun (d acc : Int) => d + 256 * acc) 0 = (k : Int)

/-- 42_scalar.md R311, R303: PRECOMP builds the table if it is not built, and changes nothing else;
once built it is never changed. -/
def Obligations.PrecompResult : Prop :=
  ∀ s : State, ∃ t, exec .precomp s = .next t ∧ Succeeded false [] [] s t ∧ DrbgKept s t ∧
    TableBuilt s t ∧ (statusWord t).getLsbD 4 = true

/-- 42_scalar.md R307, R308: MULADD gives u1·G + u2·Q by the generic path, for every triple Q; on a
curve point Q the result is a curve point equal to the sum of the two multiples; the table is never
built. -/
def Obligations.MuladdResult : Prop :=
  ∀ (s : State) (pd : PIdx) (ru1 ru2 : RIdx) (pq : PIdx), 2 ≤ pd.val →
    0 ≤ readR s ru1 → readR s ru1 < 2 ^ 256 → 0 ≤ readR s ru2 → readR s ru2 < 2 ^ 256 →
    ∃ t, exec (.muladd pd ru1 ru2 pq) s = .next t ∧ Succeeded false [] [pd] s t ∧
      DrbgKept s t ∧ TableKept s t ∧
      readP t pd = pointAdd (generic Config.base (readR s ru1) false)
        (generic (readP s pq) (readR s ru2) false) ∧
      ((readP s pq).isCurvePoint → (readP t pd).isCurvePoint ∧
        pointEq (readP t pd) (pointAdd (multiple Config.base (readR s ru1).toNat)
          (multiple (readP s pq) (readR s ru2).toNat)) = true)

/-- 42_scalar.md R309, R310: NAF writes the masks of the non-adjacent form, and no other masks meet
its invariants; when both destinations are one register it holds the negative mask. -/
def Obligations.NafResult : Prop :=
  ∀ (s : State) (rpos rk rneg : RIdx), 1 ≤ readR s rk → readR s rk < 2 ^ 256 →
    ∃ (t : State) (pos neg : Nat), exec (.naf rpos rk rneg) s = .next t ∧
      Succeeded false [rpos, rneg] [] s t ∧ DrbgKept s t ∧ TableKept s t ∧
      readR t rneg = neg ∧ (rpos ≠ rneg → readR t rpos = pos) ∧
      (pos : Int) - neg = readR s rk ∧ pos &&& neg = 0 ∧
      (pos ||| neg) &&& ((pos ||| neg) >>> 1) = 0 ∧
      neg < pos ∧ pos < 2 ^ 257 ∧ (pos : Int) < 2 * 2 ^ (Nat.size (readR s rk).toNat) ∧
      ∀ pos' neg' : Nat, (pos' : Int) - neg' = readR s rk → pos' &&& neg' = 0 →
        (pos' ||| neg') &&& ((pos' ||| neg') >>> 1) = 0 → pos' = pos ∧ neg' = neg

/-- 42_scalar.md R300, R310: a scalar outside [0, 2^256), or outside [1, 2^256) for NAF, raises
RANGE, and the table stays as it was. -/
def Obligations.ScalarOutOfRange : Prop :=
  ∀ (s : State) (rk ru : RIdx), ¬(0 ≤ readR s rk ∧ readR s rk < 2 ^ 256) →
    (∀ (pd pb pq : PIdx) (safe : Bool) (rpos rneg : RIdx),
      ∀ i ∈ [Instr.mul pd pb rk safe, .mulg pd rk, .muladd pd rk ru pq, .muladd pd ru rk pq,
        .naf rpos rk rneg], ∃ t, exec i s = .next t ∧ Errored .range s t) ∧
    (∀ (s : State) (rpos rneg : RIdx), readR s rk = 0 →
      ∃ t, exec (.naf rpos rk rneg) s = .next t ∧ Errored .range s t)

/-- 00_scope.md R21, R25, 42_scalar.md R300: G has order n: MULG of k and of j give equal points
exactly when k ≡ j (mod n). -/
def Obligations.BaseHasOrderN : Prop :=
  ∀ (j k : Int), 0 ≤ j → j < 2 ^ 256 → 0 ≤ k → k < 2 ^ 256 →
    (pointEq (wnaf buildTable j) (wnaf buildTable k) = true ↔ j % Config.n = k % Config.n) ∧
    ((wnaf buildTable k).Z = 0 ↔ Config.n ∣ k)

/-! ### The DRBG family -/

/-- 43_drbg.md R352, R353, R356, R357: DRBGRST restores the reset values; DRBGSEED runs two HMAC
steps for the empty seed and four otherwise, keyed by the K of the moment, and keeps CTR. -/
def Obligations.DrbgResetAndReseed : Prop :=
  ∀ s : State,
    (∃ t, exec .drbgrst s = .next t ∧ Succeeded false [] [] s t ∧ TableKept s t ∧
      t.drbg.v = Vector.replicate 32 0x01 ∧ t.drbg.k = Vector.replicate 32 0x00 ∧
      t.drbg.ctr = 0) ∧
    (∃ t, exec .drbgseed s = .next t ∧ Succeeded false [] [] s t ∧ TableKept s t ∧
      t.drbg.ctr = s.drbg.ctr ∧
      let seed := s.dg.toList.take s.dlen.toNat
      let k1 := hmac s.drbg.k (s.drbg.v.toList ++ [0x00] ++ seed)
      let v1 := hmac k1 s.drbg.v.toList
      let k2 := hmac k1 (v1.toList ++ [0x01] ++ seed)
      (s.dlen.toNat = 0 → t.drbg.k = k1 ∧ t.drbg.v = v1) ∧
      (s.dlen.toNat ≠ 0 → t.drbg.k = k2 ∧ t.drbg.v = hmac k2 v1.toList))

/-- 43_drbg.md R354, R358: a generate call with CTR below 1000 writes the new V as a big-endian
integer; one with CTR at 1000 is fatal, with CTR 1001, V and K unchanged and no register written. So
calls 1 to 1000 after a reset of the generator succeed and call 1001 fails, whatever the
destinations; and no step takes CTR past 1001. -/
def Obligations.DrbggenResult : Prop :=
  (∀ (s : State) (rd : RIdx),
    (s.drbg.ctr < 1000 → ∃ t, exec (.drbggen rd) s = .next t ∧ Succeeded false [rd] [] s t ∧
      TableKept s t ∧ t.drbg.v = hmac s.drbg.k s.drbg.v.toList ∧ t.drbg.k = s.drbg.k ∧
      t.drbg.ctr = s.drbg.ctr + 1 ∧ 0 ≤ readR t rd ∧ readR t rd < 2 ^ 256 ∧
      be32 (readR t rd) = t.drbg.v.toList) ∧
    (s.drbg.ctr = 1000 → ∃ t, exec (.drbggen rd) s = .next t ∧ Died .fatalDrbg s t ∧
      TableKept s t ∧ t.drbg.v = s.drbg.v ∧ t.drbg.k = s.drbg.k ∧ t.drbg.ctr = 1001)) ∧
  (∀ s t : State, s.Inv → step s = .next t → t.drbg.ctr ≤ 1001) ∧
  ∀ (s : State) (dest : Nat → RIdx), s.drbg.ctr = 0 →
    ∃ run : Nat → State, run 0 = s ∧
      (∀ j < 1000, exec (.drbggen (dest j)) (run j) = .next (run (j + 1)) ∧
        (run (j + 1)).err = false ∧ (run (j + 1)).drbg.ctr = j + 1) ∧
      ∃ t, exec (.drbggen (dest 1000)) (run 1000) = .next t ∧ t.cause = .fatalDrbg ∧
        t.drbg.ctr = 1001 ∧ t.fatal = true

/-! ### The signature family -/

/-- 44_ecdsa.md R380: the digest integer is the leftmost 256 bits of DG[0..DLEN−1], first byte most
significant, mod n. -/
def Obligations.DigestInteger : Prop :=
  ∀ s : State, s.dlen.toNat ≤ 64 →
    digestInt s =
      ((((List.range s.dlen.toNat).map fun i =>
        ((s.dg.toList.getD i 0).toNat : Int) * 256 ^ (s.dlen.toNat - 1 - i)).sum) /
          256 ^ (s.dlen.toNat - 32)) % Config.n

/-- 44_ecdsa.md R382, R383, 43_drbg.md R355: SIGN answers with the signature of the first candidate of
its driver that gives one, within 1000 candidates: the destinations are written r, s, recoveryId in
that order, the DRBG ends reset and the table built. Its parts are valid scalars (R381), recoveryId
is in 0..3, and with low-S s is at most HALF_N. -/
def Obligations.SignTakesFirstUsableCandidate : Prop :=
  ∀ (s : State) (rr rkey rs rrec : RIdx) (lowS : Bool) (j : Nat) (sig : Signature),
    1 ≤ readR s rkey → readR s rkey ≤ Config.n - 1 →
    (s.tableValid = true → s.tbl = buildTable) → j < 1000 →
    let h := digestInt s
    let candidate := driverCandidate (be32 (readR s rkey) ++ be32 h)
    (∀ i < j, ¬∃ sig', SignatureOf (readR s rkey) h lowS (candidate i) sig') →
    SignatureOf (readR s rkey) h lowS (candidate j) sig →
    ∃ t, exec (.sign rr rkey rs rrec lowS) s = .next t ∧
      Succeeded false [rr, rs, rrec] [] s t ∧ t.drbg = .reset ∧ TableBuilt s t ∧
      readR t rrec = sig.recid ∧ (rs ≠ rrec → readR t rs = sig.s) ∧
      (rr ≠ rs → rr ≠ rrec → readR t rr = sig.r) ∧
      1 ≤ sig.r ∧ sig.r ≤ Config.n - 1 ∧ 1 ≤ sig.s ∧ sig.s ≤ Config.n - 1 ∧
      0 ≤ sig.recid ∧ sig.recid ≤ 3 ∧ (lowS = true → sig.s ≤ Config.halfN)

/-- 44_ecdsa.md R381, R383: a private key outside [1, n − 1] raises RANGE with nothing written, not
even DRBG state. 43_drbg.md R354, R355: the driver around SIGN's predicate ends fatally when the
predicate, whatever it is, rejects the first 1000 candidates, with CTR = 1001, and V and K as after
the last empty reseed. (That the fatal completion writes no register is FatalErrorWritesNoRegister.) -/
def Obligations.SignErrors : Prop :=
  (∀ (s : State) (rr rkey rs rrec : RIdx) (lowS : Bool),
    ¬(1 ≤ readR s rkey ∧ readR s rkey ≤ Config.n - 1) →
    ∃ t, exec (.sign rr rkey rs rrec lowS) s = .next t ∧ Errored .range s t) ∧
  ∀ (pred : Bytes32 → Bool × Verdict Signature) (seed : Bytes),
    (∀ i < 1000, ∃ used, pred (afterGenerate (driverState seed i)).v = (used, .retry)) →
    ∃ used, drbgRun seed pred = {
      drbg := ⟨(driverState seed 1000).v, (driverState seed 1000).k, 1001⟩
      usedTable := used
      outcome := .error .fatalDrbg }

/-- 44_ecdsa.md R383: SIGN is a pure function of the key, the digest integer and F: two states that
agree on them (and whose tables are right if valid) get the same signature, whatever else they hold,
the bytes of DG and DLEN included. -/
def Obligations.SignIsPure : Prop :=
  ∀ (s s' t t' : State) (rr rkey rs rrec : RIdx) (lowS : Bool),
    (s.tableValid = true → s.tbl = buildTable) → (s'.tableValid = true → s'.tbl = buildTable) →
    readR s' rkey = readR s rkey → digestInt s' = digestInt s →
    exec (.sign rr rkey rs rrec lowS) s = .next t →
    exec (.sign rr rkey rs rrec lowS) s' = .next t' →
    t'.cause = t.cause ∧ (t.err = false → t'.drbg = t.drbg ∧
      ∀ j ∈ [rr, rs, rrec], readR t' j = readR t j)

/-- 44_ecdsa.md R384, 60_exceptions.md R457: VERIFY is total, writes nothing but RESULT, and RESULT
is 1 exactly when the parts are in range, s is low if asked, and the x-coordinate of
(h/s)·G + (r/s)·Q is r mod n. -/
def Obligations.VerifyResult : Prop :=
  ∀ (s : State) (rr rs : RIdx) (pq : PIdx) (lowS : Bool),
    ∃ t b, exec (.verify rr rs pq lowS) s = .next t ∧ Succeeded b [] [] s t ∧
      DrbgKept s t ∧ TableKept s t ∧
      (b = true ↔
        1 ≤ readR s rr ∧ readR s rr ≤ Config.n - 1 ∧ 1 ≤ readR s rs ∧
        readR s rs ≤ Config.n - 1 ∧ (lowS = true → readR s rs ≤ Config.halfN) ∧
        ∃ w u1 u2 x y : Int, (readR s rs * w) % Config.n = 1 ∧
          0 ≤ u1 ∧ u1 < Config.n ∧ u1 % Config.n = (digestInt s * w) % Config.n ∧
          0 ≤ u2 ∧ u2 < Config.n ∧ u2 % Config.n = (readR s rr * w) % Config.n ∧
          toAffine (pointAdd (generic Config.base u1 false)
            (generic (readP s pq) u2 false)) = .ok (x, y) ∧
          x % Config.n = readR s rr)

/-- 44_ecdsa.md R385, 60_exceptions.md R453: RECOVER's checks in their order, each error leaving the
destination unchanged; when they pass it writes the curve point (−h/r)·G + (s/r)·R with R the point
of x-coordinate r, or r + n when bit 1 of recoveryId is set, and of the parity of bit 0. -/
def Obligations.RecoverResult : Prop :=
  ∀ (s : State) (pd : PIdx) (rr rs rrec : RIdx), 2 ≤ pd.val →
    let r := readR s rr
    let rec_ := readR s rrec
    let ranges := 1 ≤ r ∧ r ≤ Config.n - 1 ∧ 1 ≤ readR s rs ∧ readR s rs ≤ Config.n - 1
    let radj := if 2 ≤ rec_ then r + Config.n else r
    let onCurve := ∃ y : Int, (y * y) % Config.P = (radj ^ 3 + 7) % Config.P
    let Raises := fun c => ∃ t, exec (.recover pd rr rs rrec) s = .next t ∧ Errored c s t
    (¬(0 ≤ rec_ ∧ rec_ ≤ 3) → Raises .badRecid) ∧
    (0 ≤ rec_ → rec_ ≤ 3 → ¬ranges → Raises .range) ∧
    (0 ≤ rec_ → rec_ ≤ 3 → ranges → Config.P ≤ radj → Raises .xOverflow) ∧
    (0 ≤ rec_ → rec_ ≤ 3 → ranges → radj < Config.P → ¬onCurve → Raises .noSqrt) ∧
    (0 ≤ rec_ → rec_ ≤ 3 → ranges → radj < Config.P → onCurve →
      ∃ (t : State) (rp : Point) (w u1 u2 : Int),
        exec (.recover pd rr rs rrec) s = .next t ∧ Succeeded false [] [pd] s t ∧
        DrbgKept s t ∧ TableKept s t ∧
        rp.isCurvePoint ∧ rp.X = radj ∧ rp.Z = 1 ∧ rp.Y % 2 = rec_ % 2 ∧
        (r * w) % Config.n = 1 ∧
        0 ≤ u1 ∧ u1 < Config.n ∧ u1 % Config.n = (-(digestInt s) * w) % Config.n ∧
        0 ≤ u2 ∧ u2 < Config.n ∧ u2 % Config.n = (readR s rs * w) % Config.n ∧
        readP t pd = pointAdd (generic Config.base u1 false) (generic rp u2 false) ∧
        (readP t pd).isCurvePoint)

/-- 44_ecdsa.md R387, round trip: VERIFY with Q = MULG(d), the same digest and the same F accepts
what SIGN wrote. -/
def Obligations.VerifyAcceptsWhatSignWrote : Prop :=
  ∀ (s t u v : State) (rr rkey rs rrec : RIdx) (pd : PIdx) (lowS : Bool), 2 ≤ pd.val →
    rr ≠ rs → rr ≠ rrec → rs ≠ rrec → rkey ∉ [rr, rs, rrec] →
    (s.tableValid = true → s.tbl = buildTable) →
    exec (.sign rr rkey rs rrec lowS) s = .next t → t.err = false →
    exec (.mulg pd rkey) t = .next u → exec (.verify rr rs pd lowS) u = .next v →
    v.result = true

/-- 44_ecdsa.md R386, R387, recovery: RECOVER with SIGN's (r, s, recoveryId) and the same digest
gives a point equal to MULG(d). -/
def Obligations.RecoverFindsTheSigner : Prop :=
  ∀ (s t u v : State) (rr rkey rs rrec : RIdx) (pd pq : PIdx) (lowS : Bool), 2 ≤ pd.val →
    2 ≤ pq.val → pd ≠ pq → rr ≠ rs → rr ≠ rrec → rs ≠ rrec → rkey ∉ [rr, rs, rrec] →
    (s.tableValid = true → s.tbl = buildTable) →
    exec (.sign rr rkey rs rrec lowS) s = .next t → t.err = false →
    exec (.mulg pd rkey) t = .next u → exec (.recover pq rr rs rrec) u = .next v →
    v.err = false ∧ (readP v pq).isCurvePoint ∧ pointEq (readP v pq) (readP v pd) = true

/-! ### The host's window -/

/-- 20_memory.md R102, R103, R110: a read at any offset has no side effect: a well-formed one answers
the word `readReg` gives at its offset, 0 at a reserved one (ReadValues says what it is elsewhere);
an access of another width or off a multiple of 4, read or write, gets a bus error response and has
no effect on the block. -/
def Obligations.ReadsAndMalformedAccesses : Prop :=
  ∀ (s : State) (off bytes : Nat) (v : Word) (rest : List HostEvent), off < 0x1000 →
    s.inFlight ≠ some 0 →
    let served := fun answer => { s with
      inFlight := tick s.inFlight, hostQueue := rest, lastResponse := some answer }
    (off % 4 = 0 → s.hostQueue = .read (Config.zsecpBase + off) 4 :: rest →
      let x := readReg { s with inFlight := tick s.inFlight } (mmioReg off)
      step s = .next (served (.data x)) ∧
        ((0x01C ≤ off ∧ off < 0x100) ∨ (0x140 ≤ off ∧ off < 0x400) ∨
          (0x800 ≤ off ∧ 0x60 ≤ (off - 0x800) % 128) → x = 0)) ∧
    (bytes ≠ 4 ∨ off % 4 ≠ 0 →
      (s.hostQueue = .read (Config.zsecpBase + off) bytes :: rest ∨
        s.hostQueue = .write (Config.zsecpBase + off) bytes v :: rest) →
      step s = .next (served .busError))

/-- 20_memory.md R101, R102, R104–R107, 10_state.md R51–R57, 70_reset_and_hazards.md R510: the word the
bus answers to a read at every offset of the map, while BUSY and while not. (That DRBGCTR shows the
CTR the state holds is an inference from R57, assumption log 16.) -/
def Obligations.ReadValues : Prop :=
  ∀ (s : State) (off : Nat) (rest : List HostEvent), s.inFlight ≠ some 0 → off < 0x1000 →
    off % 4 = 0 → s.hostQueue = .read (Config.zsecpBase + off) 4 :: rest →
    ∃ x : Word, step s = .next { s with
        inFlight := tick s.inFlight, hostQueue := rest, lastResponse := some (.data x) } ∧
      (off = 0x000 → x = 0x5A530007) ∧
      (off = 0x004 → x.toNat = if s.irqen then 1 else 0) ∧
      (off = 0x008 →
        x.getLsbD 0 = s.busy ∧ x.getLsbD 1 = s.done ∧ x.getLsbD 2 = s.err ∧
        x.getLsbD 3 = s.result ∧ x.getLsbD 4 = s.tableValid ∧ x.getLsbD 5 = s.fatal ∧
        x.getLsbD 6 = s.ovr ∧ x.getLsbD 7 = false ∧ x.extractLsb' 8 8 = s.cause.code ∧
        x.extractLsb' 16 16 = 0) ∧
      (off = 0x00C → x = 0) ∧
      (off = 0x010 → x.toNat = s.dlen.toNat) ∧
      (off = 0x014 → s.drbg.ctr ≤ 1001 → x.toNat = s.drbg.ctr) ∧
      (off = 0x018 → x = s.cmdlog) ∧
      ((0x01C ≤ off ∧ off < 0x100) ∨ (0x140 ≤ off ∧ off < 0x400) → x = 0) ∧
      (∀ j : Fin 16, off = 0x100 + 4 * j.val → ∀ k < 32,
        x.getLsbD k = (!s.busy && (s.dg[4 * j.val + k / 8]?.getD 0).getLsbD (k % 8))) ∧
      (∀ (i : RIdx) (j : Fin 16), off = 0x400 + 64 * i.val + 4 * j.val → ∀ k < 32,
        x.getLsbD k = (!s.busy && s.r[i].getLsbD (32 * j.val + k))) ∧
      ∀ (i : PIdx) (j : Fin 8),
        (off = 0x800 + 128 * i.val + 4 * j.val → ∀ k < 32,
          x.getLsbD k = (!s.busy && (readP s i).x.getLsbD (32 * j.val + k))) ∧
        (off = 0x820 + 128 * i.val + 4 * j.val → ∀ k < 32,
          x.getLsbD k = (!s.busy && (readP s i).y.getLsbD (32 * j.val + k))) ∧
        (off = 0x840 + 128 * i.val + 4 * j.val → ∀ k < 32,
          x.getLsbD k = (!s.busy && (readP s i).z.getLsbD (32 * j.val + k))) ∧
        (off = 0x860 + 128 * i.val + 4 * j.val → x = 0)

/-- 10_state.md R53, R54: the fields of STATUS as a read shows them; a write clears DONE, ERR with
CAUSE unless FATAL, and OVR, as the written bits say, BUSY or not, and changes nothing else; a read
changes nothing. -/
def Obligations.StatusRegister : Prop :=
  (∀ s : State,
    let w := readReg s (mmioReg 0x008)
    w.getLsbD 0 = s.inFlight.isSome ∧ w.getLsbD 1 = s.done ∧ w.getLsbD 2 = s.err ∧
    w.getLsbD 3 = s.result ∧ w.getLsbD 4 = s.tableValid ∧ w.getLsbD 5 = s.fatal ∧
    w.getLsbD 6 = s.ovr ∧ w.getLsbD 7 = false ∧ w.extractLsb' 8 8 = s.cause.code ∧
    w.extractLsb' 16 16 = 0 ∧ ((s.cause.code).getLsbD 7 = true ↔ s.cause.isFatal = true)) ∧
  (∀ (s : State) (rest : List HostEvent), s.inFlight ≠ some 0 →
    s.hostQueue = .read (Config.zsecpBase + 0x008) 4 :: rest →
    step s = .next { s with
      inFlight := tick s.inFlight, hostQueue := rest,
      lastResponse := some (.data (readReg { s with inFlight := tick s.inFlight }
        (mmioReg 0x008))) }) ∧
  ∀ (s : State) (v : Word) (rest : List HostEvent), s.inFlight ≠ some 0 →
    s.hostQueue = .write (Config.zsecpBase + 0x008) 4 v :: rest →
    ∃ t, step s = .next t ∧
      t.done = (s.done && !v.getLsbD 1) ∧
      (v.getLsbD 2 = true → s.fatal = false → t.err = false ∧ t.cause = .none) ∧
      (v.getLsbD 2 = false ∨ s.fatal = true → t.err = s.err ∧ t.cause = s.cause) ∧
      t.ovr = (s.ovr && !v.getLsbD 6) ∧
      t = { s with
        done := t.done, err := t.err, cause := t.cause, ovr := t.ovr,
        inFlight := tick s.inFlight, hostQueue := rest, lastResponse := some .written }

/-- 10_state.md R55, 60_exceptions.md R459: a write to CMD is accepted when BUSY = 0 and FATAL = 0,
ignored with OVR when BUSY = 1, and ignored without when FATAL = 1; CMD reads 0. -/
def Obligations.CmdWrite : Prop :=
  (∀ s : State, readReg s (mmioReg 0x00C) = 0) ∧
  ∀ (s : State) (c : Word) (rest : List HostEvent), s.inFlight ≠ some 0 →
    s.hostQueue = .write (Config.zsecpBase + 0x00C) 4 c :: rest →
    (s.busy = false → s.fatal = false → ∃ (delay : Nat) (t : State), step s = .next t ∧
      t.busy = true ∧ t = { s with
        done := false, err := false, cause := .none, cmdlog := c, inFlight := some delay,
        hostQueue := rest, lastResponse := some .written }) ∧
    (s.busy = true → step s = .next { s with
      ovr := true, inFlight := tick s.inFlight, hostQueue := rest,
      lastResponse := some .written }) ∧
    (s.busy = false → s.fatal = true → step s = .next { s with
      hostQueue := rest, lastResponse := some .written })

/-- 20_memory.md R105, R106, R107, 10_state.md R50, 70_reset_and_hazards.md R510: a write to a word
of R[i] or DG, or to DLEN, sets it when BUSY = 0 and only sets OVR when BUSY = 1; a write to a point
register, a read-only register or a reserved offset changes nothing. (That a busy write to DLEN sets
OVR for a value above 64 too is an inference, assumption log 14.) -/
def Obligations.DataWrites : Prop :=
  ∀ (s : State) (off : Nat) (v : Word) (rest : List HostEvent), s.inFlight ≠ some 0 →
    off < 0x1000 → off % 4 = 0 → s.hostQueue = .write (Config.zsecpBase + off) 4 v :: rest →
    let served := { s with
      inFlight := tick s.inFlight, hostQueue := rest, lastResponse := some .written }
    (s.busy = true → (off = 0x010 ∨ (0x100 ≤ off ∧ off < 0x140) ∨ (0x400 ≤ off ∧ off < 0x800)) →
      step s = .next { served with ovr := true }) ∧
    (off = 0x000 ∨ off = 0x014 ∨ (0x018 ≤ off ∧ off < 0x100) ∨ (0x140 ≤ off ∧ off < 0x400) ∨
        0x800 ≤ off → step s = .next served) ∧
    (s.busy = false → off = 0x010 →
      ((v.extractLsb' 0 7).toNat ≤ 64 → step s = .next { served with dlen := v.extractLsb' 0 7 }) ∧
      (64 < (v.extractLsb' 0 7).toNat → step s = .next served)) ∧
    (∀ j : Fin 16, s.busy = false → off = 0x100 + 4 * j.val →
      ∃ dg, step s = .next { served with dg := dg } ∧ ∀ k (hk : k < 64),
        dg[k] = if k / 4 = j.val then v.extractLsb' (8 * (k % 4)) 8 else s.dg[k]) ∧
    (∀ (i : RIdx) (j : Fin 16), s.busy = false → off = 0x400 + 64 * i.val + 4 * j.val →
      ∃ f : IntReg, step s = .next { served with r := s.r.set i f } ∧ ∀ k < 512,
        f.getLsbD k = if k / 32 = j.val then v.getLsbD (k % 32) else s.r[i].getLsbD k)

/-- 30_encoding.md R154, 20_memory.md R106: the sixteen writes of `ldr rI, V` on an idle block set
R[I] = V for every V in [−2^511, 2^511) and change nothing else. -/
def Obligations.LdrLoadsARegister : Prop :=
  ∀ (s : State) (i : RIdx) (v : Int) (rest : List HostEvent), s.inFlight = none →
    -2 ^ 511 ≤ v → v < 2 ^ 511 → s.hostQueue = hostLdr i v ++ rest →
    ∃ t : State, core.run 16 s = .next t ∧ readR t i = v ∧
      t = { s with r := t.r, hostQueue := rest, lastResponse := some .written } ∧
      IntsKept [i] s t

/-- 70_reset_and_hazards.md R501, R502: a write to CTRL with bit 1 set resets the block, BUSY and
FATAL included, and so does the reset input; a command in flight is abandoned; bit 0 of that write is
ignored; the bit reads 0. Without bit 1 the write sets IRQEN and nothing else (10_state.md R51).
The model's choices in it: a completion that is due comes first and the reset in the step after it
(assumption log 1); the reset input is one event of the host's queue (log 10); the state after a
reset is State.reset also in the contents of TBL, which the rules leave unspecified (log 5), and in
the bus answer kept (log 6). -/
def Obligations.ResetsAndCtrl : Prop :=
  (∀ s : State, (readReg s (mmioReg 0x004)).getLsbD 1 = false) ∧
  ∀ (s : State) (v : Word) (rest : List HostEvent),
    let softReset := s.hostQueue = .write (Config.zsecpBase + 0x004) 4 v :: rest ∧
      v.getLsbD 1 = true
    let hardReset := s.hostQueue = .hardReset :: rest
    let afterSoft := { State.reset with hostQueue := rest, lastResponse := some .written }
    let afterHard := { State.reset with hostQueue := rest }
    (s.inFlight ≠ some 0 →
      (softReset → step s = .next afterSoft) ∧ (hardReset → step s = .next afterHard) ∧
      (v.getLsbD 1 = false → s.hostQueue = .write (Config.zsecpBase + 0x004) 4 v :: rest →
        step s = .next { s with
          irqen := v.getLsbD 0, inFlight := tick s.inFlight, hostQueue := rest,
          lastResponse := some .written })) ∧
    (s.inFlight = some 0 → ∃ t, step s = .next t ∧
      (softReset → step t = .next afterSoft) ∧ (hardReset → step t = .next afterHard))

/-- 10_state.md R66, 60_exceptions.md R459, R472, 70_reset_and_hazards.md R510: FATAL is left only by
the reset input or a CTRL write with bit 1 set, with ERR, CAUSE and CMDLOG kept meanwhile; OVR is
cleared only by these or by a STATUS write of bit 6, and is set only by a write to CMD, DLEN, a word
of DG or a word of R[i] while BUSY = 1. (That the state after a reset is State.reset also in the
contents of TBL is the model's choice, assumption log 5.) -/
def Obligations.FatalAndOvrAreSticky : Prop :=
  ∀ s t : State, s.Inv → step s = .next t →
    let wasReset := ∃ rest, t = { State.reset with
        hostQueue := rest, lastResponse := t.lastResponse } ∧
      (s.hostQueue = .hardReset :: rest ∨ ∃ v : Word, v.getLsbD 1 = true ∧
        s.hostQueue = .write (Config.zsecpBase + 0x004) 4 v :: rest)
    (s.fatal = true → (t.fatal = true ∧ t.err = s.err ∧ t.cause = s.cause ∧
      t.cmdlog = s.cmdlog ∧ t.inFlight = none) ∨ wasReset) ∧
    (s.ovr = true → t.ovr = true ∨ wasReset ∨ ∃ v rest,
      s.hostQueue = .write (Config.zsecpBase + 0x008) 4 v :: rest ∧ v.getLsbD 6 = true) ∧
    (s.ovr = false → t.ovr = true → s.busy = true ∧ ∃ off v rest,
      s.hostQueue = .write (Config.zsecpBase + off) 4 v :: rest ∧ off % 4 = 0 ∧
      (off = 0x00C ∨ off = 0x010 ∨ (0x100 ≤ off ∧ off < 0x140) ∨ (0x400 ≤ off ∧ off < 0x800)))

/-- 60_exceptions.md R464, R465: IRQ is IRQEN ∧ DONE; it rises only at a completion or when IRQEN is
written, and every completion with IRQEN set raises it; it falls exactly when DONE is cleared by a
STATUS write, the next command is accepted, IRQEN is written 0 or the block is reset. -/
def Obligations.InterruptLine : Prop :=
  ∀ s t : State, step s = .next t →
    (t.irq = true ↔ t.irqen = true ∧ t.done = true) ∧
    (s.inFlight = some 0 → t.irq = s.irqen) ∧
    (s.irq = false → t.irq = true → s.inFlight = some 0 ∨
      (s.done = true ∧ ∃ v rest, s.hostQueue = .write (Config.zsecpBase + 0x004) 4 v :: rest ∧
        v.getLsbD 0 = true)) ∧
    (s.irq = true → s.inFlight ≠ some 0 → (t.irq = false ↔
      (∃ v rest, s.hostQueue = .write (Config.zsecpBase + 0x008) 4 v :: rest ∧
        v.getLsbD 1 = true) ∨
      (s.busy = false ∧ s.fatal = false ∧ ∃ c rest,
        s.hostQueue = .write (Config.zsecpBase + 0x00C) 4 c :: rest) ∨
      (∃ v rest, s.hostQueue = .write (Config.zsecpBase + 0x004) 4 v :: rest ∧
        (v.getLsbD 0 = false ∨ v.getLsbD 1 = true)) ∨
      ∃ rest, s.hostQueue = .hardReset :: rest))

/-- 10_state.md R60, R61, 70_reset_and_hazards.md R510, R520: a command in flight with delay d
completes at the (d + 1)-st step, whatever the host does but reset, on the operands it was accepted
with. (That the delay is counted in steps is the model's choice, assumption log 2.) -/
def Obligations.CommandCompletesOnItsOperands : Prop :=
  ∀ (d : Nat) (s : State), s.inFlight = some d → (∀ e ∈ s.hostQueue, harmless e = true) →
    ∃ u : State, core.run d s = .next u ∧ u.inFlight = some 0 ∧ u.cmdlog = s.cmdlog ∧
      u.r = s.r ∧ u.p = s.p ∧ u.dg = s.dg ∧ u.dlen = s.dlen ∧ u.drbg = s.drbg ∧
      TableKept s u ∧ u.fatal = s.fatal ∧
      ∃ t : State, core.run (d + 1) s = .next t ∧ t.done = true ∧ t.busy = false
end

