-- ==== Sys2Proof/Laws/State.lean ====
section
/-! SUPPORT. One lemma per field per update of the state, so that no later proof unfolds a record
update. -/

namespace Sys2Proof.Machine

@[simp] theorem writeR_r (s : State) (i : RIdx) (v : Int) : (writeR s i v).r = s.r.set i (BitVec.ofInt 512 v) :=
  rfl
@[simp] theorem writeR_p (s : State) (i : RIdx) (v : Int) : (writeR s i v).p = s.p := rfl
@[simp] theorem writeR_dg (s : State) (i : RIdx) (v : Int) : (writeR s i v).dg = s.dg := rfl
@[simp] theorem writeR_dlen (s : State) (i : RIdx) (v : Int) : (writeR s i v).dlen = s.dlen :=
  rfl
@[simp] theorem writeR_irqen (s : State) (i : RIdx) (v : Int) : (writeR s i v).irqen = s.irqen :=
  rfl
@[simp] theorem writeR_done (s : State) (i : RIdx) (v : Int) : (writeR s i v).done = s.done :=
  rfl
@[simp] theorem writeR_err (s : State) (i : RIdx) (v : Int) : (writeR s i v).err = s.err := rfl
@[simp] theorem writeR_result (s : State) (i : RIdx) (v : Int) : (writeR s i v).result = s.result :=
  rfl
@[simp] theorem writeR_fatal (s : State) (i : RIdx) (v : Int) : (writeR s i v).fatal = s.fatal :=
  rfl
@[simp] theorem writeR_ovr (s : State) (i : RIdx) (v : Int) : (writeR s i v).ovr = s.ovr := rfl
@[simp] theorem writeR_cause (s : State) (i : RIdx) (v : Int) : (writeR s i v).cause = s.cause :=
  rfl
@[simp] theorem writeR_cmdlog (s : State) (i : RIdx) (v : Int) : (writeR s i v).cmdlog = s.cmdlog :=
  rfl
@[simp] theorem writeR_inFlight (s : State) (i : RIdx) (v : Int) : (writeR s i v).inFlight = s.inFlight :=
  rfl
@[simp] theorem writeR_drbg (s : State) (i : RIdx) (v : Int) : (writeR s i v).drbg = s.drbg :=
  rfl
@[simp] theorem writeR_tableValid (s : State) (i : RIdx) (v : Int) : (writeR s i v).tableValid = s.tableValid :=
  rfl
@[simp] theorem writeR_tbl (s : State) (i : RIdx) (v : Int) : (writeR s i v).tbl = s.tbl := rfl
@[simp] theorem writeR_hostQueue (s : State) (i : RIdx) (v : Int) : (writeR s i v).hostQueue = s.hostQueue :=
  rfl
@[simp] theorem writeR_lastResponse (s : State) (i : RIdx) (v : Int) : (writeR s i v).lastResponse = s.lastResponse :=
  rfl

@[simp] theorem writeP_r (s : State) (i : PIdx) (q : Point) : (writeP s i q).r = s.r := by
  unfold writeP; split <;> rfl
@[simp] theorem writeP_dg (s : State) (i : PIdx) (q : Point) : (writeP s i q).dg = s.dg := by
  unfold writeP; split <;> rfl
@[simp] theorem writeP_dlen (s : State) (i : PIdx) (q : Point) : (writeP s i q).dlen = s.dlen := by
  unfold writeP; split <;> rfl
@[simp] theorem writeP_irqen (s : State) (i : PIdx) (q : Point) : (writeP s i q).irqen = s.irqen := by
  unfold writeP; split <;> rfl
@[simp] theorem writeP_done (s : State) (i : PIdx) (q : Point) : (writeP s i q).done = s.done := by
  unfold writeP; split <;> rfl
@[simp] theorem writeP_err (s : State) (i : PIdx) (q : Point) : (writeP s i q).err = s.err := by
  unfold writeP; split <;> rfl
@[simp] theorem writeP_result (s : State) (i : PIdx) (q : Point) : (writeP s i q).result = s.result := by
  unfold writeP; split <;> rfl
@[simp] theorem writeP_fatal (s : State) (i : PIdx) (q : Point) : (writeP s i q).fatal = s.fatal := by
  unfold writeP; split <;> rfl
@[simp] theorem writeP_ovr (s : State) (i : PIdx) (q : Point) : (writeP s i q).ovr = s.ovr := by
  unfold writeP; split <;> rfl
@[simp] theorem writeP_cause (s : State) (i : PIdx) (q : Point) : (writeP s i q).cause = s.cause := by
  unfold writeP; split <;> rfl
@[simp] theorem writeP_cmdlog (s : State) (i : PIdx) (q : Point) : (writeP s i q).cmdlog = s.cmdlog := by
  unfold writeP; split <;> rfl
@[simp] theorem writeP_inFlight (s : State) (i : PIdx) (q : Point) : (writeP s i q).inFlight = s.inFlight := by
  unfold writeP; split <;> rfl
@[simp] theorem writeP_drbg (s : State) (i : PIdx) (q : Point) : (writeP s i q).drbg = s.drbg := by
  unfold writeP; split <;> rfl
@[simp] theorem writeP_tableValid (s : State) (i : PIdx) (q : Point) : (writeP s i q).tableValid = s.tableValid := by
  unfold writeP; split <;> rfl
@[simp] theorem writeP_tbl (s : State) (i : PIdx) (q : Point) : (writeP s i q).tbl = s.tbl := by
  unfold writeP; split <;> rfl
@[simp] theorem writeP_hostQueue (s : State) (i : PIdx) (q : Point) : (writeP s i q).hostQueue = s.hostQueue := by
  unfold writeP; split <;> rfl
@[simp] theorem writeP_lastResponse (s : State) (i : PIdx) (q : Point) : (writeP s i q).lastResponse = s.lastResponse := by
  unfold writeP; split <;> rfl

@[simp] theorem withTable_r (s : State) : (withTable s).r = s.r := by
  unfold withTable; split <;> rfl
@[simp] theorem withTable_p (s : State) : (withTable s).p = s.p := by
  unfold withTable; split <;> rfl
@[simp] theorem withTable_dg (s : State) : (withTable s).dg = s.dg := by
  unfold withTable; split <;> rfl
@[simp] theorem withTable_dlen (s : State) : (withTable s).dlen = s.dlen := by
  unfold withTable; split <;> rfl
@[simp] theorem withTable_irqen (s : State) : (withTable s).irqen = s.irqen := by
  unfold withTable; split <;> rfl
@[simp] theorem withTable_done (s : State) : (withTable s).done = s.done := by
  unfold withTable; split <;> rfl
@[simp] theorem withTable_err (s : State) : (withTable s).err = s.err := by
  unfold withTable; split <;> rfl
@[simp] theorem withTable_result (s : State) : (withTable s).result = s.result := by
  unfold withTable; split <;> rfl
@[simp] theorem withTable_fatal (s : State) : (withTable s).fatal = s.fatal := by
  unfold withTable; split <;> rfl
@[simp] theorem withTable_ovr (s : State) : (withTable s).ovr = s.ovr := by
  unfold withTable; split <;> rfl
@[simp] theorem withTable_cause (s : State) : (withTable s).cause = s.cause := by
  unfold withTable; split <;> rfl
@[simp] theorem withTable_cmdlog (s : State) : (withTable s).cmdlog = s.cmdlog := by
  unfold withTable; split <;> rfl
@[simp] theorem withTable_inFlight (s : State) : (withTable s).inFlight = s.inFlight := by
  unfold withTable; split <;> rfl
@[simp] theorem withTable_drbg (s : State) : (withTable s).drbg = s.drbg := by
  unfold withTable; split <;> rfl
@[simp] theorem withTable_tableValid (s : State) : (withTable s).tableValid = true := by
  unfold withTable; split <;> simp_all
@[simp] theorem withTable_tbl (s : State) : (withTable s).tbl = tableOf s := by
  unfold withTable; split <;> simp_all [tableOf]
@[simp] theorem withTable_hostQueue (s : State) : (withTable s).hostQueue = s.hostQueue := by
  unfold withTable; split <;> rfl
@[simp] theorem withTable_lastResponse (s : State) : (withTable s).lastResponse = s.lastResponse := by
  unfold withTable; split <;> rfl

@[simp] theorem complete_r (b : Bool) (s : State) : (complete b s).r = s.r := rfl
@[simp] theorem complete_p (b : Bool) (s : State) : (complete b s).p = s.p := rfl
@[simp] theorem complete_dg (b : Bool) (s : State) : (complete b s).dg = s.dg := rfl
@[simp] theorem complete_dlen (b : Bool) (s : State) : (complete b s).dlen = s.dlen := rfl
@[simp] theorem complete_irqen (b : Bool) (s : State) : (complete b s).irqen = s.irqen := rfl
@[simp] theorem complete_done (b : Bool) (s : State) : (complete b s).done = true := rfl
@[simp] theorem complete_err (b : Bool) (s : State) : (complete b s).err = false := rfl
@[simp] theorem complete_result (b : Bool) (s : State) : (complete b s).result = b := rfl
@[simp] theorem complete_fatal (b : Bool) (s : State) : (complete b s).fatal = s.fatal := rfl
@[simp] theorem complete_ovr (b : Bool) (s : State) : (complete b s).ovr = s.ovr := rfl
@[simp] theorem complete_cause (b : Bool) (s : State) : (complete b s).cause = .none := rfl
@[simp] theorem complete_cmdlog (b : Bool) (s : State) : (complete b s).cmdlog = s.cmdlog :=
  rfl
@[simp] theorem complete_inFlight (b : Bool) (s : State) : (complete b s).inFlight = none :=
  rfl
@[simp] theorem complete_drbg (b : Bool) (s : State) : (complete b s).drbg = s.drbg := rfl
@[simp] theorem complete_tableValid (b : Bool) (s : State) : (complete b s).tableValid = s.tableValid :=
  rfl
@[simp] theorem complete_tbl (b : Bool) (s : State) : (complete b s).tbl = s.tbl := rfl
@[simp] theorem complete_hostQueue (b : Bool) (s : State) : (complete b s).hostQueue = s.hostQueue :=
  rfl
@[simp] theorem complete_lastResponse (b : Bool) (s : State) : (complete b s).lastResponse = s.lastResponse :=
  rfl

@[simp] theorem raise_r (c : Cause) (s : State) : (raise c s).r = s.r := rfl
@[simp] theorem raise_p (c : Cause) (s : State) : (raise c s).p = s.p := rfl
@[simp] theorem raise_dg (c : Cause) (s : State) : (raise c s).dg = s.dg := rfl
@[simp] theorem raise_dlen (c : Cause) (s : State) : (raise c s).dlen = s.dlen := rfl
@[simp] theorem raise_irqen (c : Cause) (s : State) : (raise c s).irqen = s.irqen := rfl
@[simp] theorem raise_done (c : Cause) (s : State) : (raise c s).done = true := rfl
@[simp] theorem raise_err (c : Cause) (s : State) : (raise c s).err = true := rfl
@[simp] theorem raise_result (c : Cause) (s : State) : (raise c s).result = false := rfl
@[simp] theorem raise_fatal (c : Cause) (s : State) : (raise c s).fatal = (s.fatal || c.isFatal) :=
  rfl
@[simp] theorem raise_ovr (c : Cause) (s : State) : (raise c s).ovr = s.ovr := rfl
@[simp] theorem raise_cause (c : Cause) (s : State) : (raise c s).cause = c := rfl
@[simp] theorem raise_cmdlog (c : Cause) (s : State) : (raise c s).cmdlog = s.cmdlog := rfl
@[simp] theorem raise_inFlight (c : Cause) (s : State) : (raise c s).inFlight = none := rfl
@[simp] theorem raise_drbg (c : Cause) (s : State) : (raise c s).drbg = s.drbg := rfl
@[simp] theorem raise_tableValid (c : Cause) (s : State) : (raise c s).tableValid = s.tableValid :=
  rfl
@[simp] theorem raise_tbl (c : Cause) (s : State) : (raise c s).tbl = s.tbl := rfl
@[simp] theorem raise_hostQueue (c : Cause) (s : State) : (raise c s).hostQueue = s.hostQueue :=
  rfl
@[simp] theorem raise_lastResponse (c : Cause) (s : State) : (raise c s).lastResponse = s.lastResponse :=
  rfl

@[simp] theorem acceptWith_r (d : Nat) (c : Word) (s : State) : (acceptWith d c s).r = s.r :=
  rfl
@[simp] theorem acceptWith_p (d : Nat) (c : Word) (s : State) : (acceptWith d c s).p = s.p :=
  rfl
@[simp] theorem acceptWith_dg (d : Nat) (c : Word) (s : State) : (acceptWith d c s).dg = s.dg :=
  rfl
@[simp] theorem acceptWith_dlen (d : Nat) (c : Word) (s : State) : (acceptWith d c s).dlen = s.dlen :=
  rfl
@[simp] theorem acceptWith_irqen (d : Nat) (c : Word) (s : State) : (acceptWith d c s).irqen = s.irqen :=
  rfl
@[simp] theorem acceptWith_done (d : Nat) (c : Word) (s : State) : (acceptWith d c s).done = false :=
  rfl
@[simp] theorem acceptWith_err (d : Nat) (c : Word) (s : State) : (acceptWith d c s).err = false :=
  rfl
@[simp] theorem acceptWith_result (d : Nat) (c : Word) (s : State) : (acceptWith d c s).result = s.result :=
  rfl
@[simp] theorem acceptWith_fatal (d : Nat) (c : Word) (s : State) : (acceptWith d c s).fatal = s.fatal :=
  rfl
@[simp] theorem acceptWith_ovr (d : Nat) (c : Word) (s : State) : (acceptWith d c s).ovr = s.ovr :=
  rfl
@[simp] theorem acceptWith_cause (d : Nat) (c : Word) (s : State) : (acceptWith d c s).cause = .none :=
  rfl
@[simp] theorem acceptWith_cmdlog (d : Nat) (c : Word) (s : State) : (acceptWith d c s).cmdlog = c :=
  rfl
@[simp] theorem acceptWith_inFlight (d : Nat) (c : Word) (s : State) : (acceptWith d c s).inFlight = some d :=
  rfl
@[simp] theorem acceptWith_drbg (d : Nat) (c : Word) (s : State) : (acceptWith d c s).drbg = s.drbg :=
  rfl
@[simp] theorem acceptWith_tableValid (d : Nat) (c : Word) (s : State) : (acceptWith d c s).tableValid = s.tableValid :=
  rfl
@[simp] theorem acceptWith_tbl (d : Nat) (c : Word) (s : State) : (acceptWith d c s).tbl = s.tbl :=
  rfl
@[simp] theorem acceptWith_hostQueue (d : Nat) (c : Word) (s : State) : (acceptWith d c s).hostQueue = s.hostQueue :=
  rfl
@[simp] theorem acceptWith_lastResponse (d : Nat) (c : Word) (s : State) : (acceptWith d c s).lastResponse = s.lastResponse :=
  rfl

end Sys2Proof.Machine
end

