-- ==== Sys2Proof/Laws/Ops.lean ====
section
/-! SUPPORT. What the shared operations over registers do: one lemma per operation and view of the
state, cited instead of unfolding it. -/

namespace Sys2Proof.Machine

/-! ### Integer registers -/

/-- A value in the range of 10_state.md R42 survives the 512-bit field. -/
theorem toInt_ofInt_512 (v : Int) (lo : -2 ^ 511 ≤ v) (hi : v < 2 ^ 511) :
    (BitVec.ofInt 512 v).toInt = v :=
  BitVec.toInt_ofInt_eq_self (by decide) lo hi

theorem readR_writeR_same (s : State) (i : RIdx) (v : Int) (lo : -2 ^ 511 ≤ v) (hi : v < 2 ^ 511) :
    readR (writeR s i v) i = v := by
  simp [readR, toInt_ofInt_512 v lo hi]

/-- Every result a command writes is in [0, 2^257) (10_state.md R44), so it is read back. -/
theorem readR_writeR_result (s : State) (i : RIdx) (v : Int) (lo : 0 ≤ v) (hi : v < 2 ^ 257) :
    readR (writeR s i v) i = v :=
  readR_writeR_same s i v ((neg_nonpos.mpr (by positivity)).trans lo)
    (hi.trans_le (pow_le_pow_right₀ (by norm_num) (by norm_num)))

theorem readR_writeR_ne (s : State) (i j : RIdx) (v : Int) (h : j ≠ i) :
    readR (writeR s i v) j = readR s j := by
  have : i.val ≠ j.val := fun e => h (Fin.ext e.symm)
  simp [readR, this]

@[simp] theorem readR_writeP (s : State) (i : PIdx) (q : Point) (j : RIdx) :
    readR (writeP s i q) j = readR s j := by simp [readR]
@[simp] theorem readR_withTable (s : State) (j : RIdx) :
    readR (withTable s) j = readR s j := by simp [readR]
@[simp] theorem readR_complete (b : Bool) (s : State) (j : RIdx) :
    readR (complete b s) j = readR s j := rfl
@[simp] theorem readR_raise (c : Cause) (s : State) (j : RIdx) :
    readR (raise c s) j = readR s j := rfl
@[simp] theorem readR_acceptWith (d : Nat) (c : Word) (s : State) (j : RIdx) :
    readR (acceptWith d c s) j = readR s j := rfl

/-! ### Point registers -/

/-- Reading a point register depends on the stored points only. -/
theorem readP_of_p {s t : State} (h : t.p = s.p) (i : PIdx) : readP t i = readP s i := by
  simp only [readP, h]

@[simp] theorem readP_zero (s : State) : readP s 0 = Config.zero := rfl
@[simp] theorem readP_one (s : State) : readP s 1 = Config.base := rfl

theorem readP_writeP_same (s : State) (i : PIdx) (q : Point) (h : 2 ≤ i.val) :
    readP (writeP s i q) i = q := by
  have h0 : i.val ≠ 0 := by omega
  have h1 : i.val ≠ 1 := by omega
  have h2 : ¬ i.val < 2 := by omega
  simp [readP, writeP, h0, h1, h2]

theorem readP_writeP_ne (s : State) (i j : PIdx) (q : Point) (h : j ≠ i) :
    readP (writeP s i q) j = readP s j := by
  have hv : i.val ≠ j.val := fun e => h (Fin.ext e.symm)
  unfold writeP
  split
  · rfl
  · unfold readP
    split
    · rfl
    · split
      · rfl
      · have : i.val - 2 ≠ j.val - 2 := by omega
        simp [this]

/-- P0 and P1 discard writes (10_state.md R46). -/
theorem writeP_hardwired (s : State) (i : PIdx) (q : Point) (h : i.val < 2) :
    writeP s i q = s := by simp [writeP, h]

@[simp] theorem readP_writeR (s : State) (i : RIdx) (v : Int) (j : PIdx) :
    readP (writeR s i v) j = readP s j := rfl
@[simp] theorem readP_withTable (s : State) (j : PIdx) :
    readP (withTable s) j = readP s j := readP_of_p (by simp) j
@[simp] theorem readP_complete (b : Bool) (s : State) (j : PIdx) :
    readP (complete b s) j = readP s j := rfl
@[simp] theorem readP_raise (c : Cause) (s : State) (j : PIdx) :
    readP (raise c s) j = readP s j := rfl
@[simp] theorem readP_acceptWith (d : Nat) (c : Word) (s : State) (j : PIdx) :
    readP (acceptWith d c s) j = readP s j := rfl

/-! ### The rest of what a command reads -/

@[simp] theorem digestInt_withTable (s : State) : digestInt (withTable s) = digestInt s := by
  simp [digestInt, digestBytes]
theorem digestInt_congr {s t : State} (h : t.dg = s.dg) (hl : t.dlen = s.dlen) :
    digestInt t = digestInt s := by simp [digestInt, digestBytes, h, hl]

@[simp] theorem tableOf_withTable (s : State) : tableOf (withTable s) = tableOf s := by
  unfold tableOf withTable; split <;> simp_all
theorem tableOf_of_built {s : State} (h : s.tableValid = true → s.tbl = buildTable) :
    tableOf s = buildTable := by
  unfold tableOf; split <;> simp_all
theorem withTable_of_valid {s : State} (h : s.tableValid = true) : withTable s = s := by
  simp [withTable, h]

@[simp] theorem busy_complete (b : Bool) (s : State) : (complete b s).busy = false := rfl
@[simp] theorem busy_raise (c : Cause) (s : State) : (raise c s).busy = false := rfl
@[simp] theorem busy_acceptWith (d : Nat) (c : Word) (s : State) :
    (acceptWith d c s).busy = true := rfl

/-! ### Answers -/

theorem succeed_eq (s : State) : succeed s = .next (complete false s) := rfl
theorem succeedWith_eq (b : Bool) (s : State) : succeedWith b s = .next (complete b s) := rfl
theorem fail_eq (c : Cause) (s : State) : fail c s = .next (raise c s) := rfl

end Sys2Proof.Machine
end

