-- ==== Sys2Proof/Laws/Completions.lean ====
section
/-! SUPPORT. The shapes of a completion: what `complete` and `raise` make of the state a command has
written, in the terms of Safety.lean. A meaning's statement is one of these with the values filled
in. -/

namespace Sys2Proof.Machine

/-! ### What a write leaves alone -/

theorem Quiet.refl (s : State) : Quiet s s := ⟨rfl, rfl, rfl, rfl, rfl, rfl, rfl⟩

theorem Quiet.trans {s t u : State} (a : Quiet s t) (b : Quiet t u) : Quiet s u :=
  ⟨b.dg.trans a.dg, b.dlen.trans a.dlen, b.irqen.trans a.irqen, b.ovr.trans a.ovr,
    b.cmdlog.trans a.cmdlog, b.hostQueue.trans a.hostQueue, b.lastResponse.trans a.lastResponse⟩

theorem quiet_writeR (s : State) (i : RIdx) (v : Int) : Quiet s (writeR s i v) :=
  ⟨rfl, rfl, rfl, rfl, rfl, rfl, rfl⟩

theorem quiet_writeP (s : State) (i : PIdx) (q : Point) : Quiet s (writeP s i q) := by
  constructor <;> simp

theorem quiet_withTable (s : State) : Quiet s (withTable s) := by constructor <;> simp

theorem quiet_drbg (s : State) (g : Drbg) : Quiet s { s with drbg := g } :=
  ⟨rfl, rfl, rfl, rfl, rfl, rfl, rfl⟩

theorem intsKept_of_r {dests : List RIdx} {s t : State} (h : t.r = s.r) : IntsKept dests s t :=
  fun i _ => by simp only [readR, h]

theorem pointsKept_of_p {dests : List PIdx} {s t : State} (h : t.p = s.p) :
    PointsKept dests s t := fun i _ => readP_of_p h i

theorem intsKept_writeR {dests : List RIdx} {s t : State} (h : IntsKept dests s t) {i : RIdx}
    (hi : i ∈ dests) (v : Int) : IntsKept dests s (writeR t i v) := fun j hj => by
  have hne : j ≠ i := fun e => hj (e ▸ hi)
  rw [readR_writeR_ne _ _ _ _ hne]
  exact h j hj

theorem pointsKept_writeP {dests : List PIdx} {s t : State} (h : PointsKept dests s t) {i : PIdx}
    (hi : i ∈ dests) (q : Point) : PointsKept dests s (writeP t i q) := fun j hj => by
  have hne : j ≠ i := fun e => hj (e ▸ hi)
  rw [readP_writeP_ne _ _ _ _ hne]
  exact h j hj

theorem TableKept.refl (s : State) : TableKept s s := ⟨rfl, rfl⟩

theorem tableBuilt_withTable (s : State) : TableBuilt s (withTable s) := by
  unfold withTable
  by_cases h : s.tableValid = true
  · rw [if_pos h]; exact ⟨h, fun _ => rfl, fun h' => by rw [h] at h'; cases h'⟩
  · rw [if_neg h]; exact ⟨rfl, fun h' => absurd h' h, fun _ => rfl⟩

theorem TableBuilt.congr {s t u : State} (h : TableBuilt s t) (hv : u.tableValid = t.tableValid)
    (ht : u.tbl = t.tbl) : TableBuilt s u :=
  ⟨hv.trans h.1, fun h' => ht.trans (h.2.1 h'), fun h' => ht.trans (h.2.2 h')⟩

/-- A table that is built is the rule's table. -/
theorem TableBuilt.tbl_eq {s t : State} (h : TableBuilt s t)
    (hs : s.tableValid = true → s.tbl = buildTable) : t.tbl = buildTable := by
  cases hv : s.tableValid
  · exact h.2.2 hv
  · exact (h.2.1 hv).trans (hs hv)

/-! ### Completions -/

/-- A successful completion after writes that leave the rest alone. -/
theorem succeeded_complete {b : Bool} {ints : List RIdx} {points : List PIdx} {s s' : State}
    (hr : IntsKept ints s s') (hp : PointsKept points s s') (hf : s'.fatal = s.fatal)
    (hq : Quiet s s') : Succeeded b ints points s (complete b s') :=
  ⟨rfl, rfl, rfl, rfl, rfl, hf, hr, hp, hq.dg, hq.dlen, hq.irqen, hq.ovr, hq.cmdlog, hq.hostQueue,
    hq.lastResponse⟩

/-- A command that writes no register. -/
theorem succeeded_self (b : Bool) (s : State) : Succeeded b [] [] s (complete b s) :=
  succeeded_complete (fun _ _ => rfl) (fun _ _ => rfl) rfl (Quiet.refl s)

/-- A command that writes one integer register. -/
theorem succeeded_writeR (s : State) (rd : RIdx) (v : Int) :
    Succeeded false [rd] [] s (complete false (writeR s rd v)) :=
  succeeded_complete (intsKept_writeR (fun _ _ => rfl) (by simp) v) (pointsKept_of_p rfl) rfl
    (quiet_writeR s rd v)

/-- A command that writes two integer registers. -/
theorem succeeded_writeR₂ (s : State) (ra rb : RIdx) (v w : Int) :
    Succeeded false [ra, rb] [] s (complete false (writeR (writeR s ra v) rb w)) :=
  succeeded_complete
    (intsKept_writeR (intsKept_writeR (fun _ _ => rfl) (by simp) v) (by simp) w)
    (pointsKept_of_p rfl) rfl ((quiet_writeR s ra v).trans (quiet_writeR _ rb w))

/-- A command that writes one point register. -/
theorem succeeded_writeP (s : State) (pd : PIdx) (q : Point) :
    Succeeded false [] [pd] s (complete false (writeP s pd q)) :=
  succeeded_complete (intsKept_of_r (by simp)) (pointsKept_writeP (fun _ _ => rfl) (by simp) q)
    (by simp) (quiet_writeP s pd q)

/-- A command of the windowed path: one point register, and the table built. -/
theorem succeeded_windowed (s : State) (pd : PIdx) (q : Point) :
    Succeeded false [] [pd] s (complete false (writeP (withTable s) pd q)) :=
  succeeded_complete (intsKept_of_r (by simp))
    (pointsKept_writeP (pointsKept_of_p (by simp)) (by simp) q) (by simp)
    ((quiet_withTable s).trans (quiet_writeP _ pd q))

/-- A recoverable error changes STATUS alone (60_exceptions.md R455). -/
theorem errored_raise {c : Cause} (h : c.isFatal = false) (s : State) : Errored c s (raise c s) :=
  ⟨rfl, rfl, rfl, rfl, rfl, by simp [h], fun _ _ => rfl, fun _ _ => rfl, rfl, ⟨rfl, rfl⟩,
    rfl, rfl, rfl, rfl, rfl, rfl, rfl⟩

/-- A fatal error after writes to hidden state alone (60_exceptions.md R458). -/
theorem died_raise {c : Cause} (h : c.isFatal = true) {s s' : State} (hr : s'.r = s.r)
    (hp : s'.p = s.p) (hq : Quiet s s') : Died c s (raise c s') :=
  ⟨rfl, rfl, rfl, rfl, rfl, by simp [h], intsKept_of_r hr, pointsKept_of_p hp, hq.dg, hq.dlen,
    hq.irqen, hq.ovr, hq.cmdlog, hq.hostQueue, hq.lastResponse⟩

end Sys2Proof.Machine
end

