-- ==== Sys2Proof/Laws/Drbg.lean ====
section
/-! SUPPORT. The deterministic nonce generator: when a generate call succeeds (43_drbg.md R354) and
how a run of the driver can end (R355). -/

namespace Sys2Proof.Machine

theorem drbgReseed_ctr (g : Drbg) (seed : Bytes) : (drbgReseed g seed).ctr = g.ctr := by
  unfold drbgReseed
  simp only
  split <;> rfl

/-- The reseed with an empty seed is two steps (43_drbg.md R353). -/
theorem drbgReseed_nil (g : Drbg) :
    drbgReseed g [] =
      ⟨hmac (hmac g.k (g.v.toList ++ [0x00])) g.v.toList, hmac g.k (g.v.toList ++ [0x00]),
        g.ctr⟩ := by
  simp [drbgReseed]

/-- The reseed with any other seed is four steps (43_drbg.md R353). -/
theorem drbgReseed_ne_nil (g : Drbg) {seed : Bytes} (h : seed ≠ []) :
    let k1 := hmac g.k (g.v.toList ++ [0x00] ++ seed)
    let v1 := hmac k1 g.v.toList
    let k2 := hmac k1 (v1.toList ++ [0x01] ++ seed)
    drbgReseed g seed = ⟨hmac k2 v1.toList, k2, g.ctr⟩ := by
  have : seed.isEmpty = false := by simpa using h
  simp [drbgReseed, this]

theorem drbgGenerate_ok {g : Drbg} (h : g.ctr < Config.drbgLimit) :
    drbgGenerate g = .ok (hmac g.k g.v.toList, ⟨hmac g.k g.v.toList, g.k, g.ctr + 1⟩) := by
  have : ¬ g.ctr + 1 > Config.drbgLimit := by omega
  simp [drbgGenerate, this]

theorem drbgGenerate_error {g : Drbg} (h : Config.drbgLimit ≤ g.ctr) :
    drbgGenerate g = .error ⟨g.v, g.k, g.ctr + 1⟩ := by
  have : g.ctr + 1 > Config.drbgLimit := by omega
  simp [drbgGenerate, this]

/-- The ways a run of the driver's loop ends, from a counter the fuel accounts for. -/
inductive RunEnds {α : Type} (pred : Bytes32 → Bool × Verdict α) (run : DrbgRun α) : Prop where
  | accepted (c : Bytes32) (u : Bool) (res : α) (hp : pred c = (u, .accept res))
      (ho : run.outcome = .ok res) (hd : run.drbg = .reset) (hu : u = true → run.usedTable = true)
  | aborted (c : Bytes32) (u : Bool) (cause : Cause) (hp : pred c = (u, .abort cause))
      (ho : run.outcome = .error cause) (hc : run.drbg.ctr ≤ Config.drbgLimit)
  | exhausted (ho : run.outcome = .error .fatalDrbg) (hc : run.drbg.ctr = Config.drbgLimit + 1)

theorem drbgLoop_ends {α : Type} (pred : Bytes32 → Bool × Verdict α) (fuel : Nat) :
    ∀ (g : Drbg) (used : Bool), g.ctr ≤ Config.drbgLimit →
      g.ctr + fuel = Config.drbgLimit + 1 → RunEnds pred (drbgLoop pred fuel g used) := by
  induction fuel with
  | zero => intro g used h1 h2; omega
  | succ n ih =>
    intro g used h1 h2
    unfold drbgLoop
    by_cases hl : g.ctr < Config.drbgLimit
    · rw [drbgGenerate_ok hl]
      simp only
      generalize hc : hmac g.k g.v.toList = c
      obtain ⟨u, v, hp⟩ : ∃ u v, pred c = (u, v) := ⟨_, _, rfl⟩
      rw [hp]
      cases v with
      | accept res => exact .accepted c u res hp rfl rfl (fun h => by simp [h])
      | abort cause => exact .aborted c u cause hp rfl (by simp only; omega)
      | retry =>
        refine ih _ _ ?_ ?_
        · rw [drbgReseed_ctr]; simp only; omega
        · rw [drbgReseed_ctr]; simp only; omega
    · rw [drbgGenerate_error (by omega)]
      exact .exhausted rfl (by simp only; omega)

/-- How the driver ends (43_drbg.md R355). -/
theorem drbgRun_ends {α : Type} (seed : Bytes) (pred : Bytes32 → Bool × Verdict α) :
    RunEnds pred (drbgRun seed pred) :=
  drbgLoop_ends pred _ _ _ (by rw [drbgReseed_ctr]; decide) (by rw [drbgReseed_ctr]; rfl)

/-! ### Byte strings as integers (00_scope.md R11) -/

theorem foldl_beInt (bs : Bytes) : ∀ acc : Nat,
    bs.foldl (fun acc b => acc * 256 + b.toNat) acc <
      (acc + 1) * 256 ^ bs.length := by
  induction bs with
  | nil => intro acc; simp
  | cons b bs ih =>
    intro acc
    rw [List.foldl_cons, List.length_cons, pow_succ]
    have hb := b.isLt
    calc _ < (acc * 256 + b.toNat + 1) * 256 ^ bs.length := ih _
      _ ≤ ((acc + 1) * 256) * 256 ^ bs.length := Nat.mul_le_mul_right _ (by omega)
      _ = _ := by ring

theorem beInt_nonneg (bs : Bytes) : 0 ≤ beInt bs := Int.natCast_nonneg _

theorem beInt_lt (bs : Bytes) : beInt bs < 256 ^ bs.length := by
  have := foldl_beInt bs 0
  unfold beInt
  rw [zero_add, one_mul] at this
  exact_mod_cast this

/-- A 32-byte string is an integer in [0, 2^256). -/
theorem beInt_bytes32_lt (v : Bytes32) : beInt v.toList < 2 ^ 256 := by
  have := beInt_lt v.toList
  rw [Vector.length_toList] at this
  exact this.trans_eq (by rw [show (256 : Int) = 2 ^ 8 by norm_num, ← pow_mul])

theorem foldl_beInt_acc (bs : Bytes) : ∀ acc : Nat,
    bs.foldl (fun acc b => acc * 256 + b.toNat) acc =
      acc * 256 ^ bs.length + bs.foldl (fun acc b => acc * 256 + b.toNat) 0 := by
  induction bs with
  | nil => intro acc; simp
  | cons b bs ih =>
    intro acc
    rw [List.foldl_cons, List.foldl_cons, ih, ih (0 * 256 + b.toNat), List.length_cons]
    ring

/-- Byte i of a big-endian string, from its integer. -/
theorem foldl_beInt_byte (bs : Bytes) : ∀ (i : Nat) (h : i < bs.length),
    (bs.foldl (fun acc b => acc * 256 + b.toNat) 0) / 256 ^ (bs.length - 1 - i) % 256 =
      (bs[i]).toNat := by
  induction bs with
  | nil => intro i h; simp at h
  | cons b bs ih =>
    intro i h
    rw [List.foldl_cons, foldl_beInt_acc, zero_mul, zero_add]
    have hb := foldl_beInt bs 0
    rw [zero_add, one_mul] at hb
    cases i with
    | zero =>
      simp only [List.length_cons, Nat.add_sub_cancel, Nat.sub_zero, List.getElem_cons_zero]
      rw [mul_comm b.toNat, Nat.mul_add_div (by positivity), Nat.div_eq_of_lt hb, add_zero]
      exact Nat.mod_eq_of_lt b.isLt
    | succ i =>
      simp only [List.length_cons, List.getElem_cons_succ] at h ⊢
      have hi : i < bs.length := by omega
      have e : bs.length + 1 - 1 - (i + 1) = bs.length - 1 - i := by omega
      have hp : 256 ^ bs.length = 256 ^ (bs.length - 1 - i) * (256 * 256 ^ i) := by
        rw [← pow_succ', ← pow_add]; congr 1; omega
      rw [← ih i hi, e, hp, ← mul_assoc, mul_comm b.toNat, mul_assoc,
        Nat.mul_add_div (by positivity), ← mul_assoc, mul_comm b.toNat 256, mul_assoc,
        Nat.mul_add_mod]

/-- `be32` undoes `be_int` on 32 bytes (00_scope.md R11). -/
theorem be32_beInt (v : Bytes32) : be32 (beInt v.toList) = v.toList := by
  unfold be32 beInt
  apply List.ext_getElem
  · simp
  · intro i h1 h2
    rw [List.getElem_map, List.getElem_range]
    have hl : v.toList.length = 32 := by simp
    have := foldl_beInt_byte v.toList i h2
    rw [hl] at this
    apply BitVec.eq_of_toNat_eq
    rw [BitVec.toNat_ofNat, Int.toNat_natCast]
    exact this

/-- `be_int` as a sum of bytes by their places (00_scope.md R11). -/
theorem beInt_sum (bs : Bytes) : beInt bs = ((List.range bs.length).map fun i =>
    ((bs.getD i 0).toNat : Int) * 256 ^ (bs.length - 1 - i)).sum := by
  induction bs with
  | nil => rfl
  | cons b bs ih =>
    rw [List.length_cons, List.range_succ_eq_map, List.map_cons, List.sum_cons, List.map_map]
    have : beInt (b :: bs) = b.toNat * 256 ^ bs.length + beInt bs := by
      unfold beInt
      rw [List.foldl_cons, foldl_beInt_acc]
      push_cast; ring
    rw [this, ih]
    congr 1
    apply congrArg
    apply List.map_congr_left
    intro i hi
    simp only [Function.comp, List.getD_cons_succ]
    congr 2
    omega

end Sys2Proof.Machine
end

