-- ==== Sys2Proof/Laws/Driver.lean ====
section
/-! SUPPORT. SIGN's driver in the terms of Safety.lean: what a run does when its predicate rejects
the first candidates, accepts one, or rejects them all (43_drbg.md R355). -/

namespace Sys2Proof.Machine

theorem driverState_ctr (seed : Bytes) (j : Nat) : (driverState seed j).ctr = j := by
  induction j with
  | zero => unfold driverState; rw [drbgReseed_ctr]; rfl
  | succ j ih => unfold driverState; rw [drbgReseed_ctr]; simp only [afterGenerate, ih]

theorem drbgGenerate_afterGenerate {g : Drbg} (h : g.ctr < Config.drbgLimit) :
    drbgGenerate g = .ok ((afterGenerate g).v, afterGenerate g) := drbgGenerate_ok h

/-- The predicate rejects candidate number i. -/
def Rejects {α : Type} (pred : Bytes32 → Bool × Verdict α) (seed : Bytes) (i : Nat) : Prop :=
  ∃ u, pred (afterGenerate (driverState seed i)).v = (u, .retry)

/-- After j rejections the loop stands at generate call number j. -/
theorem drbgLoop_rejects {α : Type} (pred : Bytes32 → Bool × Verdict α) (seed : Bytes) (j : Nat)
    (hj : j ≤ 1000) (h : ∀ i < j, Rejects pred seed i) :
    ∃ used, drbgLoop pred 1001 (driverState seed 0) false =
      drbgLoop pred (1001 - j) (driverState seed j) used := by
  induction j with
  | zero => exact ⟨false, rfl⟩
  | succ j ih =>
    obtain ⟨used, e⟩ := ih (by omega) fun i hi => h i (by omega)
    obtain ⟨u, hu⟩ := h j (by omega)
    refine ⟨used || u, e.trans ?_⟩
    have hl : (driverState seed j).ctr < Config.drbgLimit := by rw [driverState_ctr]; exact hj
    rw [show 1001 - j = (1001 - (j + 1)) + 1 by omega, drbgLoop, drbgGenerate_afterGenerate hl]
    simp only [hu]
    rfl

/-- The first candidate that is accepted gives the result (43_drbg.md R355). -/
theorem drbgRun_accepts {α : Type} {pred : Bytes32 → Bool × Verdict α} {seed : Bytes} {j : Nat}
    (hj : j < 1000) (h : ∀ i < j, Rejects pred seed i) {res : α}
    (hr : pred (afterGenerate (driverState seed j)).v = (true, .accept res)) :
    drbgRun seed pred = ⟨.reset, true, .ok res⟩ := by
  obtain ⟨used, e⟩ := drbgLoop_rejects pred seed j hj.le h
  refine e.trans ?_
  have hl : (driverState seed j).ctr < Config.drbgLimit := by rw [driverState_ctr]; exact hj
  rw [show 1001 - j = (1000 - j) + 1 by omega, drbgLoop, drbgGenerate_afterGenerate hl]
  simp only [hr, Bool.or_true]

/-- A thousand rejections exhaust the DRBG (43_drbg.md R354, R355). -/
theorem drbgRun_exhausts {α : Type} {pred : Bytes32 → Bool × Verdict α} {seed : Bytes}
    (h : ∀ i < 1000, Rejects pred seed i) :
    ∃ used, drbgRun seed pred =
      ⟨{ driverState seed 1000 with ctr := 1001 }, used, .error .fatalDrbg⟩ := by
  obtain ⟨used, e⟩ := drbgLoop_rejects pred seed 1000 le_rfl h
  have hc := driverState_ctr seed 1000
  refine ⟨used, e.trans ?_⟩
  generalize driverState seed 1000 = g at hc
  obtain ⟨v, k, c⟩ := g
  simp only at hc
  subst hc
  rfl

end Sys2Proof.Machine
end

