-- ==== Sys2Proof/Laws/FieldArith.lean ====
section
/-! SUPPORT. The functions of the field family meet their rules: ranges of residues, the extended
Euclidean inverse (40_field.md R215) and fast exponentiation (R220). -/

namespace Sys2Proof.Machine

/-! ### Residues (40_field.md R200) -/

theorem emod_nonneg {a m : Int} (h : 0 < m) : 0 ≤ emod a m := Int.emod_nonneg a (by omega)
theorem emod_lt {a m : Int} (h : 0 < m) : emod a m < m := Int.emod_lt_of_pos a h

theorem P_pos : 0 < Config.P := by decide
theorem n_pos : 0 < Config.n := by decide
theorem P_lt : Config.P < 2 ^ 256 := by decide
theorem n_lt_P : Config.n < Config.P := by decide
theorem scalarBound_eq : Config.scalarBound = 2 ^ 256 := rfl

theorem modP_nonneg (a : Int) : 0 ≤ modP a := emod_nonneg P_pos
theorem modP_lt (a : Int) : modP a < Config.P := emod_lt P_pos
theorem modP_lt_bound (a : Int) : modP a < 2 ^ 256 := (modP_lt a).trans P_lt

/-- A residue modulo m is unchanged by the reduction. -/
theorem emod_of_range {a m : Int} (h0 : 0 ≤ a) (h1 : a < m) : emod a m = a :=
  Int.emod_eq_of_lt h0 h1

/-- What a valid modulus is (40_field.md R201). -/
theorem validModulus_iff (m : Int) : validModulus m = true ↔ 1 ≤ m ∧ m < 2 ^ 256 := by
  rw [validModulus, Bool.and_eq_true, decide_eq_true_eq, decide_eq_true_eq, scalarBound_eq]

theorem selectModulus_ok {s : State} {m : ModSel} (h : validModulus (modulusValue s m) = true) :
    selectModulus s m = .ok (modulusValue s m) := by simp [selectModulus, h]

theorem selectModulus_error {s : State} {m : ModSel}
    (h : validModulus (modulusValue s m) = false) : selectModulus s m = .error .domain := by
  simp [selectModulus, h]

/-! ### The inverse (40_field.md R215) -/

/-- The loop keeps x·a ≡ b0 and u·a ≡ a0, and ends with the gcd of the remainders. -/
theorem euclid_spec (a m : Int) :
    ∀ (fuel : Nat) (b0 a0 x u : Int), 0 ≤ a0 → a0 < b0 → b0 * a0 < 2 ^ fuel →
      m ∣ x * a - b0 → m ∣ u * a - a0 →
      m ∣ euclid fuel b0 a0 x u * a - (Int.gcd b0 a0 : Int) := by
  intro fuel
  induction fuel with
  | zero =>
    intro b0 a0 x u h0 hlt hb hx hu
    have ha : a0 = 0 := by
      by_contra hne
      have : 1 ≤ b0 * a0 := one_le_mul_of_one_le_of_one_le (by omega) (by omega)
      omega
    subst ha
    simpa [euclid, abs_of_pos hlt] using hx
  | succ fuel ih =>
    intro b0 a0 x u h0 hlt hb hx hu
    unfold euclid
    split
    · next hz =>
      subst hz
      simpa [abs_of_pos hlt] using hx
    · next hne =>
      have hpos : 0 < a0 := by omega
      have hr0 := Int.emod_nonneg b0 hne
      have hr1 := Int.emod_lt_of_pos b0 hpos
      have hq : 1 ≤ b0 / a0 := Int.le_ediv_of_mul_le hpos (by omega)
      have hdec := Int.emod_add_mul_ediv b0 a0
      have hgcd : Int.gcd b0 a0 = Int.gcd a0 (b0 % a0) := by
        rw [Int.gcd_comm a0, Int.gcd_emod, Int.gcd_comm]
        try exact Int.gcd_comm _ _
      rw [hgcd]
      refine ih a0 (b0 % a0) u (x - u * (b0 / a0)) hr0 hr1 ?_ hu ?_
      · have h2 : a0 * (b0 / a0) ≥ a0 := le_mul_of_one_le_right hpos.le hq
        have h3 : 2 * (b0 % a0) ≤ b0 := by omega
        have h4 : a0 * (2 * (b0 % a0)) ≤ a0 * b0 := mul_le_mul_of_nonneg_left h3 hpos.le
        rw [pow_succ] at hb
        nlinarith
      · have : (x - u * (b0 / a0)) * a - b0 % a0
            = (x * a - b0) - (b0 / a0) * (u * a - a0) := by
          rw [show b0 % a0 = b0 - a0 * (b0 / a0) by omega]; ring
        rw [this]
        exact dvd_sub hx (Dvd.dvd.mul_left hu _)

/-- When the checks of 40_field.md R215 pass, the result is the inverse in [0, m). -/
theorem invert_ok {a m : Int} (hv : validModulus m = true) (h0 : emod a m ≠ 0)
    (hg : Int.gcd (emod a m) m = 1) :
    ∃ x, invert a m = .ok x ∧ 0 ≤ x ∧ x < m ∧ (x * a) % m = 1 := by
  obtain ⟨hm1, hm2⟩ := (validModulus_iff m).mp hv
  have hm : 0 < m := by omega
  have hr0 := emod_nonneg (a := a) hm
  have hr1 := emod_lt (a := a) hm
  have hfuel : m * emod a m < 2 ^ 512 := by
    calc m * emod a m < 2 ^ 256 * 2 ^ 256 := by
          apply mul_lt_mul'' hm2 (hr1.trans hm2) hm.le hr0
      _ = 2 ^ 512 := by rw [← pow_add]
  have key := euclid_spec a m 512 m (emod a m) 0 1 hr0 hr1 hfuel
    (by simp) (by rw [one_mul]; exact Int.dvd_self_sub_emod)
  rw [Int.gcd_comm, hg] at key
  refine ⟨emod (euclid 512 m (emod a m) 0 1) m, ?_, emod_nonneg hm, emod_lt hm, ?_⟩
  · simp [invert, hv, h0, hg]
  · have hm2 : 1 < m := by
      by_contra hle
      have : m = 1 := by omega
      subst this
      exact h0 (by simp [emod])
    have h1 : (euclid 512 m (emod a m) 0 1 * a) % m = 1 % m :=
      ((Int.modEq_iff_dvd (a := 1)).mpr (by simpa only [Nat.cast_one] using key)).symm
    rw [emod, Int.mul_emod, Int.emod_emod_of_dvd _ dvd_rfl, ← Int.mul_emod, h1]
    exact Int.emod_eq_of_lt (by omega) hm2

theorem invert_invalid {a m : Int} (hv : validModulus m = false) :
    invert a m = .error .domain := by simp [invert, hv]

theorem invert_zero {a m : Int} (h0 : emod a m = 0) : invert a m = .error .domain := by
  simp [invert, h0]

theorem invert_not_coprime {a m : Int} (hv : validModulus m = true) (h0 : emod a m ≠ 0)
    (hg : Int.gcd (emod a m) m ≠ 1) : invert a m = .error .noInverse := by
  simp [invert, hv, h0, hg]

/-- Whatever `invert` returns is an inverse in [0, m). -/
theorem invert_sound {a m x : Int} (h : invert a m = .ok x) :
    0 ≤ x ∧ x < m ∧ (x * a) % m = 1 ∧ m < 2 ^ 256 := by
  have hv : validModulus m = true := by
    cases hc : validModulus m
    · rw [invert_invalid hc] at h; cases h
    · rfl
  have h0 : emod a m ≠ 0 := fun hz => by rw [invert_zero hz] at h; cases h
  have hg : Int.gcd (emod a m) m = 1 := by
    by_contra hne
    rw [invert_not_coprime hv h0 hne] at h; cases h
  obtain ⟨y, hy, h1, h2, h3⟩ := invert_ok hv h0 hg
  rw [hy] at h
  cases h
  exact ⟨h1, h2, h3, ((validModulus_iff m).mp hv).2⟩

/-- Two inverses in [0, m) are the same (40_field.md R215: "the unique x"). -/
theorem inverse_unique {a m x y : Int} (hx0 : 0 ≤ x) (hx1 : x < m) (hy0 : 0 ≤ y) (hy1 : y < m)
    (hx : (x * a) % m = 1) (hy : (y * a) % m = 1) : x = y := by
  have h1 : m ∣ x * a - y * a := Int.ModEq.dvd (hy.trans hx.symm : y * a ≡ x * a [ZMOD m])
  have h2 : m ∣ x * a - 1 := Int.dvd_self_sub_of_emod_eq hx
  have h3 : m ∣ x - y := by
    have e : x - y = x * (x * a - y * a) - (x - y) * (x * a - 1) := by ring
    rw [e]
    exact dvd_sub (Dvd.dvd.mul_left h1 _) (Dvd.dvd.mul_left h2 _)
  obtain ⟨k, hk⟩ := h3
  have hm : 0 < m := by omega
  have : k = 0 := by
    by_contra hne
    rcases lt_or_gt_of_ne hne with hneg | hpos
    · nlinarith
    · nlinarith
  subst this
  omega

/-! ### Fast exponentiation (40_field.md R220) -/

theorem powModLoop_eq (m : Int) :
    ∀ (fuel : Nat) (a : Int) (e : Nat) (acc : Int), e < 2 ^ fuel → acc % m = acc →
      powModLoop fuel a e m acc = (acc * a ^ e) % m := by
  intro fuel
  induction fuel with
  | zero =>
    intro a e acc he hacc
    have : e = 0 := by simpa using he
    subst this
    simp [powModLoop, hacc]
  | succ fuel ih =>
    intro a e acc he hacc
    unfold powModLoop
    split
    · next h => subst h; simp [hacc]
    · next hne =>
      have he' : e / 2 < 2 ^ fuel := by rw [pow_succ] at he; omega
      have hsq : ∀ k : Nat, (emod (a * a) m) ^ k ≡ a ^ (2 * k) [ZMOD m] := fun k => by
        rw [pow_mul, pow_two]
        exact (Int.mod_modEq (a * a) m).pow k
      split
      · next hodd =>
        rw [ih _ _ (emod (acc * a) m) he' (Int.emod_emod_of_dvd _ dvd_rfl)]
        have e1 : e = 2 * (e / 2) + 1 := by omega
        have h1 : emod (acc * a) m * emod (a * a) m ^ (e / 2) ≡ acc * a * a ^ (2 * (e / 2)) [ZMOD m] :=
          (Int.mod_modEq (acc * a) m).mul (hsq _)
        calc emod (acc * a) m * emod (a * a) m ^ (e / 2) % m
            = acc * a * a ^ (2 * (e / 2)) % m := h1
          _ = acc * a ^ (2 * (e / 2) + 1) % m := by rw [pow_succ]; ring_nf
          _ = acc * a ^ e % m := by rw [← e1]
      · next heven =>
        rw [ih _ _ _ he' hacc]
        have e1 : e = 2 * (e / 2) := by omega
        have h1 : acc * emod (a * a) m ^ (e / 2) ≡ acc * a ^ (2 * (e / 2)) [ZMOD m] :=
          Int.ModEq.mul_left acc (hsq _)
        calc acc * emod (a * a) m ^ (e / 2) % m
            = acc * a ^ (2 * (e / 2)) % m := h1
          _ = acc * a ^ e % m := by rw [← e1]

/-- `powMod` is the power, reduced once. -/
theorem powMod_eq (a : Int) (e : Nat) (m : Int) (he : e < 2 ^ 256) :
    powMod a e m = a ^ e % m := by
  rw [powMod, powModLoop_eq m 256 _ _ (emod 1 m) he (Int.emod_emod_of_dvd _ dvd_rfl)]
  have h : emod 1 m * emod a m ^ e ≡ 1 * a ^ e [ZMOD m] :=
    (Int.mod_modEq 1 m).mul ((Int.mod_modEq a m).pow e)
  rw [one_mul] at h
  exact h

theorem powMod_nonneg (a : Int) (e : Nat) {m : Int} (hm : 0 < m) (he : e < 2 ^ 256) :
    0 ≤ powMod a e m := by
  rw [powMod_eq a e m he]; exact Int.emod_nonneg _ (by omega)

theorem powMod_lt (a : Int) (e : Nat) {m : Int} (hm : 0 < m) (he : e < 2 ^ 256) :
    powMod a e m < m := by
  rw [powMod_eq a e m he]; exact Int.emod_lt_of_pos _ hm

theorem sqrtExp_lt : Config.sqrtExp < 2 ^ 256 := by decide

/-- Whatever `sqrtP` returns is a square root in [0, P) (40_field.md R220, R225). -/
theorem sqrtP_sound {a r : Int} (h : sqrtP a = .ok r) :
    0 ≤ r ∧ r < Config.P ∧ (r * r) % Config.P = a % Config.P ∧
      r = powMod (modP a) Config.sqrtExp Config.P := by
  unfold sqrtP at h
  simp only at h
  split at h
  · next hc =>
    simp only [Except.ok.injEq] at h
    subst h
    exact ⟨powMod_nonneg _ _ P_pos sqrtExp_lt, powMod_lt _ _ P_pos sqrtExp_lt, hc, rfl⟩
  · cases h

/-- The only error of `sqrtP` is NO_SQRT (40_field.md R220). -/
theorem sqrtP_error {a : Int} {c : Cause} (h : sqrtP a = .error c) : c = .noSqrt := by
  unfold sqrtP at h
  simp only at h
  split at h
  · simp at h
  · simpa using h.symm

end Sys2Proof.Machine
end

