-- ==== Sys2Proof/Laws/Primes.lean ====
section
/-! SUPPORT. P and n are prime (00_scope.md R25), by Lucas certificates whose powers the kernel
evaluates with the model's own `powMod`. -/

namespace Sys2Proof.Laws

open Sys2Proof.Machine

/-- A Lucas certificate for p: a primitive root a and the prime factors of p − 1. -/
def lucasCert (p a : Nat) (factors : List Nat) : Bool :=
  decide (2 ≤ p) && decide (p < 2 ^ 256) && decide (factors.prod = p - 1) &&
    decide (powMod a (p - 1) p = 1) &&
    factors.all fun q => decide (powMod a ((p - 1) / q) p ≠ 1)

theorem prime_of_lucasCert {p a : Nat} {factors : List Nat} (h : lucasCert p a factors = true)
    (hp : ∀ q ∈ factors, q.Prime) : p.Prime := by
  simp only [lucasCert, Bool.and_eq_true, decide_eq_true_eq, List.all_eq_true] at h
  obtain ⟨⟨⟨⟨h2, hlt⟩, hprod⟩, hone⟩, hne⟩ := h
  have hm : (0 : Int) < p := by omega
  have hcast : ∀ e : Nat, e < 2 ^ 256 → (powMod a e p = 1 ↔ (a : ZMod p) ^ e = 1) := by
    intro e he
    have h1 : (1 : Int) % p = 1 := Int.emod_eq_of_lt (by omega) (by omega)
    rw [powMod_eq _ _ _ he]
    have := ZMod.intCast_eq_intCast_iff' ((a : Int) ^ e) 1 p
    push_cast at this
    rw [this, h1]
  refine lucas_primality p a ((hcast _ (by omega)).mp hone) fun q hq hdvd => ?_
  have hmem : q ∈ factors := by
    rw [← hprod] at hdvd
    obtain ⟨f, hf, hqf⟩ := (Nat.Prime.prime hq).dvd_prod_iff.mp hdvd
    exact ((Nat.prime_dvd_prime_iff_eq hq (hp f hf)).mp hqf) ▸ hf
  rw [Ne, ← hcast _ ((Nat.div_le_self _ _).trans_lt (by omega))]
  exact hne q hmem

theorem prime_13331831_8 :
    Nat.Prime 13331831 :=
  prime_of_lucasCert (a := 13)
    (factors := [2, 5, 971, 1373])
    (by decide +kernel) (by
      intro q hq
      simp only [List.mem_cons, List.not_mem_nil, or_false] at hq
      rcases hq with rfl | rfl | rfl | rfl
      all_goals first | norm_num)

theorem prime_05251801_18 :
    Nat.Prime 173378833005251801 :=
  prime_of_lucasCert (a := 6)
    (factors := [2, 2, 2, 5, 5, 2621, 24809, 13331831])
    (by decide +kernel) (by
      intro q hq
      simp only [List.mem_cons, List.not_mem_nil, or_false] at hq
      rcases hq with rfl | rfl | rfl | rfl | rfl | rfl | rfl | rfl
      all_goals first | exact prime_13331831_8 | norm_num)

theorem prime_28081353_23 :
    Nat.Prime 22149492674086928081353 :=
  prime_of_lucasCert (a := 5)
    (factors := [2, 2, 2, 3, 5323, 173378833005251801])
    (by decide +kernel) (by
      intro q hq
      simp only [List.mem_cons, List.not_mem_nil, or_false] at hq
      rcases hq with rfl | rfl | rfl | rfl | rfl | rfl
      all_goals first | exact prime_05251801_18 | norm_num)

theorem prime_68488119_24 :
    Nat.Prime 132896956044521568488119 :=
  prime_of_lucasCert (a := 6)
    (factors := [2, 3, 22149492674086928081353])
    (by decide +kernel) (by
      intro q hq
      simp only [List.mem_cons, List.not_mem_nil, or_false] at hq
      rcases hq with rfl | rfl | rfl
      all_goals first | exact prime_28081353_23 | norm_num)

theorem prime_01206781_7 :
    Nat.Prime 1206781 :=
  prime_of_lucasCert (a := 10)
    (factors := [2, 2, 3, 5, 20113])
    (by decide +kernel) (by
      intro q hq
      simp only [List.mem_cons, List.not_mem_nil, or_false] at hq
      rcases hq with rfl | rfl | rfl | rfl | rfl
      all_goals first | norm_num)

theorem prime_07240687_7 :
    Nat.Prime 7240687 :=
  prime_of_lucasCert (a := 3)
    (factors := [2, 3, 1206781])
    (by decide +kernel) (by
      intro q hq
      simp only [List.mem_cons, List.not_mem_nil, or_false] at hq
      rcases hq with rfl | rfl | rfl
      all_goals first | exact prime_01206781_7 | norm_num)

theorem prime_07590001_9 :
    Nat.Prime 107590001 :=
  prime_of_lucasCert (a := 3)
    (factors := [2, 2, 2, 2, 5, 5, 5, 5, 7, 29, 53])
    (by decide +kernel) (by
      intro q hq
      simp only [List.mem_cons, List.not_mem_nil, or_false] at hq
      rcases hq with rfl | rfl | rfl | rfl | rfl | rfl | rfl | rfl | rfl | rfl | rfl
      all_goals first | norm_num)

theorem prime_84175977_39 :
    Nat.Prime 255515944373312847190720520512484175977 :=
  prime_of_lucasCert (a := 3)
    (factors := [2, 2, 2, 7, 7, 11, 1627, 2657, 4423, 41201, 96557, 7240687, 107590001])
    (by decide +kernel) (by
      intro q hq
      simp only [List.mem_cons, List.not_mem_nil, or_false] at hq
      rcases hq with rfl | rfl | rfl | rfl | rfl | rfl | rfl | rfl | rfl | rfl | rfl | rfl | rfl
      all_goals first | exact prime_07240687_7 | exact prime_07590001_9 | norm_num)

theorem prime_55397371_72 :
    Nat.Prime 205115282021455665897114700593932402728804164701536103180137503955397371 :=
  prime_of_lucasCert (a := 10)
    (factors := [2, 3, 5, 29, 29, 31, 7723, 132896956044521568488119, 255515944373312847190720520512484175977])
    (by decide +kernel) (by
      intro q hq
      simp only [List.mem_cons, List.not_mem_nil, or_false] at hq
      rcases hq with rfl | rfl | rfl | rfl | rfl | rfl | rfl | rfl | rfl
      all_goals first | exact prime_68488119_24 | exact prime_84175977_39 | norm_num)

theorem prime_P_nat :
    Nat.Prime 115792089237316195423570985008687907853269984665640564039457584007908834671663 :=
  prime_of_lucasCert (a := 3)
    (factors := [2, 3, 7, 13441, 205115282021455665897114700593932402728804164701536103180137503955397371])
    (by decide +kernel) (by
      intro q hq
      simp only [List.mem_cons, List.not_mem_nil, or_false] at hq
      rcases hq with rfl | rfl | rfl | rfl | rfl
      all_goals first | exact prime_55397371_72 | norm_num)

theorem prime_04681609_7 :
    Nat.Prime 4681609 :=
  prime_of_lucasCert (a := 23)
    (factors := [2, 2, 2, 3, 97, 2011])
    (by decide +kernel) (by
      intro q hq
      simp only [List.mem_cons, List.not_mem_nil, or_false] at hq
      rcases hq with rfl | rfl | rfl | rfl | rfl | rfl
      all_goals first | norm_num)

theorem prime_16595537_18 :
    Nat.Prime 107361793816595537 :=
  prime_of_lucasCert (a := 3)
    (factors := [2, 2, 2, 2, 16699, 85831, 4681609])
    (by decide +kernel) (by
      intro q hq
      simp only [List.mem_cons, List.not_mem_nil, or_false] at hq
      rcases hq with rfl | rfl | rfl | rfl | rfl | rfl | rfl
      all_goals first | exact prime_04681609_7 | norm_num)

theorem prime_00120233_6 :
    Nat.Prime 120233 :=
  prime_of_lucasCert (a := 3)
    (factors := [2, 2, 2, 7, 19, 113])
    (by decide +kernel) (by
      intro q hq
      simp only [List.mem_cons, List.not_mem_nil, or_false] at hq
      rcases hq with rfl | rfl | rfl | rfl | rfl | rfl
      all_goals first | norm_num)

theorem prime_44706919_8 :
    Nat.Prime 44706919 :=
  prime_of_lucasCert (a := 6)
    (factors := [2, 3, 797, 9349])
    (by decide +kernel) (by
      intro q hq
      simp only [List.mem_cons, List.not_mem_nil, or_false] at hq
      rcases hq with rfl | rfl | rfl | rfl
      all_goals first | norm_num)

theorem prime_14371449_21 :
    Nat.Prime 174723607534414371449 :=
  prime_of_lucasCert (a := 3)
    (factors := [2, 2, 2, 17, 59, 4051, 120233, 44706919])
    (by decide +kernel) (by
      intro q hq
      simp only [List.mem_cons, List.not_mem_nil, or_false] at hq
      rcases hq with rfl | rfl | rfl | rfl | rfl | rfl | rfl | rfl
      all_goals first | exact prime_00120233_6 | exact prime_44706919_8 | norm_num)

theorem prime_00305873_6 :
    Nat.Prime 305873 :=
  prime_of_lucasCert (a := 3)
    (factors := [2, 2, 2, 2, 7, 2731])
    (by decide +kernel) (by
      intro q hq
      simp only [List.mem_cons, List.not_mem_nil, or_false] at hq
      rcases hq with rfl | rfl | rfl | rfl | rfl | rfl
      all_goals first | norm_num)

theorem prime_45358713_9 :
    Nat.Prime 545358713 :=
  prime_of_lucasCert (a := 5)
    (factors := [2, 2, 2, 41, 59, 28181])
    (by decide +kernel) (by
      intro q hq
      simp only [List.mem_cons, List.not_mem_nil, or_false] at hq
      rcases hq with rfl | rfl | rfl | rfl | rfl | rfl
      all_goals first | norm_num)

theorem prime_01627771_7 :
    Nat.Prime 1627771 :=
  prime_of_lucasCert (a := 3)
    (factors := [2, 3, 5, 29, 1871])
    (by decide +kernel) (by
      intro q hq
      simp only [List.mem_cons, List.not_mem_nil, or_false] at hq
      rcases hq with rfl | rfl | rfl | rfl | rfl
      all_goals first | norm_num)

theorem prime_59362677_12 :
    Nat.Prime 297159362677 :=
  prime_of_lucasCert (a := 2)
    (factors := [2, 2, 3, 3, 11, 461, 1627771])
    (by decide +kernel) (by
      intro q hq
      simp only [List.mem_cons, List.not_mem_nil, or_false] at hq
      rcases hq with rfl | rfl | rfl | rfl | rfl | rfl | rfl
      all_goals first | exact prime_01627771_7 | norm_num)

theorem prime_97758179_29 :
    Nat.Prime 29047611873442575647497758179 :=
  prime_of_lucasCert (a := 2)
    (factors := [2, 293, 305873, 545358713, 297159362677])
    (by decide +kernel) (by
      intro q hq
      simp only [List.mem_cons, List.not_mem_nil, or_false] at hq
      rcases hq with rfl | rfl | rfl | rfl | rfl
      all_goals first | exact prime_00305873_6 | exact prime_45358713_9 | exact prime_59362677_12 | norm_num)

theorem prime_09283189_33 :
    Nat.Prime 341948486974166000522343609283189 :=
  prime_of_lucasCert (a := 2)
    (factors := [2, 2, 3, 3, 3, 109, 29047611873442575647497758179])
    (by decide +kernel) (by
      intro q hq
      simp only [List.mem_cons, List.not_mem_nil, or_false] at hq
      rcases hq with rfl | rfl | rfl | rfl | rfl | rfl | rfl
      all_goals first | exact prime_97758179_29 | norm_num)

theorem prime_n_nat :
    Nat.Prime 115792089237316195423570985008687907852837564279074904382605163141518161494337 :=
  prime_of_lucasCert (a := 7)
    (factors := [2, 2, 2, 2, 2, 2, 3, 149, 631, 107361793816595537, 174723607534414371449, 341948486974166000522343609283189])
    (by decide +kernel) (by
      intro q hq
      simp only [List.mem_cons, List.not_mem_nil, or_false] at hq
      rcases hq with rfl | rfl | rfl | rfl | rfl | rfl | rfl | rfl | rfl | rfl | rfl | rfl
      all_goals first | exact prime_16595537_18 | exact prime_14371449_21 | exact prime_09283189_33 | norm_num)

/-- P is prime (00_scope.md R25). -/
theorem prime_P : Nat.Prime Config.P.toNat := prime_P_nat

/-- n is prime (00_scope.md R25). -/
theorem prime_n : Nat.Prime Config.n.toNat := prime_n_nat

/-- Every number in [1, m − 1] is coprime to a prime m. -/
theorem gcd_eq_one_of_prime {m a : Int} (hm : Nat.Prime m.toNat) (h0 : 0 < a) (h1 : a < m) :
    Int.gcd a m = 1 := by
  lift a to ℕ using h0.le
  lift m to ℕ using h0.le.trans h1.le
  rw [Int.gcd_natCast_natCast, Nat.gcd_comm]
  exact (Nat.Prime.coprime_iff_not_dvd (by simpa using hm)).mpr fun hd => by
    have := Nat.le_of_dvd (by omega) hd
    omega

/-- The inverse modulo P of 1..P−1 exists (00_scope.md R25). -/
theorem invert_P_ok {a : Int} (h : emod a Config.P ≠ 0) :
    ∃ x, invert a Config.P = .ok x ∧ 0 ≤ x ∧ x < Config.P ∧ (x * a) % Config.P = 1 :=
  invert_ok (by decide) h (gcd_eq_one_of_prime prime_P
    (lt_of_le_of_ne (emod_nonneg P_pos) (Ne.symm h)) (emod_lt P_pos))

/-- The inverse modulo n of 1..n−1 exists (00_scope.md R25). -/
theorem invert_n_ok {a : Int} (h : emod a Config.n ≠ 0) :
    ∃ x, invert a Config.n = .ok x ∧ 0 ≤ x ∧ x < Config.n ∧ (x * a) % Config.n = 1 :=
  invert_ok (by decide) h (gcd_eq_one_of_prime prime_n
    (lt_of_le_of_ne (emod_nonneg n_pos) (Ne.symm h)) (emod_lt n_pos))

end Sys2Proof.Laws
end

