-- ==== Sys2Proof/Laws/PointArith.lean ====
section
/-! SUPPORT. The functions of the point family in closed form over the field of integers modulo P
(41_point.md R250–R265): the complete addition, that it keeps the curve equation, and affine
conversion. -/

namespace Sys2Proof.Machine

/-! ### The complete addition over a ring (41_point.md R252) -/

section Identities

variable {K : Type} [CommRing K]

/-- The coordinates of ADD in closed form. -/
def addX (X1 Y1 Z1 X2 Y2 Z2 : K) : K :=
  (X1 * Y2 + X2 * Y1) * (Y1 * Y2 - 21 * (Z1 * Z2)) -
    21 * ((Y1 * Z2 + Y2 * Z1) * (X1 * Z2 + X2 * Z1))
def addY (X1 Y1 Z1 X2 Y2 Z2 : K) : K :=
  (Y1 * Y2 + 21 * (Z1 * Z2)) * (Y1 * Y2 - 21 * (Z1 * Z2)) +
    63 * (X1 * X2 * (X1 * Z2 + X2 * Z1))
def addZ (X1 Y1 Z1 X2 Y2 Z2 : K) : K :=
  (Y1 * Z2 + Y2 * Z1) * (Y1 * Y2 + 21 * (Z1 * Z2)) +
    3 * (X1 * X2 * (X1 * Y2 + X2 * Y1))

/-- The curve equation of a triple (41_point.md R251). -/
def OnCurve (X Y Z : K) : Prop := Y ^ 2 * Z = X ^ 3 + 7 * Z ^ 3

variable {X1 Y1 Z1 X2 Y2 Z2 : K}

theorem add_onCurve (h1 : OnCurve X1 Y1 Z1) (h2 : OnCurve X2 Y2 Z2) :
    OnCurve (addX X1 Y1 Z1 X2 Y2 Z2) (addY X1 Y1 Z1 X2 Y2 Z2) (addZ X1 Y1 Z1 X2 Y2 Z2) := by
  unfold OnCurve at *
  unfold addX addY addZ
  linear_combination
    -(74088*Z1^3*Y2^3*Z2^3 + (-83349)*Z1^3*X2^3*Y2*Z2^2 + 1323*Z1^3*X2^3*Y2^3
      + 111132*Y1*Z1^2*Y2^2*Z2^4 + (-5292)*Y1*Z1^2*Y2^4*Z2^2 + 11907*Y1*Z1^2*X2^6
      + 55566*Y1^2*Z1*Y2*Z2^5 + (-5292)*Y1^2*Z1*Y2^3*Z2^3 + 126*Y1^2*Z1*Y2^5*Z2
      + 11907*Y1^2*Z1*X2^3*Y2*Z2^2 + (-189)*Y1^2*Z1*X2^3*Y2^3 + 9261*Y1^3*Z2^6
      + (-1323)*Y1^3*Y2^2*Z2^4 + 63*Y1^3*Y2^4*Z2^2 + (-1)*Y1^3*Y2^6 + (-189)*Y1^3*X2^6
      + (-83349)*X1*Z1^2*X2^2*Y2*Z2^3 + (-3969)*X1*Z1^2*X2^2*Y2^3*Z2 + 11907*X1*Z1^2*X2^5*Y2
      + 83349*X1*Y1*Z1*X2^2*Z2^4 + (-189)*X1*Y1*Z1*X2^2*Y2^4 + 23814*X1*Y1*Z1*X2^5*Z2
      + 3969*X1*Y1^2*X2^2*Y2*Z2^3 + 189*X1*Y1^2*X2^2*Y2^3*Z2 + (-567)*X1*Y1^2*X2^5*Y2
      + 23814*X1^2*Z1*X2^4*Y2*Z2 + 11907*X1^2*Y1*X2^4*Z2^2 + (-567)*X1^2*Y1*X2^4*Y2^2
      + 11907*X1^3*X2^3*Y2*Z2^2 + (-189)*X1^3*X2^3*Y2^3) * h1
    -(583443*Z1^6*Y2*Z2^2 + 583443*Y1*Z1^5*Z2^3 + (-27783)*Y1*Z1^5*Y2^2*Z2
      + (-83349)*Y1*Z1^5*X2^3 + (-55566)*Y1^2*Z1^4*Y2*Z2^2 + 1323*Y1^2*Z1^4*Y2^3
      + (-18522)*Y1^3*Z1^3*Z2^3 + 7938*Y1^3*Z1^3*Y2^2*Z2 + 13230*Y1^3*Z1^3*X2^3
      + 6615*Y1^4*Z1^2*Y2*Z2^2 + (-126)*Y1^4*Z1^2*Y2^3 + 1323*Y1^5*Z1*Z2^3
      + (-63)*Y1^5*Z1*Y2^2*Z2 + (-189)*Y1^5*Z1*X2^3 + (-1)*Y1^6*Y2^3 + (-83349)*X1*Z1^5*X2^2*Y2
      + (-166698)*X1*Y1*Z1^4*X2^2*Z2 + 15876*X1*Y1^2*Z1^3*X2^2*Y2 + 23814*X1*Y1^3*Z1^2*X2^2*Z2
      + (-567)*X1*Y1^4*Z1*X2^2*Y2 + (-83349)*X1^2*Z1^4*X2*Y2*Z2
      + (-166698)*X1^2*Y1*Z1^3*X2*Z2^2 + 7938*X1^2*Y1*Z1^3*X2*Y2^2
      + 23814*X1^2*Y1^2*Z1^2*X2*Y2*Z2 + 7938*X1^2*Y1^3*Z1*X2*Z2^2 + (-378)*X1^2*Y1^3*Z1*X2*Y2^2
      + (-189)*X1^2*Y1^4*X2*Y2*Z2) * h2

/-- On two triples of the curve ADD is proportional to the chord through them. -/
theorem add_chord_x (h1 : OnCurve X1 Y1 Z1) (h2 : OnCurve X2 Y2 Z2) :
    let u := Y2 * Z1 - Y1 * Z2
    let v := X2 * Z1 - X1 * Z2
    addX X1 Y1 Z1 X2 Y2 Z2 * (v ^ 3 * (Z1 * Z2)) =
      v * (u ^ 2 * (Z1 * Z2) - v ^ 3 - 2 * (v ^ 2 * (X1 * Z2))) *
        addZ X1 Y1 Z1 X2 Y2 Z2 := by
  unfold OnCurve at *
  unfold addX addZ
  simp only
  linear_combination
    -((-42)*Z1^3*X2*Y2*Z2^4 + 3*Z1^3*X2*Y2^3*Z2^2 + (-6)*Z1^3*X2^4*Y2*Z2 + 21*Y1*Z1^2*X2*Z2^5
      + (-1)*Y1*Z1^2*X2*Y2^2*Z2^3 + 1*Y1^2*Z1*X2*Y2*Z2^4 + 21*X1*Z1^2*Y2*Z2^5
      + (-2)*X1*Y1*Z1*Y2^2*Z2^4 + 6*X1*Y1*Z1*X2^3*Z2^3 + (-1)*X1*Y1^2*Y2*Z2^5
      + 6*X1^2*Z1*X2^2*Y2*Z2^3 + (-3)*X1^2*Y1*X2^2*Z2^4 + (-3)*X1^3*X2*Y2*Z2^4) * h1
    -(42*Z1^6*X2*Y2*Z2 + (-21)*Y1*Z1^5*X2*Z2^2 + 1*Y1*Z1^5*X2*Y2^2 + (-4)*Y1^2*Z1^4*X2*Y2*Z2
      + (-21)*X1*Z1^5*Y2*Z2^2 + (-1)*X1*Y1*Z1^4*Y2^2*Z2 + 3*X1*Y1*Z1^4*X2^3
      + 1*X1*Y1^2*Z1^3*Y2*Z2^2 + 3*X1*Y1^3*Z1^2*Z2^3 + 3*X1^2*Z1^4*X2^2*Y2
      + (-6)*X1^2*Y1*Z1^3*X2^2*Z2) * h2

theorem add_chord_y (h1 : OnCurve X1 Y1 Z1) (h2 : OnCurve X2 Y2 Z2) :
    let u := Y2 * Z1 - Y1 * Z2
    let v := X2 * Z1 - X1 * Z2
    addY X1 Y1 Z1 X2 Y2 Z2 * (v ^ 3 * (Z1 * Z2)) =
      (u * (v ^ 2 * (X1 * Z2) - (u ^ 2 * (Z1 * Z2) - v ^ 3 - 2 * (v ^ 2 * (X1 * Z2)))) -
        v ^ 3 * (Y1 * Z2)) * addZ X1 Y1 Z1 X2 Y2 Z2 := by
  unfold OnCurve at *
  unfold addY addZ
  simp only
  linear_combination
    -(441*Z1^3*Z2^6 + (-42)*Z1^3*Y2^2*Z2^4 + (-21)*Y1*Z1^2*Y2*Z2^5 + (-2)*Y1*Z1^2*Y2^3*Z2^3
      + 21*Y1^2*Z1*Z2^6 + (-2)*Y1^2*Z1*Y2^2*Z2^4 + 1*Y1^3*Y2*Z2^5 + 126*X1*Z1^2*X2^2*Z2^4
      + 9*X1*Z1^2*X2^2*Y2^2*Z2^2 + (-6)*X1*Y1*Z1*X2^2*Y2*Z2^3 + 3*X1*Y1^2*X2^2*Z2^4
      + (-63)*X1^2*Z1*X2*Z2^5 + (-6)*X1^2*Z1*X2*Y2^2*Z2^3 + 3*X1^2*Y1*X2*Y2*Z2^4) * h1
    -((-441)*Z1^6*Z2^3 + (-21)*Z1^6*Y2^2*Z2 + 21*Y1*Z1^5*Y2*Z2^2 + (-1)*Y1*Z1^5*Y2^3
      + 42*Y1^2*Z1^4*Z2^3 + 2*Y1^2*Z1^4*Y2^2*Z2 + 2*Y1^3*Z1^3*Y2*Z2^2 + 63*X1*Z1^5*X2^2*Z2
      + (-3)*X1*Y1*Z1^4*X2^2*Y2 + 6*X1*Y1^2*Z1^3*X2^2*Z2 + (-126)*X1^2*Z1^4*X2*Z2^2
      + (-3)*X1^2*Z1^4*X2*Y2^2 + 6*X1^2*Y1*Z1^3*X2*Y2*Z2 + (-9)*X1^2*Y1^2*Z1^2*X2*Z2^2) * h2

/-- On one triple of the curve ADD is proportional to the tangent there. -/
theorem add_tangent_x (h1 : OnCurve X1 Y1 Z1) :
    let s := 2 * (Y1 * Z1)
    let w := 3 * X1 ^ 2
    addX X1 Y1 Z1 X1 Y1 Z1 * (s ^ 3 * Z1) =
      (w ^ 2 * Z1 - 2 * (X1 * s ^ 2)) * s * addZ X1 Y1 Z1 X1 Y1 Z1 := by
  unfold OnCurve at *
  unfold addX addZ
  simp only
  linear_combination
    -((-48)*X1*Y1^4*Z1^3 + (-108)*X1^4*Y1^2*Z1^2) * h1

theorem add_tangent_y (h1 : OnCurve X1 Y1 Z1) :
    let s := 2 * (Y1 * Z1)
    let w := 3 * X1 ^ 2
    addY X1 Y1 Z1 X1 Y1 Z1 * (s ^ 3 * Z1) =
      (w * (X1 * s ^ 2 - (w ^ 2 * Z1 - 2 * (X1 * s ^ 2))) - Y1 * s ^ 3) *
        addZ X1 Y1 Z1 X1 Y1 Z1 := by
  unfold OnCurve at *
  unfold addY addZ
  simp only
  linear_combination
    -((-504)*Y1^3*Z1^5 + (-24)*Y1^5*Z1^3 + 162*X1^6*Y1*Z1) * h1

end Identities

/-! ### Integers modulo P -/

/-- The field of integers modulo P. -/
abbrev Fp := ZMod Config.P.toNat

theorem P_cast : (Config.P.toNat : Int) = Config.P := by decide

theorem cast_modP (a : Int) : ((modP a : Int) : Fp) = (a : Fp) := by
  have h := ZMod.intCast_mod a Config.P.toNat
  rwa [P_cast] at h

theorem intCast_eq_iff (a b : Int) : ((a : Fp) = (b : Fp)) ↔ a % Config.P = b % Config.P := by
  have h := ZMod.intCast_eq_intCast_iff' a b Config.P.toNat
  rwa [P_cast] at h

theorem modP_eq_iff (a b : Int) : modP a = modP b ↔ (a : Fp) = (b : Fp) :=
  (intCast_eq_iff a b).symm

theorem cast_eq_zero_iff {a : Int} (h0 : 0 ≤ a) (h1 : a < Config.P) : (a : Fp) = 0 ↔ a = 0 := by
  have h := intCast_eq_iff a 0
  rw [Int.emod_eq_of_lt h0 h1] at h
  simpa using h

theorem eq_of_cast {a b : Int} (ha0 : 0 ≤ a) (ha1 : a < Config.P) (hb0 : 0 ≤ b)
    (hb1 : b < Config.P) (h : (a : Fp) = (b : Fp)) : a = b := by
  have := (intCast_eq_iff a b).mp h
  rwa [Int.emod_eq_of_lt ha0 ha1, Int.emod_eq_of_lt hb0 hb1] at this

/-! ### Stored triples -/

theorem toNat_ofInt_256 {v : Int} (h0 : 0 ≤ v) (h1 : v < 2 ^ 256) :
    ((BitVec.ofInt 256 v).toNat : Int) = v := by
  rw [BitVec.toNat_ofInt]
  have : v % ((2 ^ 256 : Nat) : Int) = v := Int.emod_eq_of_lt h0 (by simpa using h1)
  rw [this, Int.toNat_of_nonneg h0]

theorem mkPoint_X {x y z : Int} (h0 : 0 ≤ x) (h1 : x < 2 ^ 256) : (mkPoint x y z).X = x :=
  toNat_ofInt_256 h0 h1
theorem mkPoint_Y {x y z : Int} (h0 : 0 ≤ y) (h1 : y < 2 ^ 256) : (mkPoint x y z).Y = y :=
  toNat_ofInt_256 h0 h1
theorem mkPoint_Z {x y z : Int} (h0 : 0 ≤ z) (h1 : z < 2 ^ 256) : (mkPoint x y z).Z = z :=
  toNat_ofInt_256 h0 h1

theorem X_nonneg (p : Point) : 0 ≤ p.X := Int.natCast_nonneg _
theorem Y_nonneg (p : Point) : 0 ≤ p.Y := Int.natCast_nonneg _
theorem Z_nonneg (p : Point) : 0 ≤ p.Z := Int.natCast_nonneg _

theorem coord_lt (c : Coord) : (c.toNat : Int) < 2 ^ 256 := by exact_mod_cast c.isLt
theorem X_lt (p : Point) : p.X < 2 ^ 256 := coord_lt p.x
theorem Y_lt (p : Point) : p.Y < 2 ^ 256 := coord_lt p.y
theorem Z_lt (p : Point) : p.Z < 2 ^ 256 := coord_lt p.z

theorem point_ext {p q : Point} (hx : p.X = q.X) (hy : p.Y = q.Y) (hz : p.Z = q.Z) : p = q := by
  cases p; cases q
  simp only [Point.X, Point.Y, Point.Z, Int.natCast_inj, BitVec.toNat_inj] at hx hy hz
  simp [hx, hy, hz]

/-- The integer curve equation of Safety.lean is the equation over the field. -/
theorem onCurve_iff (p : Point) : p.onCurve ↔ OnCurve (p.X : Fp) (p.Y : Fp) (p.Z : Fp) := by
  unfold Point.onCurve OnCurve
  have h := intCast_eq_iff (p.Y ^ 2 * p.Z - (p.X ^ 3 + Config.b * p.Z ^ 3)) 0
  rw [Int.zero_emod] at h
  rw [← h, ← sub_eq_zero (a := (p.Y : Fp) ^ 2 * p.Z), show Config.b = 7 from rfl]
  push_cast
  rfl

/-- ADD in closed form: each coordinate is the residue of a polynomial in the inputs
(41_point.md R252). -/
theorem pointAdd_spec (p q : Point) : ∃ x y z : Int,
    pointAdd p q = mkPoint (modP x) (modP y) (modP z) ∧
    (x : Fp) = addX (p.X : Fp) p.Y p.Z q.X q.Y q.Z ∧
    (y : Fp) = addY (p.X : Fp) p.Y p.Z q.X q.Y q.Z ∧
    (z : Fp) = addZ (p.X : Fp) p.Y p.Z q.X q.Y q.Z := by
  refine ⟨_, _, _, rfl, ?_, ?_, ?_⟩ <;>
  · simp only [Int.cast_add, Int.cast_sub, Int.cast_mul, cast_modP, addX, addY, addZ,
      show Config.a = 0 from rfl, show Config.b3 = 21 from rfl]
    push_cast
    ring

theorem pointAdd_X (p q : Point) :
    ((pointAdd p q).X : Fp) = addX (p.X : Fp) p.Y p.Z q.X q.Y q.Z := by
  obtain ⟨x, y, z, h, hx, -, -⟩ := pointAdd_spec p q
  rw [h, mkPoint_X (modP_nonneg x) (modP_lt_bound x), cast_modP, hx]

theorem pointAdd_Y (p q : Point) :
    ((pointAdd p q).Y : Fp) = addY (p.X : Fp) p.Y p.Z q.X q.Y q.Z := by
  obtain ⟨x, y, z, h, -, hy, -⟩ := pointAdd_spec p q
  rw [h, mkPoint_Y (modP_nonneg y) (modP_lt_bound y), cast_modP, hy]

theorem pointAdd_Z (p q : Point) :
    ((pointAdd p q).Z : Fp) = addZ (p.X : Fp) p.Y p.Z q.X q.Y q.Z := by
  obtain ⟨x, y, z, h, -, -, hz⟩ := pointAdd_spec p q
  rw [h, mkPoint_Z (modP_nonneg z) (modP_lt_bound z), cast_modP, hz]

/-! ### Every result has coordinates in [0, P) (10_state.md R47) -/

theorem mkPoint_canonical {x y z : Int} (hx0 : 0 ≤ x) (hx : x < Config.P) (hy0 : 0 ≤ y)
    (hy : y < Config.P) (hz0 : 0 ≤ z) (hz : z < Config.P) : (mkPoint x y z).canonical :=
  ⟨by rwa [mkPoint_X hx0 (hx.trans P_lt)], by rwa [mkPoint_Y hy0 (hy.trans P_lt)],
    by rwa [mkPoint_Z hz0 (hz.trans P_lt)]⟩

theorem pointAdd_canonical (p q : Point) : (pointAdd p q).canonical := by
  obtain ⟨x, y, z, h, -, -, -⟩ := pointAdd_spec p q
  rw [h]
  exact mkPoint_canonical (modP_nonneg _) (modP_lt _) (modP_nonneg _) (modP_lt _)
    (modP_nonneg _) (modP_lt _)

theorem zero_canonical : Config.zero.canonical := by
  refine ⟨?_, ?_, ?_⟩ <;> decide +kernel
theorem base_canonical : Config.base.canonical := by
  refine ⟨?_, ?_, ?_⟩ <;> decide +kernel

theorem zero_onCurve : Config.zero.onCurve := by unfold Point.onCurve; decide +kernel
theorem base_onCurve : Config.base.onCurve := by unfold Point.onCurve; decide +kernel

/-- Two canonical triples with the same residues are the same triple. -/
theorem point_eq_of_cast {p q : Point} (hp : p.canonical) (hq : q.canonical)
    (hx : (p.X : Fp) = q.X) (hy : (p.Y : Fp) = q.Y) (hz : (p.Z : Fp) = q.Z) : p = q :=
  point_ext (eq_of_cast (X_nonneg p) hp.1 (X_nonneg q) hq.1 hx)
    (eq_of_cast (Y_nonneg p) hp.2.1 (Y_nonneg q) hq.2.1 hy)
    (eq_of_cast (Z_nonneg p) hp.2.2 (Z_nonneg q) hq.2.2 hz)

/-! ### Negation and equality (41_point.md R255, R256) -/

theorem pointNeg_X (p : Point) : (pointNeg p).X = p.X := rfl
theorem pointNeg_Y (p : Point) : (pointNeg p).Y = modP (-p.Y) :=
  toNat_ofInt_256 (modP_nonneg _) (modP_lt_bound _)
theorem pointNeg_Z (p : Point) : (pointNeg p).Z = p.Z := rfl

theorem pointNeg_canonical {p : Point} (h : p.canonical) : (pointNeg p).canonical :=
  ⟨h.1, by rw [pointNeg_Y]; exact modP_lt _, h.2.2⟩

theorem pointNeg_onCurve {p : Point} (h : p.onCurve) : (pointNeg p).onCurve := by
  rw [onCurve_iff] at *
  rw [pointNeg_X, pointNeg_Y, pointNeg_Z, cast_modP]
  unfold OnCurve at *
  push_cast
  rw [neg_sq]
  exact h

theorem pointAdd_onCurve {p q : Point} (hp : p.onCurve) (hq : q.onCurve) :
    (pointAdd p q).onCurve := by
  rw [onCurve_iff] at *
  rw [pointAdd_X, pointAdd_Y, pointAdd_Z]
  exact add_onCurve hp hq

theorem pointEq_iff (p q : Point) : pointEq p q = true ↔
    (p.X : Fp) * q.Z = q.X * p.Z ∧ (p.Y : Fp) * q.Z = q.Y * p.Z := by
  simp only [pointEq, Bool.and_eq_true, decide_eq_true_eq, modP_eq_iff, Int.cast_mul]

/-- A triple equals ZERO exactly when Z = 0 (41_point.md R262). -/
theorem pointEq_zero_iff {p : Point} (h : p.canonical) :
    pointEq p Config.zero = true ↔ p.Z = 0 := by
  rw [pointEq_iff, ← cast_eq_zero_iff (Z_nonneg p) h.2.2]
  have h0 : Config.zero.X = 0 := by decide +kernel
  have h1 : Config.zero.Y = 1 := by decide +kernel
  have h2 : Config.zero.Z = 0 := by decide +kernel
  simp [h0, h1, h2, eq_comm]

/-! ### Affine conversion (41_point.md R260–R265) -/

/-- `toAffine` always succeeds on a canonical triple, with (0, 0) for Z = 0 and otherwise the
coordinates x, y in [0, P) with x·Z ≡ X and y·Z ≡ Y. -/
theorem toAffine_spec {p : Point} (h : p.canonical) :
    ∃ x y, toAffine p = .ok (x, y) ∧ 0 ≤ x ∧ x < Config.P ∧ 0 ≤ y ∧ y < Config.P ∧
      (p.Z = 0 → x = 0 ∧ y = 0) ∧
      (p.Z ≠ 0 → (x : Fp) * p.Z = p.X ∧ (y : Fp) * p.Z = p.Y) := by
  unfold toAffine
  by_cases hz : p.Z = 0
  · rw [if_pos ((pointEq_zero_iff h).mpr hz)]
    exact ⟨0, 0, rfl, le_rfl, P_pos, le_rfl, P_pos, fun _ => ⟨rfl, rfl⟩, fun hn => absurd hz hn⟩
  · rw [if_neg (fun hc => hz ((pointEq_zero_iff h).mp hc))]
    by_cases h1 : p.Z = 1
    · rw [if_pos h1]
      exact ⟨p.X, p.Y, rfl, X_nonneg p, h.1, Y_nonneg p, h.2.1, fun hn => absurd hn hz,
        fun _ => by simp [h1]⟩
    · rw [if_neg h1]
      have hne : emod p.Z Config.P ≠ 0 := by
        rw [emod_of_range (Z_nonneg p) h.2.2]; exact hz
      obtain ⟨iz, hiz, -, -, hinv⟩ := Sys2Proof.Laws.invert_P_ok hne
      have hone : modP (p.Z * iz) = 1 := by rw [mul_comm]; exact hinv
      have hc : (iz : Fp) * p.Z = 1 := by
        have := cast_modP (p.Z * iz)
        rw [hone] at this
        push_cast at this
        rw [mul_comm, ← this]
      refine ⟨modP (p.X * iz), modP (p.Y * iz), ?_, modP_nonneg _, modP_lt _, modP_nonneg _,
        modP_lt _, fun hn => absurd hn hz, fun _ => ?_⟩
      · rw [hiz]; simp only [hone, ne_eq, not_true_eq_false, if_false]
      · simp only [cast_modP, Int.cast_mul, mul_assoc, hc, mul_one, and_self]

theorem fromAffine_canonical {x y : Int} (hx : coordOk x = true) (hy : coordOk y = true) :
    (fromAffine x y).canonical := by
  simp only [coordOk, Bool.and_eq_true, decide_eq_true_eq] at hx hy
  unfold fromAffine
  split
  · exact zero_canonical
  · exact mkPoint_canonical hx.1 hx.2 hy.1 hy.2 (by decide) (by decide)

/-- Whatever `fromX` returns is the triple (x, y, 1) with y a root of the right parity. -/
theorem fromX_spec {x : Int} {odd : Bool} {q : Point} (h : fromX x odd = .ok q) :
    ∃ y, q = mkPoint x y 1 ∧ 0 ≤ y ∧ y < Config.P ∧
      (y * y) % Config.P = (x * x * x + 7) % Config.P ∧
      (y ≠ 0 → decide (y % 2 = 1) = odd) := by
  unfold fromX at h
  cases hs : sqrtP (modP (x * x * x + Config.b)) with
  | error c => rw [hs] at h; simp at h
  | ok r =>
    rw [hs] at h
    obtain ⟨h0, h1, hsq, -⟩ := sqrtP_sound hs
    simp only [Except.ok.injEq] at h
    have hb : modP (x * x * x + Config.b) % Config.P = (x * x * x + 7) % Config.P :=
      Int.emod_emod_of_dvd _ dvd_rfl
    rw [hb] at hsq
    refine ⟨_, h.symm, ?_, ?_, ?_, ?_⟩
    · split
      · exact modP_nonneg _
      · exact h0
    · split
      · exact modP_lt _
      · exact h1
    · split
      · rw [← hsq, ← intCast_eq_iff]
        simp only [Int.cast_mul, cast_modP, Int.cast_neg, neg_mul_neg]
      · exact hsq
    · split
      · next hp =>
        intro hne
        have hr : 0 < r := by
          rcases h0.lt_or_eq with hlt | heq
          · exact hlt
          · exfalso; apply hne; rw [← heq]; decide
        have : modP (-r) = Config.P - r := by
          have e : -r = (Config.P - r) - Config.P := by omega
          rw [modP, emod, e, Int.sub_emod_right, Int.emod_eq_of_lt (by omega) (by omega)]
        rw [this]
        have hodd : Config.P % 2 = 1 := by decide
        cases odd
        · simp at hp ⊢; omega
        · simp at hp ⊢; omega
      · next hp => intro _; exact not_not.mp hp

theorem fromX_canonical {x : Int} {odd : Bool} {q : Point} (hx : coordOk x = true)
    (h : fromX x odd = .ok q) : q.canonical := by
  simp only [coordOk, Bool.and_eq_true, decide_eq_true_eq] at hx
  obtain ⟨y, rfl, h0, h1, -, -⟩ := fromX_spec h
  exact mkPoint_canonical hx.1 hx.2 h0 h1 (by decide) (by decide)

theorem fromX_onCurve {x : Int} {odd : Bool} {q : Point} (hx : coordOk x = true)
    (h : fromX x odd = .ok q) : q.onCurve := by
  simp only [coordOk, Bool.and_eq_true, decide_eq_true_eq] at hx
  obtain ⟨y, rfl, h0, h1, hsq, -⟩ := fromX_spec h
  rw [onCurve_iff, mkPoint_X hx.1 (hx.2.trans P_lt), mkPoint_Y h0 (h1.trans P_lt),
    mkPoint_Z (by decide) (by decide)]
  have := (intCast_eq_iff _ _).mpr hsq
  push_cast at this
  unfold OnCurve
  push_cast
  linear_combination this

/-- The only error of `fromX` is NO_SQRT (41_point.md R266). -/
theorem fromX_error {x : Int} {odd : Bool} {c : Cause} (h : fromX x odd = .error c) :
    c = .noSqrt := by
  unfold fromX at h
  cases hs : sqrtP (modP (x * x * x + Config.b)) with
  | error c' =>
    rw [hs] at h
    simp only [Except.error.injEq] at h
    exact h ▸ sqrtP_error hs
  | ok r => rw [hs] at h; simp at h

/-- A square has a root: the check of 40_field.md R220 fails exactly on non-residues. -/
theorem sqrtP_of_square {a y : Int} (hy : (y * y) % Config.P = a % Config.P) :
    ∃ r, sqrtP a = .ok r := by
  have : Fact (Nat.Prime Config.P.toNat) := ⟨Sys2Proof.Laws.prime_P⟩
  have hy' : (y : Fp) * y = (a : Fp) := by
    have h := (intCast_eq_iff _ _).mpr hy
    push_cast at h
    exact h
  have hc : modP (powMod (modP a) Config.sqrtExp Config.P *
      powMod (modP a) Config.sqrtExp Config.P) = modP a := by
    have c : ∀ b : Int, ((b % Config.P : Int) : Fp) = (b : Fp) := cast_modP
    rw [modP_eq_iff, powMod_eq _ _ _ sqrtExp_lt, Int.cast_mul, c]
    push_cast
    rw [cast_modP, ← pow_add, ← two_mul, ← hy', ← pow_two, ← pow_mul,
      show 2 * (2 * Config.sqrtExp) = Config.P.toNat + 1 by decide +kernel, pow_succ,
      ZMod.pow_card, pow_two]
  exact ⟨_, by unfold sqrtP; simp only; rw [if_pos hc]⟩

/-- `fromX` succeeds on the x-coordinates of curve points (41_point.md R265). -/
theorem fromX_of_square {x y : Int} (odd : Bool)
    (hy : (y * y) % Config.P = (x ^ 3 + 7) % Config.P) : ∃ q, fromX x odd = .ok q := by
  have hb : (y * y) % Config.P = modP (x * x * x + Config.b) % Config.P := by
    rw [hy, modP, emod, Int.emod_emod_of_dvd _ dvd_rfl, show Config.b = 7 from rfl]
    ring_nf
  obtain ⟨r, hr⟩ := sqrtP_of_square hb
  unfold fromX
  rw [hr]
  exact ⟨_, rfl⟩

/-- A number in [0, P) with the residue of v is v mod P. -/
theorem eq_emod_of_cast {c v : Int} (h0 : 0 ≤ c) (h1 : c < Config.P) (h : (c : Fp) = (v : Fp)) :
    c = v % Config.P := by
  have := (intCast_eq_iff c v).mp h
  rwa [Int.emod_eq_of_lt h0 h1] at this

/-- A congruence modulo P is an equation over the field. -/
theorem emod_sub_eq_zero_iff (a b : Int) : (a - b) % Config.P = 0 ↔ (a : Fp) = (b : Fp) := by
  rw [intCast_eq_iff, Int.emod_eq_emod_iff_emod_sub_eq_zero]

end Sys2Proof.Machine
end

