-- ==== Sys2Proof/Laws/Group.lean ====
section
/-! SUPPORT. The triples of the point family and the group of the curve: Mathlib's group of the
curve y² = x³ + 7 over the integers modulo P is the meaning of a triple (41_point.md R250), and
ADD, PNEG and equality are that group's (R252, R256, R267). The curve has no point of order two
(00_scope.md R25), which is why the addition is complete. -/

namespace Sys2Proof.Machine

theorem fact_prime_P : Fact (Nat.Prime Config.P.toNat) := ⟨Sys2Proof.Laws.prime_P⟩

/-- The curve of 00_scope.md R22. -/
def curve : WeierstrassCurve.Affine Fp := ⟨0, 0, 0, 0, 7⟩

section

variable [Fact (Nat.Prime Config.P.toNat)]

/-! ### Constants of the field -/

theorem natCast_ne_zero {k : Nat} (h0 : k ≠ 0) (h1 : (k : Int) < Config.P) : (k : Fp) ≠ 0 := by
  have := (cast_eq_zero_iff (a := k) (Int.natCast_nonneg k) h1).not
  rw [Int.cast_natCast] at this
  exact this.mpr (by exact_mod_cast h0)

theorem two_ne_zero_Fp : (2 : Fp) ≠ 0 := by
  exact_mod_cast natCast_ne_zero (k := 2) (by decide) (by decide)

/-- A power of a number that is not 1, by the model's own `powMod`. -/
theorem cast_pow_ne_one {a : Int} {e : Nat} (he : e < 2 ^ 256) (h : powMod a e Config.P ≠ 1) :
    (a : Fp) ^ e ≠ 1 := by
  intro hc
  apply h
  rw [powMod_eq a e _ he, ← show (1 : Int) % Config.P = 1 by decide]
  exact (intCast_eq_iff _ _).mp (by push_cast; exact hc)

/-- −7 is not a cube, so no point has y = 0 (00_scope.md R25). -/
theorem cube_ne (x : Fp) : x ^ 3 + 7 ≠ 0 := by
  intro h
  have hx : x ≠ 0 := by
    rintro rfl
    apply natCast_ne_zero (k := 7) (by decide) (by decide)
    simpa using h
  have h1 := ZMod.pow_card_sub_one_eq_one hx
  have h2 : x ^ 3 = ((-7 : Int) : Fp) := by push_cast; linear_combination h
  rw [show Config.P.toNat - 1 = 3 * ((Config.P.toNat - 1) / 3) by decide +kernel, pow_mul, h2] at h1
  exact cast_pow_ne_one (by decide +kernel) (by decide +kernel) h1

/-- 7 is not a square, so no point has x = 0 (00_scope.md R25). -/
theorem square_ne (y : Fp) : y ^ 2 ≠ 7 := by
  intro h
  have hy : y ≠ 0 := by
    rintro rfl
    apply natCast_ne_zero (k := 7) (by decide) (by decide)
    simpa using h.symm
  have h1 := ZMod.pow_card_sub_one_eq_one hy
  have h2 : y ^ 2 = ((7 : Int) : Fp) := by push_cast; exact h
  rw [show Config.P.toNat - 1 = 2 * ((Config.P.toNat - 1) / 2) by decide +kernel, pow_mul, h2] at h1
  exact cast_pow_ne_one (by decide +kernel) (by decide +kernel) h1

/-! ### The curve's points -/

theorem curve_equation {x y : Fp} : curve.Equation x y ↔ y ^ 2 = x ^ 3 + 7 := by
  rw [WeierstrassCurve.Affine.equation_iff]
  simp [curve]

theorem y_ne_zero {x y : Fp} (h : y ^ 2 = x ^ 3 + 7) : y ≠ 0 := by
  rintro rfl
  exact cube_ne x (by rw [← h]; ring)

theorem curve_nonsingular {x y : Fp} : curve.Nonsingular x y ↔ y ^ 2 = x ^ 3 + 7 := by
  rw [WeierstrassCurve.Affine.nonsingular_iff, curve_equation]
  refine ⟨And.left, fun h => ⟨h, Or.inr ?_⟩⟩
  simp only [curve, zero_mul, sub_zero]
  intro hy
  have : 2 * y = 0 := by linear_combination hy
  exact (mul_ne_zero two_ne_zero_Fp (y_ne_zero h)) this

theorem negY_eq (x y : Fp) : curve.negY x y = -y := by
  simp [WeierstrassCurve.Affine.negY, curve]

/-- A triple of field elements stands for a point of the curve (41_point.md R250): Z = 0 for the
identity, where X = 0 and Y ≠ 0, and otherwise (X, Y) = (x·Z, y·Z). -/
def Stands (X Y Z : Fp) : curve.Point → Prop
  | .zero => X = 0 ∧ Z = 0 ∧ Y ≠ 0
  | .some x y _ => Z ≠ 0 ∧ X = x * Z ∧ Y = y * Z

/-- ADD on two affine points of the curve. -/
theorem stands_add_affine {x1 y1 x2 y2 : Fp} (h1 : curve.Nonsingular x1 y1)
    (h2 : curve.Nonsingular x2 y2) :
    Stands (addX x1 y1 1 x2 y2 1) (addY x1 y1 1 x2 y2 1) (addZ x1 y1 1 x2 y2 1)
      (.some x1 y1 h1 + .some x2 y2 h2) := by
  have e1 := curve_nonsingular.mp h1
  have e2 := curve_nonsingular.mp h2
  have c1 : OnCurve x1 y1 1 := by unfold OnCurve; linear_combination e1
  have c2 : OnCurve x2 y2 1 := by unfold OnCurve; linear_combination e2
  by_cases hx : x1 = x2
  · subst hx
    have hy : y1 = y2 ∨ y1 = -y2 := by
      have : (y1 - y2) * (y1 + y2) = 0 := by linear_combination e1 - e2
      rcases mul_eq_zero.mp this with h | h
      · exact .inl (sub_eq_zero.mp h)
      · exact .inr (eq_neg_of_add_eq_zero_left h)
    have h2 := two_ne_zero_Fp
    by_cases hneg : y1 = -y2
    · rw [WeierstrassCurve.Affine.Point.add_of_Y_eq rfl (by rw [negY_eq]; exact hneg)]
      have e : y2 = -y1 := by rw [hneg, neg_neg]
      subst e
      refine ⟨by unfold addX; ring, by unfold addZ; ring, ?_⟩
      -- the y-coordinate of the doubled point is not 0
      have hne : y1 ≠ curve.negY x1 y1 := by
        rw [negY_eq]
        intro h
        have : 2 * y1 = 0 := by linear_combination h
        exact (mul_ne_zero two_ne_zero_Fp (y_ne_zero e1)) this
      have hd := y_ne_zero (curve_nonsingular.mp
        (WeierstrassCurve.Affine.nonsingular_add h1 h1 fun hxy => hne hxy.right))
      intro h0
      apply hd
      rw [WeierstrassCurve.Affine.slope_of_Y_ne rfl hne]
      have hy1 := y_ne_zero e1
      have h2y : y1 + y1 ≠ 0 := by
        rw [← two_mul]; exact mul_ne_zero two_ne_zero_Fp hy1
      have h3 : y1 ^ 4 + 126 * y1 ^ 2 - 1323 = 0 := by
        unfold addY at h0
        linear_combination h0 + 126 * e1
      simp only [WeierstrassCurve.Affine.addY, WeierstrassCurve.Affine.negAddY,
        WeierstrassCurve.Affine.addX, negY_eq]
      simp only [curve, zero_mul, mul_zero, add_zero, sub_zero, sub_neg_eq_add, ← two_mul]
      field_simp
      linear_combination h3 + (27 * x1 ^ 3 - 9 * y1 ^ 2 - 189) * e1
    · have hy' : y1 = y2 := hy.resolve_right hneg
      subst hy'
      have hne : y1 ≠ curve.negY x1 y1 := by rw [negY_eq]; exact hneg
      rw [WeierstrassCurve.Affine.Point.add_self_of_Y_ne hne]
      have hy1 := y_ne_zero e1
      have h2y : y1 + y1 ≠ 0 := by
        rw [← two_mul]; exact mul_ne_zero two_ne_zero_Fp hy1
      have hz : addZ x1 y1 1 x1 y1 1 = (y1 + y1) ^ 3 := by
        unfold addZ; linear_combination (-6 * y1) * e1
      have hs : (y1 + y1) ^ 3 ≠ 0 := pow_ne_zero 3 h2y
      have tx := add_tangent_x c1
      have ty := add_tangent_y c1
      simp only [mul_one] at tx ty
      refine ⟨by rw [hz]; exact hs, ?_, ?_⟩
      · rw [WeierstrassCurve.Affine.slope_of_Y_ne rfl hne]
        simp only [WeierstrassCurve.Affine.addX, negY_eq]
        simp only [curve, zero_mul, mul_zero, add_zero, sub_zero, sub_neg_eq_add, ← two_mul]
        apply mul_right_cancel₀ hs
        rw [show (y1 + y1) ^ 3 = (2 * y1) ^ 3 by ring, tx]
        field_simp
        ring
      · rw [WeierstrassCurve.Affine.slope_of_Y_ne rfl hne]
        simp only [WeierstrassCurve.Affine.addY, WeierstrassCurve.Affine.negAddY,
          WeierstrassCurve.Affine.addX, negY_eq]
        simp only [curve, zero_mul, mul_zero, add_zero, sub_zero, sub_neg_eq_add, ← two_mul]
        apply mul_right_cancel₀ hs
        rw [show (y1 + y1) ^ 3 = (2 * y1) ^ 3 by ring, ty]
        field_simp
        ring
  · rw [WeierstrassCurve.Affine.Point.add_of_X_ne hx]
    have hv : x2 - x1 ≠ 0 := sub_ne_zero.mpr (Ne.symm hx)
    have hv' : x1 - x2 ≠ 0 := sub_ne_zero.mpr hx
    have hv3 : (x2 - x1) ^ 3 ≠ 0 := pow_ne_zero 3 hv
    -- Z is the y-coordinate of the difference times (x2 − x1)³
    have h2' : curve.Nonsingular x2 (-y2) := curve_nonsingular.mpr (by rw [neg_sq]; exact e2)
    have hd := y_ne_zero (curve_nonsingular.mp
      (WeierstrassCurve.Affine.nonsingular_add h1 h2' fun hxy => hx hxy.left))
    have hz : addZ x1 y1 1 x2 y2 1 ≠ 0 := by
      intro h0
      apply hd
      rw [WeierstrassCurve.Affine.slope_of_X_ne hx]
      simp only [WeierstrassCurve.Affine.addY, WeierstrassCurve.Affine.negAddY,
        WeierstrassCurve.Affine.addX, negY_eq]
      simp only [curve, zero_mul, add_zero, sub_zero, sub_neg_eq_add]
      field_simp
      unfold addZ at h0
      linear_combination (-1 : Fp) * h0 + (-2 * y2 - y1) * e1 + (-y2 - 2 * y1) * e2
    have tx := add_chord_x c1 c2
    have ty := add_chord_y c1 c2
    simp only [mul_one] at tx ty
    refine ⟨hz, ?_, ?_⟩
    · rw [WeierstrassCurve.Affine.slope_of_X_ne hx]
      simp only [WeierstrassCurve.Affine.addX]
      simp only [curve, zero_mul, add_zero, sub_zero]
      apply mul_right_cancel₀ hv3
      rw [tx]
      field_simp
      ring
    · rw [WeierstrassCurve.Affine.slope_of_X_ne hx]
      simp only [WeierstrassCurve.Affine.addY, WeierstrassCurve.Affine.negAddY,
        WeierstrassCurve.Affine.addX, negY_eq]
      simp only [curve, zero_mul, add_zero, sub_zero]
      apply mul_right_cancel₀ hv3
      rw [ty]
      field_simp
      ring

/-- ADD is the group's sum, for any two triples that stand for points (41_point.md R252). -/
theorem stands_add {X1 Y1 Z1 X2 Y2 Z2 : Fp} {g h : curve.Point} (hp : Stands X1 Y1 Z1 g)
    (hq : Stands X2 Y2 Z2 h) :
    Stands (addX X1 Y1 Z1 X2 Y2 Z2) (addY X1 Y1 Z1 X2 Y2 Z2) (addZ X1 Y1 Z1 X2 Y2 Z2)
      (g + h) := by
  cases g with
  | zero =>
    obtain ⟨rfl, rfl, hy1⟩ := hp
    rw [← WeierstrassCurve.Affine.Point.zero_def, zero_add]
    cases h with
    | zero =>
      obtain ⟨rfl, rfl, hy2⟩ := hq
      refine ⟨by unfold addX; ring, by unfold addZ; ring, ?_⟩
      rw [show addY 0 Y1 0 0 Y2 0 = (Y1 * Y2) ^ 2 by unfold addY; ring]
      exact pow_ne_zero 2 (mul_ne_zero hy1 hy2)
    | some x y hn =>
      obtain ⟨hz, rfl, rfl⟩ := hq
      have hy := y_ne_zero (curve_nonsingular.mp hn)
      refine ⟨?_, by unfold addX addZ; ring, by unfold addY addZ; ring⟩
      rw [show addZ 0 Y1 0 (x * Z2) (y * Z2) Z2 = (Y1 * Z2) ^ 2 * y by unfold addZ; ring]
      exact mul_ne_zero (pow_ne_zero 2 (mul_ne_zero hy1 hz)) hy
  | some x1 y1 hn1 =>
    obtain ⟨hz1, rfl, rfl⟩ := hp
    cases h with
    | zero =>
      obtain ⟨rfl, rfl, hy2⟩ := hq
      rw [← WeierstrassCurve.Affine.Point.zero_def, add_zero]
      have hy := y_ne_zero (curve_nonsingular.mp hn1)
      refine ⟨?_, by unfold addX addZ; ring, by unfold addY addZ; ring⟩
      rw [show addZ (x1 * Z1) (y1 * Z1) Z1 0 Y2 0 = (Y2 * Z1) ^ 2 * y1 by unfold addZ; ring]
      exact mul_ne_zero (pow_ne_zero 2 (mul_ne_zero hy2 hz1)) hy
    | some x2 y2 hn2 =>
      obtain ⟨hz2, rfl, rfl⟩ := hq
      have ha := stands_add_affine hn1 hn2
      have hk : (Z1 * Z2) ^ 2 ≠ 0 := pow_ne_zero 2 (mul_ne_zero hz1 hz2)
      have ex : addX (x1 * Z1) (y1 * Z1) Z1 (x2 * Z2) (y2 * Z2) Z2 =
          (Z1 * Z2) ^ 2 * addX x1 y1 1 x2 y2 1 := by unfold addX; ring
      have ey : addY (x1 * Z1) (y1 * Z1) Z1 (x2 * Z2) (y2 * Z2) Z2 =
          (Z1 * Z2) ^ 2 * addY x1 y1 1 x2 y2 1 := by unfold addY; ring
      have ez : addZ (x1 * Z1) (y1 * Z1) Z1 (x2 * Z2) (y2 * Z2) Z2 =
          (Z1 * Z2) ^ 2 * addZ x1 y1 1 x2 y2 1 := by unfold addZ; ring
      rw [ex, ey, ez]
      generalize WeierstrassCurve.Affine.Point.some x1 y1 hn1 + .some x2 y2 hn2 = r at ha ⊢
      cases r with
      | zero =>
        obtain ⟨a, b, c⟩ := ha
        exact ⟨by rw [a, mul_zero], by rw [b, mul_zero], mul_ne_zero hk c⟩
      | some x y hn =>
        obtain ⟨a, b, c⟩ := ha
        exact ⟨mul_ne_zero hk a, by rw [b]; ring, by rw [c]; ring⟩

/-! ### Stored triples and points of the curve -/

/-- A stored triple is canonical and stands for the point g of the curve. -/
def Rep (p : Point) (g : curve.Point) : Prop :=
  p.canonical ∧ Stands (p.X : Fp) (p.Y : Fp) (p.Z : Fp) g

theorem rep_add {p q : Point} {g h : curve.Point} (hp : Rep p g) (hq : Rep q h) :
    Rep (pointAdd p q) (g + h) := by
  refine ⟨pointAdd_canonical p q, ?_⟩
  rw [pointAdd_X, pointAdd_Y, pointAdd_Z]
  exact stands_add hp.2 hq.2

theorem rep_neg {p : Point} {g : curve.Point} (hp : Rep p g) : Rep (pointNeg p) (-g) := by
  refine ⟨pointNeg_canonical hp.1, ?_⟩
  rw [pointNeg_X, pointNeg_Y, pointNeg_Z, cast_modP, Int.cast_neg]
  have h := hp.2
  cases g with
  | zero => exact ⟨h.1, h.2.1, neg_ne_zero.mpr h.2.2⟩
  | some x y hn =>
    rw [WeierstrassCurve.Affine.Point.neg_some]
    exact ⟨h.1, h.2.1, by rw [negY_eq, h.2.2, neg_mul]⟩

theorem rep_zero : Rep Config.zero 0 := by
  refine ⟨zero_canonical, ?_, ?_, ?_⟩
  · rw [show Config.zero.X = 0 by decide +kernel, Int.cast_zero]
  · rw [show Config.zero.Z = 0 by decide +kernel, Int.cast_zero]
  · rw [show Config.zero.Y = 1 by decide +kernel, Int.cast_one]; exact one_ne_zero

/-- A triple on the curve that is not (0, 0, 0) stands for a point. -/
theorem rep_of_onCurve {p : Point} (hc : p.canonical) (ho : p.onCurve)
    (h0 : ¬(p.X = 0 ∧ p.Y = 0 ∧ p.Z = 0)) : ∃ g, Rep p g := by
  rw [onCurve_iff] at ho
  unfold OnCurve at ho
  by_cases hz : p.Z = 0
  · refine ⟨0, hc, ?_⟩
    have hz' : (p.Z : Fp) = 0 := by rw [hz, Int.cast_zero]
    have hx' : (p.X : Fp) = 0 := by
      rw [hz'] at ho
      exact pow_eq_zero_iff (n := 3) (by decide) |>.mp (by linear_combination -ho)
    refine ⟨hx', hz', fun hy' => h0 ⟨?_, ?_, hz⟩⟩
    · exact (cast_eq_zero_iff (X_nonneg p) hc.1).mp hx'
    · exact (cast_eq_zero_iff (Y_nonneg p) hc.2.1).mp hy'
  · have hz' : (p.Z : Fp) ≠ 0 := fun h => hz ((cast_eq_zero_iff (Z_nonneg p) hc.2.2).mp h)
    have hn : curve.Nonsingular ((p.X : Fp) / p.Z) ((p.Y : Fp) / p.Z) := by
      rw [curve_nonsingular]
      field_simp
      linear_combination ho
    exact ⟨.some _ _ hn, hc, hz', by field_simp, by field_simp⟩

/-- A triple that stands for a point is on the curve, and is not (0, 0, 0). -/
theorem onCurve_of_rep {p : Point} {g : curve.Point} (h : Rep p g) :
    p.onCurve ∧ ¬(p.X = 0 ∧ p.Y = 0 ∧ p.Z = 0) := by
  obtain ⟨hc, h⟩ := h
  rw [onCurve_iff]
  unfold OnCurve
  cases g with
  | zero =>
    obtain ⟨hx, hz, hy⟩ := h
    exact ⟨by rw [hx, hz]; ring, fun h0 => hy (by rw [h0.2.1, Int.cast_zero])⟩
  | some x y hn =>
    obtain ⟨hz, hx, hy⟩ := h
    refine ⟨?_, fun h0 => hz (by rw [h0.2.2, Int.cast_zero])⟩
    rw [hx, hy]
    linear_combination (p.Z : Fp) ^ 3 * curve_nonsingular.mp hn

/-- The curve points and the identity are the triples that stand for a point. -/
theorem isCurvePoint_iff (p : Point) : p.isCurvePoint ↔ ∃ g, Rep p g :=
  ⟨fun h => rep_of_onCurve h.1 h.2.1 h.2.2,
    fun ⟨_, h⟩ => ⟨h.1, (onCurve_of_rep h).1, (onCurve_of_rep h).2⟩⟩

/-- `equals` is equality of points (41_point.md R256). -/
theorem pointEq_rep {p q : Point} {g h : curve.Point} (hp : Rep p g) (hq : Rep q h) :
    pointEq p q = true ↔ g = h := by
  obtain ⟨-, hp⟩ := hp
  obtain ⟨-, hq⟩ := hq
  rw [pointEq_iff]
  cases g with
  | zero =>
    obtain ⟨hx, hz, hy⟩ := hp
    cases h with
    | zero =>
      obtain ⟨hx', hz', hy'⟩ := hq
      simp [hx, hz, hx', hz']
    | some x y hn =>
      obtain ⟨hz', hx', hy'⟩ := hq
      simp [hx, hz, hx', hy', hz', hy]
  | some x1 y1 hn1 =>
    obtain ⟨hz1, hx1, hy1⟩ := hp
    cases h with
    | zero =>
      obtain ⟨hx, hz, hy⟩ := hq
      simp [hx, hz, hz1, hy]
    | some x2 y2 hn2 =>
      obtain ⟨hz2, hx2, hy2⟩ := hq
      rw [hx1, hy1, hx2, hy2, WeierstrassCurve.Affine.Point.some.injEq]
      have hk : (p.Z : Fp) * q.Z ≠ 0 := mul_ne_zero hz1 hz2
      constructor
      · rintro ⟨a, b⟩
        exact ⟨mul_right_cancel₀ hk (by linear_combination a),
          mul_right_cancel₀ hk (by linear_combination b)⟩
      · rintro ⟨rfl, rfl⟩
        exact ⟨by ring, by ring⟩

theorem rep_unique {p : Point} {g h : curve.Point} (hg : Rep p g) (hh : Rep p h) : g = h :=
  (pointEq_rep hg hh).mp ((pointEq_iff p p).mpr ⟨rfl, rfl⟩)

/-- The integers x, y are the affine coordinates of a point, (0, 0) for the identity. -/
def AffineOf (x y : Int) : curve.Point → Prop
  | .zero => x = 0 ∧ y = 0
  | .some a b _ => (x : Fp) = a ∧ (y : Fp) = b

/-- The affine coordinates `toAffine` gives are those of the point (41_point.md R260). -/
theorem toAffine_rep {p : Point} {g : curve.Point} (h : Rep p g) :
    ∃ x y, toAffine p = .ok (x, y) ∧ 0 ≤ x ∧ x < Config.P ∧ 0 ≤ y ∧ y < Config.P ∧
      AffineOf x y g := by
  obtain ⟨x, y, e, x0, x1, y0, y1, hz, hnz⟩ := toAffine_spec h.1
  refine ⟨x, y, e, x0, x1, y0, y1, ?_⟩
  obtain ⟨hc, hs⟩ := h
  cases g with
  | zero => exact hz ((cast_eq_zero_iff (Z_nonneg p) hc.2.2).mp hs.2.1)
  | some a b hn =>
    obtain ⟨hz', hx, hy⟩ := hs
    have hne : p.Z ≠ 0 := fun h => hz' (by rw [h, Int.cast_zero])
    obtain ⟨e1, e2⟩ := hnz hne
    exact ⟨mul_right_cancel₀ hz' (e1.trans hx), mul_right_cancel₀ hz' (e2.trans hy)⟩

/-- Equal points have the same affine coordinates. -/
theorem toAffine_congr {p q : Point} {g : curve.Point} (hp : Rep p g) (hq : Rep q g) :
    toAffine p = toAffine q := by
  obtain ⟨x, y, e, x0, x1, y0, y1, h⟩ := toAffine_rep hp
  obtain ⟨x', y', e', x0', x1', y0', y1', h'⟩ := toAffine_rep hq
  rw [e, e']
  cases g with
  | zero => rw [h.1, h.2, h'.1, h'.2]
  | some a b hn =>
    rw [eq_of_cast x0 x1 x0' x1' (h.1.trans h'.1.symm),
      eq_of_cast y0 y1 y0' y1' (h.2.trans h'.2.symm)]

/-- The base point as a point of the curve (00_scope.md R23). -/
theorem exists_rep_base : ∃ g, Rep Config.base g :=
  rep_of_onCurve base_canonical base_onCurve (by decide +kernel)

end

end Sys2Proof.Machine
end

