-- ==== Sys2Proof/Laws/ScalarArith.lean ====
section
/-! SUPPORT. The functions of the scalar family: what the generic and the windowed multiply and the
table compute, in the group of the curve (42_scalar.md R301–R313), and the NAF recoding (R309). -/

namespace Sys2Proof.Machine

/-! ### What every function of the family keeps

A property that ADD and PNEG keep, and that ZERO and BASE have, holds of every triple the family
computes. -/

/-- A property of triples that ADD and PNEG keep and the constants have. -/
structure Closed (H : Point → Prop) : Prop where
  add : ∀ p q, H p → H q → H (pointAdd p q)
  neg : ∀ p, H p → H (pointNeg p)
  zero : H Config.zero
  base : H Config.base

theorem closed_canonical : Closed Point.canonical :=
  ⟨fun p q _ _ => pointAdd_canonical p q, fun _ => pointNeg_canonical, zero_canonical,
    base_canonical⟩

theorem closed_onCurve : Closed Point.onCurve :=
  ⟨fun _ _ => pointAdd_onCurve, fun _ => pointNeg_onCurve, zero_onCurve, base_onCurve⟩

/-! ### The generic multiply (42_scalar.md R301) -/

/-- The dummy accumulator reaches no result (42_scalar.md R313, 10_state.md R64). -/
theorem genericLoop_safe (fuel : Nat) : ∀ (safe : Bool) (p f f' d : Point) (k : Nat),
    genericLoop fuel safe p f d k = genericLoop fuel false p f' d k := by
  induction fuel with
  | zero => intros; rfl
  | succ fuel ih =>
    intro safe p f f' d k
    unfold genericLoop
    split
    · rfl
    · split
      · exact ih ..
      · exact ih ..

theorem generic_safe (base : Point) (k : Int) (safe : Bool) :
    generic base k safe = generic base k false := genericLoop_safe ..

theorem genericLoop_closed {H : Point → Prop} (c : Closed H) (fuel : Nat) :
    ∀ (safe : Bool) (p f d : Point) (k : Nat), H p → H d → H (genericLoop fuel safe p f d k) := by
  induction fuel with
  | zero => intro safe p f d k hp _; exact hp
  | succ fuel ih =>
    intro safe p f d k hp hd
    unfold genericLoop
    split
    · exact hp
    · split
      · exact ih _ _ _ _ _ (c.add _ _ hp hd) (c.add _ _ hd hd)
      · exact ih _ _ _ _ _ hp (c.add _ _ hd hd)

theorem generic_closed {H : Point → Prop} (c : Closed H) {base : Point} (hb : H base) (k : Int)
    (safe : Bool) : H (generic base k safe) := genericLoop_closed c _ _ _ _ _ _ c.zero hb

/-- `generic` gives a canonical triple whatever triple the base is. -/
theorem generic_canonical (base : Point) (hb : base.canonical) (k : Int) (safe : Bool) :
    (generic base k safe).canonical := generic_closed closed_canonical hb k safe

theorem mulAdd_closed {H : Point → Prop} (c : Closed H) {q : Point} (hq : H q) (u1 u2 : Int) :
    H (mulAdd u1 u2 q) := c.add _ _ (generic_closed c c.base _ _) (generic_closed c hq _ _)

theorem mulAdd_canonical (u1 u2 : Int) (q : Point) : (mulAdd u1 u2 q).canonical :=
  pointAdd_canonical ..

/-! ### The table (42_scalar.md R302) -/

theorem windowEntries_length (count : Nat) : ∀ p b : Point,
    (windowEntries count p b).length = count := by
  induction count with
  | zero => intros; rfl
  | succ n ih => intro p b; simp [windowEntries, ih]

theorem window_length (p : Point) : (window p).length = 128 := by
  simp [window, windowEntries_length, Config.windowSize]

theorem buildWindows_length (count : Nat) : ∀ p : Point,
    (buildWindows count p).length = 128 * count := by
  induction count with
  | zero => intros; rfl
  | succ n ih => intro p; simp only [buildWindows, List.length_append, window_length, ih]; omega

theorem buildTable_length : buildTable.length = Config.tableSize := buildWindows_length _ _

theorem windowEntries_closed {H : Point → Prop} (c : Closed H) (count : Nat) :
    ∀ p b : Point, H p → H b → ∀ e ∈ windowEntries count p b, H e := by
  induction count with
  | zero => intro p b _ _ e he; simp [windowEntries] at he
  | succ n ih =>
    intro p b hp hb e he
    simp only [windowEntries, List.mem_cons] at he
    rcases he with rfl | he
    · exact c.add _ _ hb hp
    · exact ih _ _ hp (c.add _ _ hb hp) e he

theorem window_closed {H : Point → Prop} (c : Closed H) {p : Point} (hp : H p) :
    ∀ e ∈ window p, H e := by
  intro e he
  simp only [window, List.mem_cons] at he
  rcases he with rfl | he
  · exact hp
  · exact windowEntries_closed c _ _ _ hp hp e he

theorem getLastD_mem {p : Point} : (window p).getLastD p ∈ window p := by
  unfold window
  rw [List.getLastD_cons]
  exact List.getLastD_mem_cons

theorem buildWindows_closed {H : Point → Prop} (c : Closed H) (count : Nat) :
    ∀ p : Point, H p → ∀ e ∈ buildWindows count p, H e := by
  induction count with
  | zero => intro p _ e he; simp [buildWindows] at he
  | succ n ih =>
    intro p hp e he
    simp only [buildWindows, List.mem_append] at he
    have hl := window_closed c hp _ (getLastD_mem (p := p))
    rcases he with he | he
    · exact window_closed c hp e he
    · exact ih _ (c.add _ _ hl hl) e he

theorem buildTable_closed {H : Point → Prop} (c : Closed H) : ∀ e ∈ buildTable, H e :=
  buildWindows_closed c _ _ c.base

theorem getD_closed {H : Point → Prop} {tbl : List Point} (h : ∀ e ∈ tbl, H e)
    (h0 : H Config.zero) (i : Nat) : H (tbl.getD i Config.zero) := by
  rw [List.getD_eq_getElem?_getD]
  cases hi : tbl[i]? with
  | none => exact h0
  | some e => exact h e (List.mem_of_getElem? hi)

theorem windowEntries_step (count : Nat) : ∀ (p b : Point) (j : Nat), j < count →
    (b :: windowEntries count p b).getD (j + 1) Config.zero =
      pointAdd ((b :: windowEntries count p b).getD j Config.zero) p := by
  induction count with
  | zero => intro p b j hj; omega
  | succ n ih =>
    intro p b j hj
    simp only [windowEntries]
    cases j with
    | zero => rfl
    | succ j => exact ih p (pointAdd b p) j (by omega)

theorem window_getLastD (p : Point) :
    (window p).getLastD p = (window p).getD 127 Config.zero := by
  have hl := window_length p
  rw [List.getLastD_eq_getLast?, List.getLast?_eq_getElem?, List.getD_eq_getElem?_getD, hl,
    List.getElem?_eq_getElem (by omega)]
  rfl

/-- The windows one after another: the entries of a window, and where the next one starts. -/
theorem buildWindows_step (count : Nat) : ∀ (p : Point) (w : Nat), w < count →
    (∀ j < 127, (buildWindows count p).getD (128 * w + (j + 1)) Config.zero =
      pointAdd ((buildWindows count p).getD (128 * w + j) Config.zero)
        ((buildWindows count p).getD (128 * w) Config.zero)) ∧
    (w + 1 < count → (buildWindows count p).getD (128 * (w + 1)) Config.zero =
      pointAdd ((buildWindows count p).getD (128 * w + 127) Config.zero)
        ((buildWindows count p).getD (128 * w + 127) Config.zero)) := by
  induction count with
  | zero => intro p w hw; omega
  | succ n ih =>
    intro p w hw
    have hl := window_length p
    have left : ∀ i < 128, (buildWindows (n + 1) p).getD i Config.zero =
        (window p).getD i Config.zero := by
      intro i hi
      simp only [buildWindows]
      rw [List.getD_eq_getElem?_getD, List.getElem?_append_left (by omega),
        ← List.getD_eq_getElem?_getD]
    have right : ∀ i, (buildWindows (n + 1) p).getD (128 + i) Config.zero =
        (buildWindows n (pointAdd ((window p).getLastD p) ((window p).getLastD p))).getD i
          Config.zero := by
      intro i
      simp only [buildWindows]
      rw [List.getD_eq_getElem?_getD, List.getElem?_append_right (by omega),
        ← List.getD_eq_getElem?_getD, hl, Nat.add_sub_cancel_left]
    cases w with
    | zero =>
      refine ⟨fun j hj => ?_, fun hn => ?_⟩
      · rw [left _ (by omega), left _ (by omega), left _ (by omega)]
        simp only [Nat.mul_zero, Nat.zero_add]
        exact windowEntries_step _ p p j hj
      · rw [show 128 * (0 + 1) = 128 + 0 by rfl, right, left _ (by omega)]
        cases n with
        | zero => omega
        | succ n =>
          simp only [Nat.mul_zero, Nat.zero_add]
          rw [← window_getLastD]
          rfl
    | succ w =>
      obtain ⟨h1, h2⟩ := ih (pointAdd ((window p).getLastD p) ((window p).getLastD p)) w (by omega)
      refine ⟨fun j hj => ?_, fun hn => ?_⟩
      · rw [show 128 * (w + 1) + (j + 1) = 128 + (128 * w + (j + 1)) by omega,
          show 128 * (w + 1) + j = 128 + (128 * w + j) by omega,
          show 128 * (w + 1) = 128 + 128 * w by omega, right, right, right]
        exact h1 j hj
      · rw [show 128 * (w + 1 + 1) = 128 + 128 * (w + 1) by omega,
          show 128 * (w + 1) + 127 = 128 + (128 * w + 127) by omega, right, right]
        exact h2 (by omega)

/-! ### The windowed multiply (42_scalar.md R304) -/

theorem wnafLoop_closed {H : Point → Prop} (c : Closed H) {tbl : List Point}
    (ht : ∀ e ∈ tbl, H e) (count : Nat) :
    ∀ (w k : Nat) (p f : Point), H p → H (wnafLoop count tbl w k p f) := by
  induction count with
  | zero => intro w k p f hp; exact hp
  | succ n ih =>
    intro w k p f hp
    have hg := getD_closed ht c.zero
    unfold wnafLoop
    simp only
    split
    · exact ih _ _ _ _ hp
    · refine ih _ _ _ _ (c.add _ _ hp ?_)
      split
      · exact c.neg _ (hg _)
      · exact hg _

theorem wnaf_closed {H : Point → Prop} (c : Closed H) {tbl : List Point} (ht : ∀ e ∈ tbl, H e)
    (k : Int) : H (wnaf tbl k) := wnafLoop_closed c ht _ _ _ _ _ c.zero

/-- `wnaf` gives a canonical triple whatever the table holds: it is ZERO or a sum. -/
theorem wnafLoop_canonical (count : Nat) (tbl : List Point) :
    ∀ (w k : Nat) (p f : Point), p.canonical → (wnafLoop count tbl w k p f).canonical := by
  induction count with
  | zero => intro w k p f hp; exact hp
  | succ n ih =>
    intro w k p f hp
    unfold wnafLoop
    simp only
    split
    · exact ih _ _ _ _ hp
    · exact ih _ _ _ _ (pointAdd_canonical ..)

theorem wnaf_canonical (tbl : List Point) (k : Int) : (wnaf tbl k).canonical :=
  wnafLoop_canonical _ _ _ _ _ _ zero_canonical

/-- A window's digit is in (−128, 128], and with the carry it says what was there
(42_scalar.md R304). -/
theorem windowDigit_spec (k : Nat) :
    (k : Int) = (windowDigit k).1 + 256 * (windowDigit k).2 ∧
      -128 < (windowDigit k).1 ∧ (windowDigit k).1 ≤ 128 := by
  unfold windowDigit
  simp only
  split <;> simp only <;> omega

/-- The carry never runs past the last window (42_scalar.md R312). -/
theorem windowDigit_bound {k c : Nat} (h : k ≤ 128 * 256 ^ (c + 1)) :
    (windowDigit k).2 ≤ 128 * 256 ^ c := by
  rw [pow_succ] at h
  unfold windowDigit
  simp only
  split <;> simp only <;> omega

section

variable [Fact (Nat.Prime Config.P.toNat)]

theorem genericLoop_rep (fuel : Nat) :
    ∀ (safe : Bool) (p f d : Point) (k : Nat) (g h : curve.Point), Rep p g → Rep d h →
      k < 2 ^ fuel → Rep (genericLoop fuel safe p f d k) (g + k • h) := by
  induction fuel with
  | zero =>
    intro safe p f d k g h hp hd hk
    have : k = 0 := by simpa using hk
    subst this
    rw [zero_nsmul, add_zero]
    exact hp
  | succ fuel ih =>
    intro safe p f d k g h hp hd hk
    have hk2 : k / 2 < 2 ^ fuel := by rw [pow_succ] at hk; omega
    unfold genericLoop
    split
    · next h0 => subst h0; rw [zero_nsmul, add_zero]; exact hp
    · split
      · next hodd =>
        have := ih safe (pointAdd p d) f (pointAdd d d) (k / 2) (g + h) (h + h)
          (rep_add hp hd) (rep_add hd hd) hk2
        have e : k = 2 * (k / 2) + 1 := by omega
        have : g + k • h = g + h + (k / 2) • (h + h) := by
          conv_lhs => rw [e]
          rw [add_nsmul, mul_comm, mul_nsmul, one_nsmul, two_nsmul]
          rw [← two_nsmul, ← two_nsmul, ← mul_nsmul, ← mul_nsmul, mul_comm]
          abel
        rw [this]; assumption
      · next heven =>
        have := ih safe p (if safe then pointAdd f d else f) (pointAdd d d) (k / 2) g (h + h)
          hp (rep_add hd hd) hk2
        have e : k = 2 * (k / 2) := by omega
        have : g + k • h = g + (k / 2) • (h + h) := by
          conv_lhs => rw [e]
          rw [← two_nsmul, ← mul_nsmul]
        rw [this]; assumption

/-- Repeated addition stands for the multiple. -/
theorem multiple_rep {p : Point} {g : curve.Point} (hp : Rep p g) :
    ∀ k : Nat, Rep (multiple p k) (k • g)
  | 0 => by rw [zero_nsmul]; exact rep_zero
  | k + 1 => by rw [succ_nsmul]; exact rep_add (multiple_rep hp k) hp

/-- The generic multiply is the k-fold sum (42_scalar.md R301). -/
theorem generic_rep {base : Point} {g : curve.Point} (hb : Rep base g) {k : Int} (safe : Bool)
    (h0 : 0 ≤ k) (h1 : k < 2 ^ 256) : Rep (generic base k safe) (k.toNat • g) := by
  have := genericLoop_rep 256 safe Config.zero Config.base base k.toNat 0 g
    rep_zero hb ((Int.toNat_lt h0).mpr h1)
  rwa [zero_add] at this

theorem mulAdd_rep {q : Point} {b g : curve.Point} (hb : Rep Config.base b) (hq : Rep q g)
    {u1 u2 : Int} (h10 : 0 ≤ u1) (h11 : u1 < 2 ^ 256) (h20 : 0 ≤ u2) (h21 : u2 < 2 ^ 256) :
    Rep (mulAdd u1 u2 q) (u1.toNat • b + u2.toNat • g) :=
  rep_add (generic_rep hb false h10 h11) (generic_rep hq false h20 h21)

theorem windowEntries_rep {p : Point} {g : curve.Point} (hp : Rep p g) (count : Nat) :
    ∀ (b : Point) (h : curve.Point), Rep b h → ∀ j < count,
      Rep ((windowEntries count p b).getD j Config.zero) (h + (j + 1) • g) := by
  induction count with
  | zero => intro b h _ j hj; omega
  | succ n ih =>
    intro b h hb j hj
    simp only [windowEntries]
    cases j with
    | zero => simpa using rep_add hb hp
    | succ j =>
      have := ih (pointAdd b p) (h + g) (rep_add hb hp) j (by omega)
      rw [List.getD_cons_succ]
      rwa [show h + (j + 1 + 1) • g = h + g + (j + 1) • g by rw [add_nsmul (n := 1)]; simp; abel]

theorem window_rep {p : Point} {g : curve.Point} (hp : Rep p g) {j : Nat} (hj : j < 128) :
    Rep ((window p).getD j Config.zero) ((j + 1) • g) := by
  unfold window
  cases j with
  | zero => simpa using hp
  | succ j =>
    have := windowEntries_rep hp (Config.windowSize - 1) p g hp j
      (by unfold Config.windowSize; omega)
    rw [List.getD_cons_succ]
    rwa [show (j + 1 + 1) • g = g + (j + 1) • g by rw [add_nsmul (n := 1)]; simp; abel]

theorem window_last_rep {p : Point} {g : curve.Point} (hp : Rep p g) :
    Rep ((window p).getLastD p) (128 • g) := by
  have h := window_rep hp (j := 127) (by decide)
  have hl := window_length p
  rw [List.getLastD_eq_getLast?, List.getLast?_eq_getElem?, hl]
  rw [List.getD_eq_getElem?_getD] at h
  rw [List.getElem?_eq_getElem (by omega)] at h ⊢
  exact h

theorem buildWindows_rep (count : Nat) : ∀ (p : Point) (g : curve.Point), Rep p g →
    ∀ w < count, ∀ j < 128,
      Rep ((buildWindows count p).getD (128 * w + j) Config.zero) (((j + 1) * 256 ^ w) • g) := by
  induction count with
  | zero => intro p g _ w hw; omega
  | succ n ih =>
    intro p g hp w hw j hj
    have hl := window_length p
    simp only [buildWindows]
    rw [List.getD_eq_getElem?_getD]
    cases w with
    | zero =>
      rw [List.getElem?_append_left (by omega), ← List.getD_eq_getElem?_getD]
      simpa using window_rep hp hj
    | succ w =>
      rw [List.getElem?_append_right (by omega), ← List.getD_eq_getElem?_getD, hl,
        show 128 * (w + 1) + j - 128 = 128 * w + j by omega]
      have hb := window_last_rep hp
      have := ih _ _ (rep_add hb hb) w (by omega) j hj
      rwa [← two_nsmul, ← mul_nsmul, ← mul_nsmul,
        show 128 * (2 * ((j + 1) * 256 ^ w)) = (j + 1) * 256 ^ (w + 1) by ring] at this

/-- Entry 128·w + j − 1 of the table stands for j·2^(8w)·G (42_scalar.md R302). -/
theorem buildTable_rep {b : curve.Point} (hb : Rep Config.base b) {w j : Nat} (hw : w < 33)
    (hj : j < 128) :
    Rep (buildTable.getD (128 * w + j) Config.zero) (((j + 1) * 256 ^ w) • b) :=
  buildWindows_rep 33 _ _ hb w hw j hj

theorem wnafLoop_rep {b : curve.Point} (hb : Rep Config.base b) (count : Nat) :
    ∀ (w k : Nat) (p f : Point) (g : curve.Point), w + count ≤ 33 → Rep p g →
      (count = 0 → k = 0) → (∀ c, count = c + 1 → k ≤ 128 * 256 ^ c) →
      Rep (wnafLoop count buildTable w k p f) (g + (k * 256 ^ w) • b) := by
  induction count with
  | zero =>
    intro w k p f g _ hp hk _
    rw [hk rfl, zero_mul, zero_nsmul, add_zero]
    exact hp
  | succ n ih =>
    intro w k p f g hw hp _ hk
    obtain ⟨hs, hlo, hhi⟩ := windowDigit_spec k
    have hk' := hk n rfl
    have hn0 : n = 0 → (windowDigit k).2 = 0 := by
      rintro rfl
      rw [pow_zero] at hk'
      unfold windowDigit
      simp only
      split <;> simp only <;> omega
    have hnc : ∀ c, n = c + 1 → (windowDigit k).2 ≤ 128 * 256 ^ c := by
      rintro c rfl; exact windowDigit_bound hk'
    unfold wnafLoop
    simp only
    generalize windowDigit k = dk at *
    obtain ⟨d, k'⟩ := dk
    simp only at *
    split
    · next hd =>
      subst hd
      have := ih (w + 1) k' p (pointAdd f
        (if w % 2 = 1 then pointNeg (buildTable.getD (Config.windowSize * w) Config.zero)
          else buildTable.getD (Config.windowSize * w) Config.zero)) g (by omega) hp hn0 hnc
      have e : k = 256 * k' := by omega
      rwa [show k * 256 ^ w = k' * 256 ^ (w + 1) by rw [e]; ring]
    · next hd =>
      have ht := buildTable_rep hb (w := w) (j := d.natAbs - 1) (by omega) (by omega)
      rw [show d.natAbs - 1 + 1 = d.natAbs by omega,
        show 128 * w + (d.natAbs - 1) = Config.windowSize * w + d.natAbs - 1 by
          unfold Config.windowSize; omega] at ht
      have hsum : Rep (pointAdd p (if d < 0
          then pointNeg (buildTable.getD (Config.windowSize * w + d.natAbs - 1) Config.zero)
          else buildTable.getD (Config.windowSize * w + d.natAbs - 1) Config.zero))
          (g + (d * 256 ^ w) • b) := by
        refine rep_add hp ?_
        split
        · next hneg =>
          have := rep_neg ht
          have e : d * 256 ^ w = -((d.natAbs * 256 ^ w : Nat) : Int) := by
            push_cast
            rw [abs_of_neg hneg]; ring
          rwa [e, neg_zsmul, natCast_zsmul]
        · next hpos =>
          have e : d * 256 ^ w = ((d.natAbs * 256 ^ w : Nat) : Int) := by
            push_cast
            rw [abs_of_nonneg (by omega)]
          rwa [e, natCast_zsmul]
      have := ih (w + 1) k' _ f _ (by omega) hsum hn0 hnc
      have e : g + (k * 256 ^ w) • b = g + (d * 256 ^ w) • b + (k' * 256 ^ (w + 1)) • b := by
        rw [add_assoc, ← natCast_zsmul, ← natCast_zsmul, ← add_zsmul]
        congr 2
        push_cast
        rw [hs]; ring
      rwa [e]

/-- The windowed multiply over the built table is the k-fold sum of G (42_scalar.md R312). -/
theorem wnaf_rep {b : curve.Point} (hb : Rep Config.base b) {k : Int} (h0 : 0 ≤ k)
    (h1 : k < 2 ^ 256) : Rep (wnaf buildTable k) (k.toNat • b) := by
  have hk : k.toNat < 2 ^ 256 := (Int.toNat_lt h0).mpr h1
  have := wnafLoop_rep hb 33 0 k.toNat Config.zero Config.base 0 (by decide) rep_zero
    (fun h => absurd h (by decide)) (by
      intro c hc
      obtain rfl : c = 32 := by omega
      calc k.toNat ≤ 2 ^ 256 := hk.le
        _ = 1 * 256 ^ 32 := by rw [one_mul, show (256 : Nat) ^ 32 = (2 ^ 8) ^ 32 by rfl, ← pow_mul]
        _ ≤ 128 * 256 ^ 32 := Nat.mul_le_mul_right _ (by decide))
  rwa [zero_add, pow_zero, mul_one] at this

end

/-! ### The non-adjacent form (42_scalar.md R309) -/

/-- The masks of the NAF of k by recursion on the digits, least significant first. -/
def nafPair : Nat → (k : Nat) → Nat × Nat
  | 0, _ => (0, 0)
  | fuel + 1, k =>
    if k = 0 then (0, 0)
    else if k % 4 = 1 then
      let r := nafPair fuel ((k - 1) / 2); (2 * r.1 + 1, 2 * r.2)
    else if k % 4 = 3 then
      let r := nafPair fuel ((k + 1) / 2); (2 * r.1, 2 * r.2 + 1)
    else
      let r := nafPair fuel (k / 2); (2 * r.1, 2 * r.2)

theorem or_shift_one {x i : Nat} (h : x < 2 ^ i) : x ||| 1 <<< i = x + 2 ^ i := by
  rw [Nat.one_shiftLeft, Nat.or_comm, add_comm]
  have := Nat.two_pow_add_eq_or_of_lt h 1
  rw [mul_one] at this
  exact this.symm

theorem nafLoop_eq (fuel : Nat) : ∀ k i pos neg : Nat, pos < 2 ^ i → neg < 2 ^ i →
    nafLoop fuel k i pos neg =
      (pos + 2 ^ i * (nafPair fuel k).1, neg + 2 ^ i * (nafPair fuel k).2) := by
  induction fuel with
  | zero => intros; simp [nafLoop, nafPair]
  | succ n ih =>
    intro k i pos neg hp hn
    have hpow : 2 ^ (i + 1) = 2 * 2 ^ i := by rw [pow_succ]; ring
    unfold nafLoop nafPair
    split
    · simp
    · split
      · rw [ih _ _ _ _ (by rw [or_shift_one hp]; omega) (by omega), or_shift_one hp, hpow]
        simp only [Prod.mk.injEq]
        exact ⟨by ring, by ring⟩
      · split
        · rw [ih _ _ _ _ (by omega) (by rw [or_shift_one hn]; omega), or_shift_one hn, hpow]
          simp only [Prod.mk.injEq]
          exact ⟨by ring, by ring⟩
        · rw [ih _ _ _ _ (by omega) (by omega), hpow]
          simp only [Prod.mk.injEq]
          exact ⟨by ring, by ring⟩

theorem naf_eq (k : Int) :
    naf k = (((nafPair 257 k.toNat).1 : Int), ((nafPair 257 k.toNat).2 : Int)) := by
  unfold naf
  rw [nafLoop_eq 257 k.toNat 0 0 0 (by decide) (by decide)]
  simp

/-- The masks of an even number are even: its digit 0 is 0. -/
theorem nafPair_even (fuel k : Nat) (h : k % 2 = 0) :
    (nafPair fuel k).1 % 2 = 0 ∧ (nafPair fuel k).2 % 2 = 0 := by
  cases fuel with
  | zero => simp [nafPair]
  | succ n =>
    unfold nafPair
    split
    · simp
    · rw [if_neg (by omega), if_neg (by omega)]
      simp

/-- The difference of the masks is the number. -/
theorem nafPair_sub (fuel : Nat) : ∀ k : Nat, (fuel = 0 → k = 0) →
    (∀ n, fuel = n + 1 → k ≤ 2 ^ n) →
    ((nafPair fuel k).1 : Int) - (nafPair fuel k).2 = k := by
  induction fuel with
  | zero => intro k hk _; simp [nafPair, hk]
  | succ n ih =>
    intro k _ hk
    have hk' := hk n rfl
    have hh : ∀ j, 2 * j ≤ k + 1 → (2 * j = k + 1 → k % 2 = 1 ∧ 1 < k) →
        ((nafPair n j).1 : Int) - (nafPair n j).2 = j := by
      intro j h1 h2
      apply ih
      · rintro rfl
        simp at hk'
        omega
      · rintro m rfl
        rw [pow_succ] at hk'
        omega
    unfold nafPair
    split
    · next h0 => simp [h0]
    · split
      · have := hh ((k - 1) / 2) (by omega) (by omega)
        simp only
        push_cast
        omega
      · split
        · have := hh ((k + 1) / 2) (by omega) (by omega)
          simp only
          push_cast
          omega
        · have := hh (k / 2) (by omega) (by omega)
          simp only
          push_cast
          omega

theorem nafPair_bound (fuel : Nat) : ∀ k : Nat,
    (nafPair fuel k).1 < 2 ^ fuel ∧ (nafPair fuel k).2 < 2 ^ fuel := by
  induction fuel with
  | zero => intro k; simp [nafPair]
  | succ n ih =>
    intro k
    rw [pow_succ]
    unfold nafPair
    split
    · simp
    · split
      · have := ih ((k - 1) / 2); simp only; omega
      · split
        · have := ih ((k + 1) / 2); simp only; omega
        · have := ih (k / 2); simp only; omega

/-- No position has both digits. -/
theorem nafPair_and (fuel : Nat) : ∀ k : Nat,
    (nafPair fuel k).1 &&& (nafPair fuel k).2 = 0 := by
  induction fuel with
  | zero => intro k; simp [nafPair]
  | succ n ih =>
    intro k
    have bit (a b x y : Nat) (h : a &&& b = 0) (hx : x < 2) (hy : y < 2) (hxy : x * y = 0) :
        (2 * a + x) &&& (2 * b + y) = 0 := by
      apply Nat.eq_of_testBit_eq
      intro i
      rw [Nat.testBit_and, Nat.zero_testBit]
      cases i with
      | zero =>
        have : x = 0 ∨ y = 0 := by simpa using hxy
        rcases this with rfl | rfl <;> simp [Nat.testBit_zero]
      | succ i =>
        rw [Nat.testBit_succ, Nat.testBit_succ, show (2 * a + x) / 2 = a by omega,
          show (2 * b + y) / 2 = b by omega, ← Nat.testBit_and, h, Nat.zero_testBit]
    unfold nafPair
    split
    · simp
    · split
      · exact bit _ _ 1 0 (ih _) (by decide) (by decide) rfl
      · split
        · exact bit _ _ 0 1 (ih _) (by decide) (by decide) rfl
        · exact bit _ _ 0 0 (ih _) (by decide) (by decide) rfl

/-- No two neighbouring positions have digits. -/
theorem nafPair_adjacent (fuel : Nat) : ∀ k : Nat,
    let m := (nafPair fuel k).1 ||| (nafPair fuel k).2
    m &&& (m >>> 1) = 0 := by
  induction fuel with
  | zero => intro k; simp [nafPair]
  | succ n ih =>
    intro k
    have step (a b x y : Nat) (hx : x < 2) (hy : y < 2)
        (h : (a ||| b) &&& ((a ||| b) >>> 1) = 0)
        (hxy : (x = 0 ∧ y = 0) ∨ (a % 2 = 0 ∧ b % 2 = 0)) :
        ((2 * a + x) ||| (2 * b + y)) &&& (((2 * a + x) ||| (2 * b + y)) >>> 1) = 0 := by
      apply Nat.eq_of_testBit_eq
      intro i
      have h' := congrArg (fun z => z.testBit (i - 1)) h
      simp only [Nat.testBit_and, Nat.testBit_or, Nat.testBit_shiftRight, Nat.zero_testBit] at h' ⊢
      rw [add_comm 1 i, Nat.testBit_succ, Nat.testBit_succ, show (2 * a + x) / 2 = a by omega,
        show (2 * b + y) / 2 = b by omega]
      cases i with
      | zero =>
        rcases hxy with ⟨rfl, rfl⟩ | ⟨ha, hb⟩
        · simp [Nat.testBit_zero]
        · simp [Nat.testBit_zero, ha, hb]
      | succ i =>
        rw [Nat.testBit_succ, Nat.testBit_succ, show (2 * a + x) / 2 = a by omega,
          show (2 * b + y) / 2 = b by omega]
        simpa [add_comm 1 i] using h'
    have hz := ih
    unfold nafPair
    split
    · simp
    · split
      · have he := nafPair_even n ((k - 1) / 2) (by omega)
        exact step _ _ 1 0 (by decide) (by decide) (ih _) (.inr he)
      · split
        · have he := nafPair_even n ((k + 1) / 2) (by omega)
          exact step _ _ 0 1 (by decide) (by decide) (ih _) (.inr he)
        · exact step _ _ 0 0 (by decide) (by decide) (ih _) (.inl ⟨rfl, rfl⟩)

/-- The positive mask is at most one bit longer than the number (42_scalar.md R309). -/
theorem nafPair_length (fuel : Nat) : ∀ k m : Nat, k ≤ 2 ^ m → (nafPair fuel k).1 < 2 ^ (m + 1) := by
  induction fuel with
  | zero => intro k m _; simp [nafPair]
  | succ n ih =>
    intro k m hk
    cases m with
    | zero =>
      have : k = 0 ∨ k = 1 := by rw [pow_zero] at hk; omega
      rcases this with rfl | rfl
      · simp [nafPair]
      · have h0 : (nafPair n 0).1 = 0 := by cases n <;> simp [nafPair]
        simp [nafPair, h0]
    | succ m =>
      rw [pow_succ] at hk ⊢
      unfold nafPair
      split
      · simp
      · split
        · have := ih ((k - 1) / 2) m (by omega); simp only; omega
        · split
          · have := ih ((k + 1) / 2) m (by omega); simp only; omega
          · have := ih (k / 2) m (by omega); simp only; omega

/-- A pair of masks is a non-adjacent form. -/
def IsNaf (a b : Nat) : Prop := a &&& b = 0 ∧ (a ||| b) &&& ((a ||| b) >>> 1) = 0

theorem IsNaf.half {a b : Nat} (h : IsNaf a b) : IsNaf (a / 2) (b / 2) := by
  obtain ⟨h1, h2⟩ := h
  refine ⟨?_, ?_⟩
  · rw [← Nat.and_div_two, h1]
  · rw [← Nat.or_div_two, Nat.shiftRight_one, ← Nat.and_div_two, ← Nat.shiftRight_one (a ||| b), h2]

/-- The two lowest digits: not both masks have bit 0, and next to a digit there is none. -/
theorem IsNaf.low {a b : Nat} (h : IsNaf a b) :
    (a % 2 = 0 ∧ b % 2 = 0) ∨ (a % 4 = 1 ∧ b % 4 = 0) ∨ (a % 4 = 0 ∧ b % 4 = 1) := by
  obtain ⟨h1, h2⟩ := h
  have t0 : (a.testBit 0 && b.testBit 0) = false := by
    rw [← Nat.testBit_and, h1, Nat.zero_testBit]
  have t1 : ((a.testBit 0 || b.testBit 0) && (a.testBit 1 || b.testBit 1)) = false := by
    have := congrArg (fun z => z.testBit 0) h2
    simpa only [Nat.testBit_and, Nat.testBit_or, Nat.testBit_shiftRight, Nat.zero_testBit,
      Nat.add_zero] using this
  rw [show (1 : Nat) = 0 + 1 by rfl, Nat.testBit_succ, Nat.testBit_succ] at t1
  rw [Nat.testBit_zero, Nat.testBit_zero] at t0
  rw [Nat.testBit_zero, Nat.testBit_zero, Nat.testBit_zero, Nat.testBit_zero] at t1
  simp only [Bool.and_eq_false_iff, Bool.or_eq_false_iff, decide_eq_false_iff_not] at t0 t1
  omega

/-- The non-adjacent form is unique (42_scalar.md R309). -/
theorem naf_unique : ∀ (m a b a' b' : Nat), a + b ≤ m → IsNaf a b → IsNaf a' b' →
    (a : Int) - b = a' - b' → a = a' ∧ b = b' := by
  intro m
  induction m using Nat.strong_induction_on with
  | _ m ih =>
    intro a b a' b' hm h h' e
    have l := h.low
    have l' := h'.low
    by_cases hz : a + b = 0
    · -- nothing left on one side, so the other side has two equal masks
      have ha : a = 0 := by omega
      have hb : b = 0 := by omega
      subst ha hb
      have e' : a' = b' := by omega
      have h1 := h'.1
      rw [e', Nat.and_self] at h1
      omega
    · have := ih ((a + b) / 2) (by omega) (a / 2) (b / 2) (a' / 2) (b' / 2) (by omega) h.half
        h'.half (by omega)
      omega

/-- What `naf` answers (42_scalar.md R309). -/
theorem naf_spec {k : Int} (h0 : 1 ≤ k) (h1 : k < 2 ^ 256) : ∃ a b : Nat, naf k = ((a : Int), (b : Int)) ∧
    (a : Int) - b = k ∧ a < 2 ^ 257 ∧ b < 2 ^ 257 ∧ a &&& b = 0 ∧
    (a ||| b) &&& ((a ||| b) >>> 1) = 0 := by
  have hk : k.toNat < 2 ^ 256 := (Int.toNat_lt (by omega)).mpr h1
  have hb := nafPair_bound 257 k.toNat
  refine ⟨_, _, naf_eq k, ?_, hb.1, hb.2, nafPair_and _ _, nafPair_adjacent _ _⟩
  rw [nafPair_sub 257 k.toNat (fun h => absurd h (by decide)) (by
    intro n hn
    obtain rfl : n = 256 := by omega
    exact hk.le)]
  omega

end Sys2Proof.Machine
end

