-- ==== Sys2Proof/Laws/Order.lean ====
section
/-! SUPPORT. The base point has order n (00_scope.md R21, R25): n·G is the identity, by the model's
own generic multiply, and multiples of G are equal exactly when the factors agree mod n. -/

namespace Sys2Proof.Machine

theorem n_cast : (Config.n.toNat : Int) = Config.n := by decide

section

variable [Fact (Nat.Prime Config.P.toNat)]

theorem base_ne_zero {b : curve.Point} (hb : Rep Config.base b) : b ≠ 0 := by
  rintro rfl
  have := (pointEq_rep hb rep_zero).mpr rfl
  revert this
  decide +kernel

theorem order_smul_base {b : curve.Point} (hb : Rep Config.base b) : Config.n.toNat • b = 0 := by
  have h := generic_rep hb (k := Config.n) false (by decide) (by decide)
  exact (pointEq_rep h rep_zero).mp (by decide +kernel)

theorem addOrderOf_base {b : curve.Point} (hb : Rep Config.base b) :
    addOrderOf b = Config.n.toNat := by
  have : Fact (Nat.Prime Config.n.toNat) := ⟨Sys2Proof.Laws.prime_n⟩
  exact addOrderOf_eq_prime (order_smul_base hb) (base_ne_zero hb)

theorem zsmul_base_eq_iff {b : curve.Point} (hb : Rep Config.base b) (j k : Int) :
    j • b = k • b ↔ j % Config.n = k % Config.n := by
  rw [zsmul_eq_zsmul_iff_modEq, addOrderOf_base hb, n_cast]
  rfl

/-- A multiple of G by a number that is no multiple of n is not the identity. -/
theorem zsmul_base_ne_zero {b : curve.Point} (hb : Rep Config.base b) {k : Int}
    (hk : k % Config.n ≠ 0) : k • b ≠ 0 := by
  have := (zsmul_base_eq_iff hb k 0).not
  rw [zero_zsmul, Int.zero_emod] at this
  exact this.mpr hk

end

end Sys2Proof.Machine
end

