-- ==== Sys2Proof/Laws/Ecdsa.lean ====
section
/-! SUPPORT. The functions of the signature family: what SIGN's run can answer (44_ecdsa.md R383),
that VERIFY's predicate and RECOVER's reconstruction always answer (R384, R385), and the equations
that tie the three together (R387). -/

namespace Sys2Proof.Machine

theorem validScalar_iff (k : Int) : validScalar k = true ↔ 1 ≤ k ∧ k ≤ Config.n - 1 := by
  rw [validScalar, Bool.and_eq_true, decide_eq_true_eq, decide_eq_true_eq]

theorem emod_n_of_valid {k : Int} (h : 1 ≤ k ∧ k ≤ Config.n - 1) : emod k Config.n = k :=
  emod_of_range (by omega) (by omega)

theorem digestIntOf_range (g : Bytes) : 0 ≤ digestIntOf g ∧ digestIntOf g < Config.n :=
  ⟨emod_nonneg n_pos, emod_lt n_pos⟩

theorem digestInt_range (s : State) : 0 ≤ digestInt s ∧ digestInt s < Config.n :=
  digestIntOf_range _

/-- The inverse modulo n of a valid scalar (00_scope.md R25). -/
theorem invert_scalar {k : Int} (h : 1 ≤ k ∧ k ≤ Config.n - 1) :
    ∃ x, invert k Config.n = .ok x ∧ 0 ≤ x ∧ x < Config.n ∧ (x * k) % Config.n = 1 :=
  Sys2Proof.Laws.invert_n_ok (by rw [emod_n_of_valid h]; omega)

/-! ### SIGN (44_ecdsa.md R383) -/

/-- What it takes for a candidate to give a signature: steps 2a–2h of 44_ecdsa.md R383. -/
structure Accepted (tbl : List Point) (d h : Int) (lowS : Bool) (sig : Signature) where
  k : Int
  ik : Int
  x : Int
  y : Int
  s0 : Int
  kRange : 1 ≤ k ∧ k ≤ Config.n - 1
  ikEq : (ik * k) % Config.n = 1
  affine : toAffine (wnaf tbl k) = .ok (x, y)
  rEq : sig.r = emod x Config.n
  rNe : sig.r ≠ 0
  s0Eq : s0 = emod (ik * emod (h + emod (d * sig.r) Config.n) Config.n) Config.n
  s0Ne : s0 ≠ 0
  final : (lowS = true ∧ s0 > Config.halfN ∧ sig.s = Config.n - s0 ∧
      sig.recid = (if x ≠ sig.r then 2 else 0) + (1 - y % 2)) ∨
    (¬(lowS = true ∧ s0 > Config.halfN) ∧ sig.s = s0 ∧
      sig.recid = (if x ≠ sig.r then 2 else 0) + y % 2)

theorem signCandidate_accept {tbl : List Point} {d h : Int} {lowS : Bool} {c : Bytes32} {u : Bool}
    {sig : Signature} (hp : signCandidate tbl d h lowS c = (u, .accept sig)) :
    u = true ∧ Nonempty (Accepted tbl d h lowS sig) := by
  unfold signCandidate at hp
  simp only at hp
  split at hp
  · simp at hp
  · next hk =>
    have hk : validScalar (beInt c.toList) = true := by simpa using hk
    have hk := (validScalar_iff _).mp hk
    obtain ⟨ik, hik, -, -, hik1⟩ := invert_scalar hk
    rw [hik] at hp
    simp only at hp
    split at hp
    · simp at hp
    · next qx qy haff =>
      split at hp
      · simp at hp
      · next hr =>
        split at hp
        · simp at hp
        · next hs =>
          split at hp
          · next hl =>
            simp only [Bool.and_eq_true, decide_eq_true_eq] at hl
            simp only [Prod.mk.injEq, Verdict.accept.injEq] at hp
            obtain ⟨hu, rfl⟩ := hp
            exact ⟨hu.symm, ⟨⟨_, ik, qx, qy, _, hk, hik1, haff, rfl, hr, rfl, hs,
              .inl ⟨hl.1, hl.2, rfl, rfl⟩⟩⟩⟩
          · next hl =>
            simp only [Bool.and_eq_true, decide_eq_true_eq] at hl
            simp only [Prod.mk.injEq, Verdict.accept.injEq] at hp
            obtain ⟨hu, rfl⟩ := hp
            exact ⟨hu.symm, ⟨⟨_, ik, qx, qy, _, hk, hik1, haff, rfl, hr, rfl, hs,
              .inr ⟨hl, rfl, rfl⟩⟩⟩⟩

/-- No candidate aborts the run: the checks that would are unreachable (assumption log 9). -/
theorem signCandidate_abort (tbl : List Point) (d h : Int) (lowS : Bool) (c : Bytes32) (u : Bool)
    (cause : Cause) : signCandidate tbl d h lowS c ≠ (u, .abort cause) := by
  intro hp
  unfold signCandidate at hp
  simp only at hp
  split at hp
  · simp at hp
  · next hk =>
    have hk : validScalar (beInt c.toList) = true := by simpa using hk
    obtain ⟨ik, hik, -, -, hik1⟩ := invert_scalar ((validScalar_iff _).mp hk)
    obtain ⟨x, y, haff, -⟩ := toAffine_spec (wnaf_canonical tbl (beInt c.toList))
    rw [hik, haff] at hp
    simp only at hp
    split at hp
    · simp at hp
    · split at hp
      · simp at hp
      · split at hp <;> simp at hp

/-- A run of SIGN either answers a signature and leaves the DRBG reset, having used the table, or
exhausts the DRBG (43_drbg.md R355, 60_exceptions.md R458). -/
theorem signRun_ends (tbl : List Point) (d h : Int) (lowS : Bool) :
    (∃ sig, (signRun tbl d h lowS).outcome = .ok sig ∧ (signRun tbl d h lowS).drbg = .reset ∧
      (signRun tbl d h lowS).usedTable = true ∧ Nonempty (Accepted tbl d h lowS sig)) ∨
    ((signRun tbl d h lowS).outcome = .error .fatalDrbg ∧
      (signRun tbl d h lowS).drbg.ctr = Config.drbgLimit + 1) := by
  have hends := drbgRun_ends (signSeed d h) (signCandidate tbl d h lowS)
  unfold signRun
  generalize drbgRun (signSeed d h) (signCandidate tbl d h lowS) = run at hends ⊢
  rcases hends with
    ⟨c, u, sig, hp, ho, hd, hu⟩ | ⟨c, u, cause, hp, -, -⟩ | ⟨ho, hc⟩
  · obtain ⟨ht, ha⟩ := signCandidate_accept hp
    exact .inl ⟨sig, ho, hd, hu ht, ha⟩
  · exact (signCandidate_abort _ _ _ _ _ _ _ hp).elim
  · exact .inr ⟨ho, hc⟩

/-- The parts of a signature are in range (44_ecdsa.md R381, R383). -/
theorem Accepted.range {tbl : List Point} {d h : Int} {lowS : Bool} {sig : Signature}
    (a : Accepted tbl d h lowS sig) :
    (1 ≤ sig.r ∧ sig.r ≤ Config.n - 1) ∧ (1 ≤ sig.s ∧ sig.s ≤ Config.n - 1) ∧
      (lowS = true → sig.s ≤ Config.halfN) ∧ (0 ≤ sig.recid ∧ sig.recid ≤ 3) := by
  have hr0 : 0 ≤ sig.r := a.rEq ▸ emod_nonneg n_pos
  have hr1 : sig.r < Config.n := a.rEq ▸ emod_lt n_pos
  have hs0 : 0 ≤ a.s0 := a.s0Eq ▸ emod_nonneg n_pos
  have hs1 : a.s0 < Config.n := a.s0Eq ▸ emod_lt n_pos
  have hr := a.rNe
  have hs := a.s0Ne
  have hhalf : Config.n = 2 * Config.halfN + 1 := by decide
  rcases a.final with ⟨hl, hh, h1, h2⟩ | ⟨hl, h1, h2⟩
  · rw [h1, h2]
    refine ⟨by omega, by omega, fun _ => by omega, ?_⟩
    split <;> omega
  · rw [h1, h2]
    refine ⟨by omega, by omega, fun hlow => ?_, ?_⟩
    · by_contra hgt
      exact hl ⟨hlow, by omega⟩
    · split <;> omega

/-! ### VERIFY (44_ecdsa.md R384) -/

/-- VERIFY's predicate is total (60_exceptions.md R457), and this is what it says. -/
theorem verify_spec (h r s : Int) (q : Point) (lowS : Bool) :
    ∃ b, verifySignature h r s q lowS = .ok b ∧
      (b = true ↔ (1 ≤ r ∧ r ≤ Config.n - 1) ∧ (1 ≤ s ∧ s ≤ Config.n - 1) ∧
        (lowS = true → s ≤ Config.halfN) ∧
        ∃ w x y, 0 ≤ w ∧ w < Config.n ∧ (w * s) % Config.n = 1 ∧
          toAffine (mulAdd (emod (h * w) Config.n) (emod (r * w) Config.n) q) = .ok (x, y) ∧
          emod x Config.n = r) := by
  unfold verifySignature
  by_cases hv : validScalar r = true ∧ validScalar s = true
  · obtain ⟨hr, hs⟩ := hv
    simp only [hr, hs, Bool.and_self, Bool.not_true, Bool.false_eq_true, if_false]
    have hr := (validScalar_iff r).mp hr
    have hs := (validScalar_iff s).mp hs
    by_cases hl : lowS = true ∧ s > Config.halfN
    · refine ⟨false, by simp [hl], by simp only [Bool.false_eq_true, false_iff]; rintro ⟨-, -, h3, -⟩; have := h3 hl.1; omega⟩
    · have hl' : (lowS && decide (s > Config.halfN)) = false := by
        rw [Bool.and_eq_false_iff, decide_eq_false_iff_not]
        by_cases hb : lowS = true
        · exact .inr fun hgt => hl ⟨hb, hgt⟩
        · exact .inl (by simpa using hb)
      obtain ⟨w, hw, w0, w1, hw1⟩ := invert_scalar hs
      obtain ⟨x, y, haff, -⟩ := toAffine_spec
        (mulAdd_canonical (emod (h * w) Config.n) (emod (r * w) Config.n) q)
      simp only [hl', hw, haff, Bool.false_eq_true, if_false]
      refine ⟨_, rfl, ?_⟩
      rw [decide_eq_true_eq]
      constructor
      · intro he
        exact ⟨hr, hs, fun hlow => not_lt.mp fun hgt => hl ⟨hlow, hgt⟩, w, x, y, w0, w1, hw1,
          haff, he⟩
      · rintro ⟨-, -, -, w', x', y', w0', w1', hw1', haff', he'⟩
        obtain rfl := inverse_unique w0 w1 w0' w1' hw1 hw1'
        rw [haff] at haff'
        simp only [Except.ok.injEq, Prod.mk.injEq] at haff'
        rw [haff'.1]
        exact he'
  · refine ⟨false, ?_, ?_⟩
    · have : (validScalar r && validScalar s) = false := by
        rw [Bool.eq_false_iff]
        simpa using hv
      simp [this]
    · simp only [Bool.false_eq_true, false_iff]
      rintro ⟨h1, h2, -⟩
      exact hv ⟨(validScalar_iff r).mpr h1, (validScalar_iff s).mpr h2⟩

/-! ### RECOVER (44_ecdsa.md R385) -/

/-- The x-coordinate RECOVER takes, step 2 of 44_ecdsa.md R385. -/
theorem recover_spec {h r s recid : Int} (hrec : 0 ≤ recid ∧ recid ≤ 3)
    (hr : 1 ≤ r ∧ r ≤ Config.n - 1) (hs : 1 ≤ s ∧ s ≤ Config.n - 1)
    (hx : (if recid / 2 = 1 then r + Config.n else r) < Config.P) :
    let radj := if recid / 2 = 1 then r + Config.n else r
    (∃ rp, fromX radj (decide (recid % 2 = 1)) = .ok rp ∧
      ∃ ir, 0 ≤ ir ∧ ir < Config.n ∧ (ir * radj) % Config.n = 1 ∧
        recoverPoint h r s recid =
          .ok (mulAdd (emod (-h * ir) Config.n) (emod (s * ir) Config.n) rp)) ∨
    (fromX radj (decide (recid % 2 = 1)) = .error .noSqrt ∧
      recoverPoint h r s recid = .error .noSqrt) := by
  intro radj
  have hv : (validScalar r && validScalar s) = true := by
    rw [Bool.and_eq_true]; exact ⟨(validScalar_iff r).mpr hr, (validScalar_iff s).mpr hs⟩
  unfold recoverPoint
  rw [if_neg (not_not.mpr hrec)]
  simp only [hv, Bool.not_true, Bool.false_eq_true, if_false]
  rw [if_neg (not_le.mpr hx)]
  cases hf : fromX radj (decide (recid % 2 = 1)) with
  | error c =>
    refine .inr ⟨by rw [fromX_error hf], ?_⟩
    simp only
    rw [fromX_error hf]
  | ok rp =>
    have hne : emod radj Config.n ≠ 0 := by
      have : emod radj Config.n = r := by
        simp only [radj]
        split
        · rw [emod, Int.add_emod_right]; exact emod_n_of_valid hr
        · exact emod_n_of_valid hr
      rw [this]; omega
    obtain ⟨ir, hir, i0, i1, hir1⟩ := Sys2Proof.Laws.invert_n_ok hne
    refine .inl ⟨rp, rfl, ir, i0, i1, hir1, ?_⟩
    simp only [radj] at hir
    simp only [hir]

end Sys2Proof.Machine
end

