-- ==== Sys2Proof/Laws/Encode.lean ====
section
/-! SUPPORT. Taking a word apart and putting it together are inverse to each other
(30_encoding.md R141). -/

namespace Sys2Proof

theorem ofWord_toWord (x : Fields) : Fields.ofWord x.toWord = x := by
  obtain ⟨op, a, b, c, d, m, f, rsv⟩ := x
  simp only [Fields.ofWord, Fields.toWord, Fields.mk.injEq]
  refine ⟨?_, ?_, ?_, ?_, ?_, ?_, ?_, ?_⟩ <;>
  · apply BitVec.eq_of_getLsbD_eq
    intro i hi
    simp only [BitVec.getLsbD_extractLsb', BitVec.getLsbD_append, hi, decide_true, Bool.true_and]
    repeat' split
    all_goals first | (exfalso; omega) | (congr 1; omega)

theorem toWord_ofWord (w : Word) : (Fields.ofWord w).toWord = w := by
  apply BitVec.eq_of_getLsbD_eq
  intro i hi
  simp only [Fields.ofWord, Fields.toWord, BitVec.getLsbD_extractLsb', BitVec.getLsbD_append]
  repeat' split
  all_goals
    rw [decide_eq_true (by omega), Bool.true_and]
    congr 1
    omega

theorem idx_ofFin (i : Fin 16) : idx (.ofFin i) = i := rfl

theorem ofFin_idx (x : BitVec 4) : BitVec.ofFin (idx x) = x := rfl

end Sys2Proof
end

