-- ==== Sys2Proof/Laws/Exec.lean ====
section
/-! SUPPORT. What a command can do, said once for all 25: every meaning completes, with a recoverable
error that changes STATUS alone, with the fatal exhaustion of the DRBG, or with a success that writes
its destinations. Statements about all commands cite `exec_ends` and never unfold a meaning. -/

namespace Sys2Proof.Machine

/-- FROMAFF is given a curve point or the identity; nothing is asked of other commands
(41_point.md R251). -/
def GoodInput (i : Instr) (s : State) : Prop :=
  ∀ pd rx ry, i = .fromaff pd rx ry → (readR s rx = 0 ∧ readR s ry = 0) ∨
    (readR s ry ^ 2 - (readR s rx ^ 3 + 7)) % Config.P = 0

/-- The table is the rule's, if it is valid (10_state.md R59). -/
def TableRight (s : State) : Prop := s.tableValid = true → s.tbl = buildTable

/-- A triple a command writes: canonical if its sources are, and a curve point if they are. -/
structure GoodPoint (i : Instr) (s : State) (q : Point) : Prop where
  canonical : (∀ j, (readP s j).canonical) → q.canonical
  curve : TableRight s → (∀ j, (readP s j).isCurvePoint) → GoodInput i s → q.isCurvePoint

/-- The commands that may build the table (70_reset_and_hazards.md R504). -/
def MayBuild (i : Instr) (s : State) : Prop :=
  i = .precomp ∨ (∃ pd rk, i = .mulg pd rk) ∨
    (∃ pd pb rk f, i = .mul pd pb rk f ∧ pointEq (readP s pb) Config.base = true) ∨
    ∃ rr rkey rs rrec low, i = .sign rr rkey rs rrec low

/-- The commands that may change the DRBG (10_state.md R58). -/
def MayUseDrbg (i : Instr) : Prop :=
  i = .drbgrst ∨ i = .drbgseed ∨ (∃ rd, i = .drbggen rd) ∨
    ∃ rr rkey rs rrec low, i = .sign rr rkey rs rrec low

/-- What a successful command writes before it completes with `result`. -/
structure Wrote (i : Instr) (result : Bool) (s s' : State) : Prop where
  ints : ∀ j, readR s' j = readR s j ∨ (0 ≤ readR s' j ∧ readR s' j < 2 ^ 257)
  points : ∀ j, readP s' j = readP s j ∨
    (i.pointDest = some j ∧ 2 ≤ j.val ∧ GoodPoint i s (readP s' j))
  drbg : s'.drbg = s.drbg ∨ MayUseDrbg i
  ctr : s.drbg.ctr ≤ Config.drbgLimit → s'.drbg.ctr ≤ Config.drbgLimit
  table : TableKept s s' ∨ (s.tableValid = false ∧ TableBuilt s s' ∧ MayBuild i s)
  fatal : s'.fatal = s.fatal
  quiet : Quiet s s'
  result : result = true → (∃ pa pb, i = .peq pa pb) ∨ ∃ rr rs pq low, i = .verify rr rs pq low

/-- How a command ends. -/
inductive Ends (i : Instr) (s : State) : State → Prop where
  | error (c : Cause) (h : c.isFatal = false) (hn : c ≠ .none) : Ends i s (raise c s)
  | invariant (h : ¬∀ j, (readP s j).canonical) : Ends i s (raise .fatalInvariant s)
  | exhausted (s' : State) (hr : s'.r = s.r) (hp : s'.p = s.p) (hq : Quiet s s')
      (hf : s'.fatal = s.fatal) (hu : MayUseDrbg i)
      (hc : s.drbg.ctr ≤ Config.drbgLimit → s'.drbg.ctr = Config.drbgLimit + 1)
      (ht : TableKept s s' ∨ (s.tableValid = false ∧ TableBuilt s s' ∧ MayBuild i s))
      (hg : ∀ rd, i = .drbggen rd →
        s'.drbg.v = s.drbg.v ∧ s'.drbg.k = s.drbg.k ∧ TableKept s s') :
      Ends i s (raise .fatalDrbg s')
  | done (result : Bool) (s' : State) (h : Wrote i result s s') : Ends i s (complete result s')

/-! ### The shapes of a success -/

theorem ints_writeR {s t : State} (h : ∀ j, readR t j = readR s j ∨
    (0 ≤ readR t j ∧ readR t j < 2 ^ 257)) (rd : RIdx) {v : Int} (h0 : 0 ≤ v) (h1 : v < 2 ^ 257) :
    ∀ j, readR (writeR t rd v) j = readR s j ∨
      (0 ≤ readR (writeR t rd v) j ∧ readR (writeR t rd v) j < 2 ^ 257) := by
  intro j
  by_cases hj : j = rd
  · subst hj
    rw [readR_writeR_result _ _ _ h0 h1]
    exact .inr ⟨h0, h1⟩
  · rw [readR_writeR_ne _ _ _ _ hj]
    exact h j

theorem lt_257 {v : Int} (h : v < 2 ^ 256) : v < 2 ^ 257 :=
  h.trans_le (pow_le_pow_right₀ (by norm_num) (by norm_num))

theorem wrote_writeR {i : Instr} {s : State} (rd : RIdx) {v : Int} (h0 : 0 ≤ v)
    (h1 : v < 2 ^ 257) : Wrote i false s (writeR s rd v) where
  ints := ints_writeR (fun _ => .inl rfl) rd h0 h1
  points _ := .inl rfl
  drbg := .inl rfl
  ctr h := h
  table := .inl ⟨rfl, rfl⟩
  fatal := rfl
  quiet := quiet_writeR s rd v
  result h := by cases h

theorem wrote_writeR₂ {i : Instr} {s : State} (ra rb : RIdx) {v w : Int} (h0 : 0 ≤ v)
    (h1 : v < 2 ^ 257) (k0 : 0 ≤ w) (k1 : w < 2 ^ 257) :
    Wrote i false s (writeR (writeR s ra v) rb w) where
  ints := ints_writeR (ints_writeR (fun _ => .inl rfl) ra h0 h1) rb k0 k1
  points _ := .inl rfl
  drbg := .inl rfl
  ctr h := h
  table := .inl ⟨rfl, rfl⟩
  fatal := rfl
  quiet := (quiet_writeR s ra v).trans (quiet_writeR _ rb w)
  result h := by cases h

theorem points_writeP {i : Instr} {s t : State} (h : ∀ j, readP t j = readP s j) {pd : PIdx}
    (hd : i.pointDest = some pd) {q : Point} (hq : GoodPoint i s q) :
    ∀ j, readP (writeP t pd q) j = readP s j ∨
      (i.pointDest = some j ∧ 2 ≤ j.val ∧ GoodPoint i s (readP (writeP t pd q) j)) := by
  intro j
  by_cases hj : j = pd
  · subst hj
    by_cases h2 : 2 ≤ j.val
    · rw [readP_writeP_same _ _ _ h2]
      exact .inr ⟨hd, h2, hq⟩
    · rw [writeP_hardwired _ _ _ (by omega)]
      exact .inl (h j)
  · rw [readP_writeP_ne _ _ _ _ hj]
    exact .inl (h j)

theorem wrote_writeP {i : Instr} {s : State} {pd : PIdx} (hd : i.pointDest = some pd) {q : Point}
    (hq : GoodPoint i s q) : Wrote i false s (writeP s pd q) where
  ints j := .inl (by simp)
  points := points_writeP (fun _ => rfl) hd hq
  drbg := .inl (by simp)
  ctr h := by simpa using h
  table := .inl ⟨by simp, by simp⟩
  fatal := by simp
  quiet := quiet_writeP s pd q
  result h := by cases h

/-- The table after `withTable`: as it was, or built now. -/
theorem table_withTable {i : Instr} {s t : State} (hm : MayBuild i s)
    (hv : t.tableValid = (withTable s).tableValid) (ht : t.tbl = (withTable s).tbl) :
    TableKept s t ∨ (s.tableValid = false ∧ TableBuilt s t ∧ MayBuild i s) := by
  cases h : s.tableValid
  · exact .inr ⟨rfl, (tableBuilt_withTable s).congr hv ht, hm⟩
  · rw [withTable_of_valid h] at hv ht
    exact .inl ⟨hv, ht⟩

theorem wrote_windowed {i : Instr} {s : State} {pd : PIdx} (hd : i.pointDest = some pd)
    {q : Point} (hq : GoodPoint i s q) (hm : MayBuild i s) :
    Wrote i false s (writeP (withTable s) pd q) where
  ints j := .inl (by simp)
  points := points_writeP (fun _ => by simp) hd hq
  drbg := .inl (by simp)
  ctr h := by simpa using h
  table := table_withTable hm (by simp) (by simp)
  fatal := by simp
  quiet := (quiet_withTable s).trans (quiet_writeP _ pd q)
  result h := by cases h

theorem wrote_self {i : Instr} {s : State} {result : Bool}
    (h : result = true → (∃ pa pb, i = .peq pa pb) ∨ ∃ rr rs pq low, i = .verify rr rs pq low) :
    Wrote i result s s where
  ints _ := .inl rfl
  points _ := .inl rfl
  drbg := .inl rfl
  ctr h := h
  table := .inl ⟨rfl, rfl⟩
  fatal := rfl
  quiet := Quiet.refl s
  result := h

theorem wrote_drbg {i : Instr} {s : State} (hu : MayUseDrbg i) {g : Drbg}
    (hg : s.drbg.ctr ≤ Config.drbgLimit → g.ctr ≤ Config.drbgLimit) :
    Wrote i false s { s with drbg := g } where
  ints _ := .inl rfl
  points _ := .inl rfl
  drbg := .inr hu
  ctr := hg
  table := .inl ⟨rfl, rfl⟩
  fatal := rfl
  quiet := quiet_drbg s g
  result h := by cases h

/-! ### The points the commands write -/

theorem tableOf_closed {s : State} (h : TableRight s) {H : Point → Prop} (c : Closed H) :
    ∀ e ∈ tableOf s, H e := by rw [tableOf_of_built h]; exact buildTable_closed c

/-- A triple with Z = 1 is not (0, 0, 0). -/
theorem isCurvePoint_of_one {p : Point} (hc : p.canonical) (ho : p.onCurve) (hz : p.Z = 1) :
    p.isCurvePoint := ⟨hc, ho, fun h => by rw [hz] at h; exact absurd h.2.2 (by decide)⟩

theorem fromX_isCurvePoint {x : Int} {odd : Bool} {q : Point} (hx : coordOk x = true)
    (h : fromX x odd = .ok q) : q.isCurvePoint := by
  refine isCurvePoint_of_one (fromX_canonical hx h) (fromX_onCurve hx h) ?_
  obtain ⟨y, rfl, -⟩ := fromX_spec h
  exact mkPoint_Z (by decide) (by decide)

section

variable [Fact (Nat.Prime Config.P.toNat)]

theorem isCurvePoint_add {p q : Point} (hp : p.isCurvePoint) (hq : q.isCurvePoint) :
    (pointAdd p q).isCurvePoint := by
  obtain ⟨g, hg⟩ := (isCurvePoint_iff p).mp hp
  obtain ⟨h, hh⟩ := (isCurvePoint_iff q).mp hq
  exact (isCurvePoint_iff _).mpr ⟨_, rep_add hg hh⟩

theorem closed_isCurvePoint : Closed Point.isCurvePoint where
  add _ _ := isCurvePoint_add
  neg p h := by
    obtain ⟨g, hg⟩ := (isCurvePoint_iff p).mp h
    exact (isCurvePoint_iff _).mpr ⟨_, rep_neg hg⟩
  zero := (isCurvePoint_iff _).mpr ⟨_, rep_zero⟩
  base := (isCurvePoint_iff _).mpr exists_rep_base

theorem goodPoint_wnaf (i : Instr) (s : State) (k : Int) : GoodPoint i s (wnaf (tableOf s) k) :=
  ⟨fun _ => wnaf_canonical _ _, fun ht _ _ =>
    wnaf_closed closed_isCurvePoint (tableOf_closed ht closed_isCurvePoint) k⟩

theorem fromAffine_isCurvePoint {x y : Int} (hx : coordOk x = true) (hy : coordOk y = true)
    (h : (x = 0 ∧ y = 0) ∨ (y ^ 2 - (x ^ 3 + 7)) % Config.P = 0) :
    (fromAffine x y).isCurvePoint := by
  have hc := fromAffine_canonical hx hy
  simp only [coordOk, Bool.and_eq_true, decide_eq_true_eq] at hx hy
  unfold fromAffine at *
  split
  · exact closed_isCurvePoint.zero
  · next hn =>
    rw [if_neg hn] at hc
    have hcurve := (emod_sub_eq_zero_iff _ _).mp (h.resolve_left hn)
    have hZ : (mkPoint x y 1).Z = 1 := mkPoint_Z (by decide) (by decide)
    refine isCurvePoint_of_one hc ?_ hZ
    rw [onCurve_iff, mkPoint_X hx.1 (hx.2.trans P_lt), mkPoint_Y hy.1 (hy.2.trans P_lt), hZ]
    unfold OnCurve
    push_cast at hcurve ⊢
    linear_combination hcurve

end

/-! ### Every command -/

theorem reduceInto_ends {i : Instr} {s : State} {m : ModSel} (rd : RIdx) (v : Int)
    (h : exec i s = reduceInto rd v m s) : ∃ t, exec i s = .next t ∧ Ends i s t := by
  rw [h]
  unfold reduceInto
  cases hm : selectModulus s m with
  | error c =>
    have : c = .domain := by
      unfold selectModulus at hm
      simp only at hm
      split at hm
      · cases hm
      · simpa using hm.symm
    subst this
    exact ⟨_, rfl, .error _ rfl (by decide)⟩
  | ok mv =>
    have hv : validModulus mv = true := by
      unfold selectModulus at hm
      simp only at hm
      split at hm
      · next h' => simp only [Except.ok.injEq] at hm; exact hm ▸ h'
      · cases hm
    obtain ⟨h1, h2⟩ := (validModulus_iff mv).mp hv
    have hpos : 0 < mv := by omega
    exact ⟨_, rfl, .done _ _ (wrote_writeR rd (emod_nonneg hpos)
      (lt_257 ((emod_lt hpos).trans h2)))⟩

theorem modinv_ends (rd ra : RIdx) (m : ModSel) (s : State) :
    ∃ t, execModinv rd ra m s = .next t ∧ Ends (.modinv rd ra m) s t := by
  unfold execModinv
  cases hm : selectModulus s m with
  | error c =>
    have : c = .domain := by
      unfold selectModulus at hm
      simp only at hm
      split at hm
      · cases hm
      · simpa using hm.symm
    subst this
    exact ⟨_, rfl, .error _ rfl (by decide)⟩
  | ok mv =>
    simp only
    cases hi : invert (readR s ra) mv with
    | error c =>
      have : c = .domain ∨ c = .noInverse := by
        unfold invert at hi
        split at hi
        · exact .inl (by simpa using hi.symm)
        · split at hi
          · exact .inl (by simpa using hi.symm)
          · split at hi
            · exact .inr (by simpa using hi.symm)
            · cases hi
      rcases this with rfl | rfl
      · exact ⟨_, rfl, .error _ rfl (by decide)⟩
      · exact ⟨_, rfl, .error _ rfl (by decide)⟩
    | ok x =>
      obtain ⟨h0, h1, -, h2⟩ := invert_sound hi
      exact ⟨_, rfl, .done _ _ (wrote_writeR rd h0 (lt_257 (h1.trans h2)))⟩

theorem modsqrt_ends (rd ra : RIdx) (s : State) :
    ∃ t, execModsqrt rd ra s = .next t ∧ Ends (.modsqrt rd ra) s t := by
  unfold execModsqrt
  cases hr : sqrtP (readR s ra) with
  | error c =>
    rw [sqrtP_error hr]
    exact ⟨_, rfl, .error _ rfl (by decide)⟩
  | ok r =>
    obtain ⟨h0, h1, -⟩ := sqrtP_sound hr
    exact ⟨_, rfl, .done _ _ (wrote_writeR rd h0 (lt_257 (h1.trans P_lt)))⟩

theorem toaff_ends (rx : RIdx) (pa : PIdx) (ry : RIdx) (s : State) :
    ∃ t, execToaff rx pa ry s = .next t ∧ Ends (.toaff rx pa ry) s t := by
  unfold execToaff
  cases ha : toAffine (readP s pa) with
  | error c =>
    have hc : c = .fatalInvariant := by
      unfold toAffine at ha
      split at ha
      · cases ha
      · split at ha
        · cases ha
        · split at ha
          · simpa using ha.symm
          · split at ha
            · simpa using ha.symm
            · cases ha
    rw [hc]
    refine ⟨_, rfl, .invariant fun h => ?_⟩
    obtain ⟨x, y, e, -⟩ := toAffine_spec (h pa)
    rw [e] at ha
    cases ha
  | ok xy =>
    obtain ⟨x, y⟩ := xy
    have hb : (0 ≤ x ∧ x < 2 ^ 256) ∧ (0 ≤ y ∧ y < 2 ^ 256) := by
      unfold toAffine at ha
      split at ha
      · simp only [Except.ok.injEq, Prod.mk.injEq] at ha
        obtain ⟨rfl, rfl⟩ := ha
        exact ⟨⟨le_rfl, by positivity⟩, ⟨le_rfl, by positivity⟩⟩
      · split at ha
        · simp only [Except.ok.injEq, Prod.mk.injEq] at ha
          obtain ⟨rfl, rfl⟩ := ha
          exact ⟨⟨X_nonneg _, X_lt _⟩, ⟨Y_nonneg _, Y_lt _⟩⟩
        · split at ha
          · cases ha
          · split at ha
            · cases ha
            · simp only [Except.ok.injEq, Prod.mk.injEq] at ha
              obtain ⟨rfl, rfl⟩ := ha
              exact ⟨⟨modP_nonneg _, modP_lt_bound _⟩, ⟨modP_nonneg _, modP_lt_bound _⟩⟩
    exact ⟨_, rfl, .done _ _ (wrote_writeR₂ rx ry hb.1.1 (lt_257 hb.1.2) hb.2.1 (lt_257 hb.2.2))⟩

theorem fromaff_ends (pd : PIdx) (rx ry : RIdx) (s : State) :
    ∃ t, execFromaff pd rx ry s = .next t ∧ Ends (.fromaff pd rx ry) s t := by
  have := fact_prime_P
  unfold execFromaff
  simp only
  split
  · next h =>
    rw [Bool.and_eq_true] at h
    refine ⟨_, rfl, .done _ _ (wrote_writeP rfl ⟨fun _ => fromAffine_canonical h.1 h.2, ?_⟩)⟩
    exact fun _ _ hg => fromAffine_isCurvePoint h.1 h.2 (hg pd rx ry rfl)
  · exact ⟨_, rfl, .error _ rfl (by decide)⟩

theorem fromx_ends (pd : PIdx) (rx : RIdx) (odd : Bool) (s : State) :
    ∃ t, execFromx pd rx odd s = .next t ∧ Ends (.fromx pd rx odd) s t := by
  have := fact_prime_P
  unfold execFromx
  simp only
  split
  · next h =>
    cases hf : fromX (readR s rx) odd with
    | error c => rw [fromX_error hf]; exact ⟨_, rfl, .error _ rfl (by decide)⟩
    | ok q =>
      exact ⟨_, rfl, .done _ _ (wrote_writeP rfl
        ⟨fun _ => fromX_canonical h hf, fun _ _ _ => fromX_isCurvePoint h hf⟩)⟩
  · exact ⟨_, rfl, .error _ rfl (by decide)⟩

theorem mul_ends (pd pb : PIdx) (rk : RIdx) (safe : Bool) (s : State) :
    ∃ t, execMul pd pb rk safe s = .next t ∧ Ends (.mul pd pb rk safe) s t := by
  have := fact_prime_P
  unfold execMul
  simp only
  split
  · split
    · next h =>
      exact ⟨_, rfl, .done _ _ (wrote_windowed rfl (goodPoint_wnaf _ s _)
        (.inr (.inr (.inl ⟨_, _, _, _, rfl, h⟩))))⟩
    · exact ⟨_, rfl, .done _ _ (wrote_writeP rfl ⟨fun h => generic_canonical _ (h pb) _ _,
        fun _ h _ => generic_closed closed_isCurvePoint (h pb) _ _⟩)⟩
  · exact ⟨_, rfl, .error _ rfl (by decide)⟩

theorem mulg_ends (pd : PIdx) (rk : RIdx) (s : State) :
    ∃ t, execMulg pd rk s = .next t ∧ Ends (.mulg pd rk) s t := by
  have := fact_prime_P
  unfold execMulg
  simp only
  split
  · exact ⟨_, rfl, .done _ _ (wrote_windowed rfl (goodPoint_wnaf _ s _) (.inr (.inl ⟨_, _, rfl⟩)))⟩
  · exact ⟨_, rfl, .error _ rfl (by decide)⟩

theorem muladd_ends (pd : PIdx) (ru1 ru2 : RIdx) (pq : PIdx) (s : State) :
    ∃ t, execMuladd pd ru1 ru2 pq s = .next t ∧ Ends (.muladd pd ru1 ru2 pq) s t := by
  have := fact_prime_P
  unfold execMuladd
  simp only
  split
  · exact ⟨_, rfl, .done _ _ (wrote_writeP rfl ⟨fun _ => mulAdd_canonical _ _ _,
      fun _ h _ => mulAdd_closed closed_isCurvePoint (h pq) _ _⟩)⟩
  · exact ⟨_, rfl, .error _ rfl (by decide)⟩

theorem naf_ends (rpos rk rneg : RIdx) (s : State) :
    ∃ t, execNaf rpos rk rneg s = .next t ∧ Ends (.naf rpos rk rneg) s t := by
  unfold execNaf
  simp only
  split
  · next h =>
    rw [Bool.and_eq_true, decide_eq_true_eq, decide_eq_true_eq] at h
    obtain ⟨a, b, e, -, ha, hb, -⟩ := naf_spec h.1 h.2
    rw [e]
    have ha' : (a : Int) < 2 ^ 257 := by exact_mod_cast ha
    have hb' : (b : Int) < 2 ^ 257 := by exact_mod_cast hb
    exact ⟨_, rfl, .done _ _ (wrote_writeR₂ rpos rneg (Int.natCast_nonneg a) ha'
      (Int.natCast_nonneg b) hb')⟩
  · exact ⟨_, rfl, .error _ rfl (by decide)⟩

theorem precomp_ends (s : State) : ∃ t, execPrecomp s = .next t ∧ Ends .precomp s t := by
  refine ⟨_, rfl, .done _ _ ?_⟩
  exact {
    ints := fun j => .inl (by simp)
    points := fun j => .inl (by simp)
    drbg := .inl (by simp)
    ctr := fun h => by simpa using h
    table := table_withTable (.inl rfl) rfl rfl
    fatal := by simp
    quiet := quiet_withTable s
    result := fun h => by cases h }

theorem drbgseed_ends (s : State) : ∃ t, execDrbgseed s = .next t ∧ Ends .drbgseed s t :=
  ⟨_, rfl, .done _ _ (wrote_drbg (.inr (.inl rfl)) (by rw [drbgReseed_ctr]; exact id))⟩

theorem wrote_drbg_writeR {i : Instr} {s : State} (hu : MayUseDrbg i) {g : Drbg}
    (hg : g.ctr ≤ Config.drbgLimit) (rd : RIdx) {v : Int} (h0 : 0 ≤ v) (h1 : v < 2 ^ 257) :
    Wrote i false s (writeR { s with drbg := g } rd v) where
  ints := ints_writeR (fun _ => .inl rfl) rd h0 h1
  points _ := .inl rfl
  drbg := .inr hu
  ctr _ := hg
  table := .inl ⟨rfl, rfl⟩
  fatal := rfl
  quiet := (quiet_drbg s g).trans (quiet_writeR _ rd v)
  result h := by cases h

theorem drbggen_ends (rd : RIdx) (s : State) :
    ∃ t, execDrbggen rd s = .next t ∧ Ends (.drbggen rd) s t := by
  have hu : MayUseDrbg (.drbggen rd) := .inr (.inr (.inl ⟨rd, rfl⟩))
  unfold execDrbggen
  by_cases h : s.drbg.ctr < Config.drbgLimit
  · rw [drbgGenerate_ok h]
    generalize hmac s.drbg.k s.drbg.v.toList = v
    exact ⟨_, rfl, .done _ _ (wrote_drbg_writeR hu (Nat.succ_le_of_lt h) rd (beInt_nonneg _)
      (lt_257 (beInt_bytes32_lt _)))⟩
  · rw [drbgGenerate_error (by omega)]
    exact ⟨_, rfl, .exhausted _ rfl rfl (quiet_drbg s _) rfl hu (fun hc => by simp only; omega)
      (.inl ⟨rfl, rfl⟩) fun _ _ => ⟨rfl, rfl, rfl, rfl⟩⟩

/-- The state SIGN completes from. -/
theorem wrote_sign {i : Instr} {s : State} (hu : MayUseDrbg i) (hb : MayBuild i s)
    {g : Drbg} (hg : g.ctr ≤ Config.drbgLimit) (rr rs rrec : RIdx) {x y z : Int}
    (x0 : 0 ≤ x) (x1 : x < 2 ^ 257) (y0 : 0 ≤ y) (y1 : y < 2 ^ 257) (z0 : 0 ≤ z)
    (z1 : z < 2 ^ 257) : Wrote i false s
      (writeR (writeR (writeR { withTable s with drbg := g } rr x) rs y) rrec z) where
  ints := ints_writeR (ints_writeR (ints_writeR (fun j => .inl (by simp [readR])) rr x0 x1)
    rs y0 y1) rrec z0 z1
  points := fun j => .inl (readP_of_p (by simp) j)
  drbg := .inr hu
  ctr _ := hg
  table := table_withTable hb rfl rfl
  fatal := by simp
  quiet := (quiet_withTable s).trans ((quiet_drbg _ _).trans ((quiet_writeR _ rr _).trans
    ((quiet_writeR _ rs _).trans (quiet_writeR _ rrec _))))
  result h := by cases h

/-- The state SIGN dies from, whether its run used the table or not. -/
theorem ends_sign_exhausted {i : Instr} {s : State} (hu : MayUseDrbg i) (hb : MayBuild i s)
    {g : Drbg} (hg : g.ctr = Config.drbgLimit + 1) (used : Bool) (hn : ∀ rd, i ≠ .drbggen rd) :
    Ends i s (raise .fatalDrbg { (if used then withTable s else s) with drbg := g }) := by
  cases used
  · exact .exhausted _ rfl rfl (quiet_drbg s _) rfl hu (fun _ => hg) (.inl ⟨rfl, rfl⟩)
      fun rd h => absurd h (hn rd)
  · exact .exhausted _ (by simp) (by simp) ((quiet_withTable s).trans (quiet_drbg _ _)) (by simp)
      hu (fun _ => hg) (table_withTable hb rfl rfl) fun rd h => absurd h (hn rd)

/-- SIGN after its check of the key, by how its run ends. -/
theorem execSign_run {rr rkey rs rrec : RIdx} {low : Bool} {s : State}
    (hv : validScalar (readR s rkey) = true) {run : DrbgRun Signature}
    (hr : signRun (tableOf s) (readR s rkey) (digestInt s) low = run) :
    execSign rr rkey rs rrec low s =
      match run.outcome with
      | .error c =>
        fail c { (if run.usedTable then withTable s else s) with drbg := run.drbg }
      | .ok sig => succeed (writeR (writeR (writeR
          { (if run.usedTable then withTable s else s) with drbg := run.drbg } rr sig.r)
          rs sig.s) rrec sig.recid) := by
  obtain ⟨g, u, o⟩ := run
  unfold execSign
  simp only [hv, hr, if_true]
  all_goals (cases o <;> rfl)

theorem execSign_range {rr rkey rs rrec : RIdx} {low : Bool} {s : State}
    (hv : validScalar (readR s rkey) = false) :
    execSign rr rkey rs rrec low s = fail .range s := by
  unfold execSign
  exact if_neg (by rw [hv]; decide)

theorem sign_ends (rr rkey rs rrec : RIdx) (low : Bool) (s : State) :
    ∃ t, execSign rr rkey rs rrec low s = .next t ∧ Ends (.sign rr rkey rs rrec low) s t := by
  have hu : MayUseDrbg (.sign rr rkey rs rrec low) := .inr (.inr (.inr ⟨_, _, _, _, _, rfl⟩))
  have hb : MayBuild (.sign rr rkey rs rrec low) s :=
    .inr (.inr (.inr ⟨_, _, _, _, _, rfl⟩))
  cases hv : validScalar (readR s rkey)
  · rw [execSign_range hv]
    exact ⟨_, rfl, .error _ rfl (by decide)⟩
  · have he := signRun_ends (tableOf s) (readR s rkey) (digestInt s) low
    obtain ⟨run, hr⟩ : ∃ run, signRun (tableOf s) (readR s rkey) (digestInt s) low = run :=
      ⟨_, rfl⟩
    rw [execSign_run hv hr]
    rw [hr] at he
    clear hr
    rcases he with ⟨sig, ho, hd, ht, ⟨ha⟩⟩ | ⟨ho, hc⟩
    · rw [ho, ht, hd]
      obtain ⟨⟨r1, r2⟩, ⟨s1, s2⟩, -, ⟨c1, c2⟩⟩ := ha.range
      have hn : Config.n < 2 ^ 256 := by decide
      exact ⟨_, rfl, .done _ _ (wrote_sign hu hb (Nat.zero_le _) rr rs rrec (by omega)
        (lt_257 (by omega)) (by omega) (lt_257 (by omega)) c1 (lt_257 (by omega)))⟩
    · rw [ho]
      exact ⟨_, rfl, ends_sign_exhausted hu hb hc _ fun rd h => by cases h⟩

theorem verify_ends (rr rs : RIdx) (pq : PIdx) (low : Bool) (s : State) :
    ∃ t, execVerify rr rs pq low s = .next t ∧ Ends (.verify rr rs pq low) s t := by
  unfold execVerify
  obtain ⟨b, e, -⟩ := verify_spec (digestInt s) (readR s rr) (readR s rs) (readP s pq) low
  rw [e]
  exact ⟨_, rfl, .done _ _ (wrote_self fun _ => .inr ⟨_, _, _, _, rfl⟩)⟩

/-- The errors of RECOVER's reconstruction are recoverable, and its result is a curve point. -/
theorem recoverPoint_cases (h r s recid : Int) :
    (∃ c, recoverPoint h r s recid = .error c ∧ c.isFatal = false ∧ c ≠ .none) ∨
      ∃ q, recoverPoint h r s recid = .ok q ∧ q.canonical ∧ q.isCurvePoint := by
  have := fact_prime_P
  by_cases hrec : 0 ≤ recid ∧ recid ≤ 3
  · by_cases hv : validScalar r = true ∧ validScalar s = true
    · by_cases hx : (if recid / 2 = 1 then r + Config.n else r) < Config.P
      · rcases recover_spec (h := h) hrec ((validScalar_iff r).mp hv.1)
          ((validScalar_iff s).mp hv.2) hx with ⟨rp, hf, ir, -, -, -, e⟩ | ⟨-, e⟩
        · refine .inr ⟨_, e, mulAdd_canonical .., mulAdd_closed closed_isCurvePoint ?_ _ _⟩
          refine fromX_isCurvePoint ?_ hf
          have := (validScalar_iff r).mp hv.1
          have hn := n_pos
          rw [coordOk, Bool.and_eq_true, decide_eq_true_eq, decide_eq_true_eq]
          refine ⟨?_, hx⟩
          split <;> omega
        · exact .inl ⟨_, e, rfl, by decide⟩
      · refine .inl ⟨.xOverflow, ?_, rfl, by decide⟩
        unfold recoverPoint
        rw [if_neg (not_not.mpr hrec)]
        simp only [hv.1, hv.2, Bool.and_self, Bool.not_true, Bool.false_eq_true, if_false]
        rw [if_pos (not_lt.mp hx)]
    · refine .inl ⟨.range, ?_, rfl, by decide⟩
      unfold recoverPoint
      rw [if_neg (not_not.mpr hrec)]
      have : (validScalar r && validScalar s) = false := by
        rw [Bool.eq_false_iff, Ne, Bool.and_eq_true]; exact hv
      simp only [this, Bool.not_false, if_true]
  · refine .inl ⟨.badRecid, ?_, rfl, by decide⟩
    unfold recoverPoint
    rw [if_pos hrec]

theorem recover_ends (pd : PIdx) (rr rs rrec : RIdx) (s : State) :
    ∃ t, execRecover pd rr rs rrec s = .next t ∧ Ends (.recover pd rr rs rrec) s t := by
  unfold execRecover
  rcases recoverPoint_cases (digestInt s) (readR s rr) (readR s rs) (readR s rrec) with
    ⟨c, e, hf, hn⟩ | ⟨q, e, hc, hq⟩
  · rw [e]; exact ⟨_, rfl, .error c hf hn⟩
  · rw [e]; exact ⟨_, rfl, .done _ _ (wrote_writeP rfl ⟨fun _ => hc, fun _ _ _ => hq⟩)⟩

/-- Every command answers a next state, and ends in one of the ways of `Ends`. -/
theorem exec_ends (i : Instr) (s : State) : ∃ t, exec i s = .next t ∧ Ends i s t := by
  have := fact_prime_P
  have add : ∀ {i : Instr} {pd : PIdx} (pa pb : PIdx), i.pointDest = some pd →
      Wrote i false s (writeP s pd (pointAdd (readP s pa) (readP s pb))) := fun pa pb h =>
    wrote_writeP h ⟨fun _ => pointAdd_canonical _ _, fun _ h _ => isCurvePoint_add (h pa) (h pb)⟩
  cases i with
  | mod rd ra m => exact reduceInto_ends rd _ rfl
  | modadd rd ra rb m => exact reduceInto_ends rd _ rfl
  | modsub rd ra rb m => exact reduceInto_ends rd _ rfl
  | modmul rd ra rb m => exact reduceInto_ends rd _ rfl
  | modinv rd ra m => exact modinv_ends rd ra m s
  | modsqrt rd ra => exact modsqrt_ends rd ra s
  | padd pd pa pb => exact ⟨_, rfl, .done _ _ (add pa pb rfl)⟩
  | pdbl pd pa => exact ⟨_, rfl, .done _ _ (add pa pa rfl)⟩
  | pneg pd pa =>
    exact ⟨_, rfl, .done _ _ (wrote_writeP rfl ⟨fun h => pointNeg_canonical (h pa),
      fun _ h _ => closed_isCurvePoint.neg _ (h pa)⟩)⟩
  | peq pa pb => exact ⟨_, rfl, .done _ _ (wrote_self fun _ => .inl ⟨_, _, rfl⟩)⟩
  | pmov pd pa =>
    exact ⟨_, rfl, .done _ _ (wrote_writeP rfl ⟨fun h => h pa, fun _ h _ => h pa⟩)⟩
  | toaff rx pa ry => exact toaff_ends rx pa ry s
  | fromaff pd rx ry => exact fromaff_ends pd rx ry s
  | fromx pd rx odd => exact fromx_ends pd rx odd s
  | mul pd pb rk safe => exact mul_ends pd pb rk safe s
  | mulg pd rk => exact mulg_ends pd rk s
  | muladd pd ru1 ru2 pq => exact muladd_ends pd ru1 ru2 pq s
  | naf rpos rk rneg => exact naf_ends rpos rk rneg s
  | precomp => exact precomp_ends s
  | drbgrst => exact ⟨_, rfl, .done _ _ (wrote_drbg (.inl rfl) fun _ => Nat.zero_le _)⟩
  | drbgseed => exact drbgseed_ends s
  | drbggen rd => exact drbggen_ends rd s
  | sign rr rkey rs rrec low => exact sign_ends rr rkey rs rrec low s
  | verify rr rs pq low => exact verify_ends rr rs pq low s
  | recover pd rr rs rrec => exact recover_ends pd rr rs rrec s

end Sys2Proof.Machine
end

