-- ==== Sys2Proof/Laws/Flags.lean ====
section
/-! SUPPORT. The STATUS word bit by bit (10_state.md R53). -/

namespace Sys2Proof.Machine

/-- Bit k of the STATUS word, from the least significant field up. -/
theorem statusWord_bit (s : State) (k : Nat) : (statusWord s).getLsbD k =
    if k = 0 then s.busy else if k = 1 then s.done else if k = 2 then s.err
    else if k = 3 then s.result else if k = 4 then s.tableValid else if k = 5 then s.fatal
    else if k = 6 then s.ovr else if k = 7 then false
    else if k < 16 then s.cause.code.getLsbD (k - 8) else false := by
  simp only [statusWord, BitVec.getLsbD_append, BitVec.getLsbD_ofBool, Nat.sub_sub]
  by_cases h : k < 8
  · interval_cases k <;> simp
  · iterate 8 rw [if_neg (by omega)]
    iterate 8 rw [if_neg (by omega : ¬k = _)]
    by_cases h16 : k < 16
    · rw [if_pos (by omega), if_pos h16]
    · rw [if_neg (by omega), if_neg h16]
      exact BitVec.getLsbD_zero

theorem statusWord_cause (s : State) : (statusWord s).extractLsb' 8 8 = s.cause.code := by
  apply BitVec.eq_of_getLsbD_eq
  intro i hi
  rw [BitVec.getLsbD_extractLsb', statusWord_bit]
  simp only [hi, decide_true, Bool.true_and]
  iterate 8 rw [if_neg (by omega : ¬8 + i = _)]
  rw [if_pos (by omega), Nat.add_sub_cancel_left]

theorem statusWord_reserved (s : State) : (statusWord s).extractLsb' 16 16 = 0 := by
  apply BitVec.eq_of_getLsbD_eq
  intro i hi
  rw [BitVec.getLsbD_extractLsb', statusWord_bit]
  iterate 8 rw [if_neg (by omega : ¬16 + i = _)]
  rw [if_neg (by omega)]
  simp

end Sys2Proof.Machine
end

