-- ==== Sys2Proof/Laws/Mmio.lean ====
section
/-! SUPPORT. The window: which register each offset names (20_memory.md R101), what a write can do
to the state, and the words and bytes a write replaces. -/

namespace Sys2Proof.Machine

/-! ### The address map -/

theorem mmioReg_dg (j : Fin 16) : mmioReg (0x100 + 4 * j.val) = .dg j := by
  unfold mmioReg
  rw [if_neg (by omega), if_pos (by omega)]
  congr 1
  exact Fin.ext (by simp only [Fin.val_ofNat]; omega)

theorem mmioReg_r (i : RIdx) (j : Fin 16) : mmioReg (0x400 + 64 * i.val + 4 * j.val) = .r i j := by
  unfold mmioReg
  rw [if_neg (by omega), if_neg (by omega), if_neg (by omega), if_pos (by omega)]
  congr 1
  · exact Fin.ext (by simp only [Fin.val_ofNat]; omega)
  · exact Fin.ext (by simp only [Fin.val_ofNat]; omega)

theorem mmioReg_px (i : PIdx) (j : Fin 8) : mmioReg (0x800 + 128 * i.val + 4 * j.val) = .px i j := by
  unfold mmioReg
  simp only
  rw [if_neg (by omega), if_neg (by omega), if_neg (by omega), if_neg (by omega),
    if_pos (by omega), if_pos (by omega)]
  congr 1
  · exact Fin.ext (by simp only [Fin.val_ofNat]; omega)
  · exact Fin.ext (by simp only [Fin.val_ofNat]; omega)

theorem mmioReg_py (i : PIdx) (j : Fin 8) : mmioReg (0x820 + 128 * i.val + 4 * j.val) = .py i j := by
  unfold mmioReg
  simp only
  rw [if_neg (by omega), if_neg (by omega), if_neg (by omega), if_neg (by omega),
    if_pos (by omega), if_neg (by omega), if_pos (by omega)]
  congr 1
  · exact Fin.ext (by simp only [Fin.val_ofNat]; omega)
  · exact Fin.ext (by simp only [Fin.val_ofNat]; omega)

theorem mmioReg_pz (i : PIdx) (j : Fin 8) : mmioReg (0x840 + 128 * i.val + 4 * j.val) = .pz i j := by
  unfold mmioReg
  simp only
  rw [if_neg (by omega), if_neg (by omega), if_neg (by omega), if_neg (by omega),
    if_pos (by omega), if_neg (by omega), if_neg (by omega), if_pos (by omega)]
  congr 1
  · exact Fin.ext (by simp only [Fin.val_ofNat]; omega)
  · exact Fin.ext (by simp only [Fin.val_ofNat]; omega)

theorem mmioReg_low_reserved {off : Nat} (h1 : 0x01C ≤ off) (h2 : off < 0x100) :
    mmioReg off = .reserved := by
  unfold mmioReg
  rw [if_pos h2]
  split <;> first | rfl | omega

theorem mmioReg_mid_reserved {off : Nat} (h1 : 0x140 ≤ off) (h2 : off < 0x400) :
    mmioReg off = .reserved := by
  unfold mmioReg
  rw [if_neg (by omega), if_neg (by omega), if_pos h2]

theorem mmioReg_point_reserved {off : Nat} (h1 : 0x800 ≤ off) (h2 : 0x60 ≤ (off - 0x800) % 128) :
    mmioReg off = .reserved := by
  unfold mmioReg
  simp only
  rw [if_neg (by omega), if_neg (by omega), if_neg (by omega), if_neg (by omega)]
  by_cases h : off < 0x1000
  · rw [if_pos h, if_neg (by omega), if_neg (by omega), if_neg (by omega)]
  · rw [if_neg h]

/-- The offsets whose write the busy window protects, DLEN apart. -/
theorem mmioReg_data {off : Nat} (h4 : off % 4 = 0) :
    (0x100 ≤ off → off < 0x140 → ∃ j : Fin 16, off = 0x100 + 4 * j.val) ∧
    (0x400 ≤ off → off < 0x800 → ∃ (i : RIdx) (j : Fin 16), off = 0x400 + 64 * i.val + 4 * j.val) :=
  ⟨fun _ _ => ⟨⟨(off - 0x100) / 4, by omega⟩, by simp only; omega⟩,
    fun _ _ => ⟨⟨(off - 0x400) / 64, by omega⟩, ⟨(off - 0x400) % 64 / 4, by omega⟩,
      by simp only; omega⟩⟩

/-- No offset from 0x800 on names anything a write changes (20_memory.md R101, R107). -/
theorem writeReg_points {off : Nat} (h : 0x800 ≤ off) (v : Word) (s : State) :
    writeReg v (mmioReg off) s = s := by
  unfold mmioReg
  simp only
  rw [if_neg (by omega), if_neg (by omega), if_neg (by omega), if_neg (by omega)]
  repeat' split
  all_goals rfl

/-! ### What a write can do -/

/-- The registers whose writes the busy window refuses (70_reset_and_hazards.md R510). -/
def MmioReg.guarded : MmioReg → Bool
  | .cmd | .dlen | .dg _ | .r _ _ => true
  | .id | .ctrl | .status | .drbgctr | .cmdlog | .px _ _ | .py _ _ | .pz _ _ | .reserved => false

/-- The offsets a register of the busy window can stand at. -/
theorem guarded_offsets {off : Nat} (h : (mmioReg off).guarded = true) :
    off = 0x00C ∨ off = 0x010 ∨ (0x100 ≤ off ∧ off < 0x140) ∨ (0x400 ≤ off ∧ off < 0x800) := by
  unfold mmioReg at h
  simp only at h
  split at h
  · split at h
    all_goals first
      | exact .inl rfl
      | exact .inr (.inl rfl)
      | cases h
  all_goals
    repeat' split at h
    all_goals first
      | omega
      | cases h

/-- How a 32-bit write of v to a register ends. -/
inductive WriteEnds (v : Word) (s : State) : MmioReg → State → Prop where
  | ignored (reg : MmioReg) (h : reg ≠ .status ∧ reg ≠ .ctrl) : WriteEnds v s reg s
  | busy (reg : MmioReg) (h : reg.guarded = true) (hb : s.busy = true) :
    WriteEnds v s reg { s with ovr := true }
  | reset (h : v.getLsbD 1 = true) : WriteEnds v s .ctrl (resetBlock s)
  | irqen (h : v.getLsbD 1 = false) : WriteEnds v s .ctrl { s with irqen := v.getLsbD 0 }
  | status : WriteEnds v s .status (writeStatus v s)
  | accepted (hb : s.busy = false) (hf : s.fatal = false) : WriteEnds v s .cmd (accept v s)
  | dlen (hb : s.busy = false) (h : (v.extractLsb' 0 7).toNat ≤ Config.digestMax) :
    WriteEnds v s .dlen { s with dlen := v.extractLsb' 0 7 }
  | dg (j : Fin 16) (hb : s.busy = false) :
    WriteEnds v s (.dg j) { s with dg := setDgWord s.dg j v }
  | r (i : RIdx) (j : Fin 16) (hb : s.busy = false) :
    WriteEnds v s (.r i j) { s with r := s.r.set i (setWordOf s.r[i] j v) }

theorem guardBusy_of_busy {s : State} (h : s.busy = true) (s' : State) :
    guardBusy s s' = { s with ovr := true } := if_pos h

theorem guardBusy_of_idle {s : State} (h : s.busy = false) (s' : State) :
    guardBusy s s' = s' := if_neg (by simp [h])

theorem writeReg_ends (v : Word) (reg : MmioReg) (s : State) :
    WriteEnds v s reg (writeReg v reg s) := by
  cases reg with
  | ctrl =>
    simp only [writeReg, writeCtrl]
    cases h : v.getLsbD 1
    · exact .irqen h
    · exact .reset h
  | status => exact .status
  | cmd =>
    simp only [writeReg, writeCmd]
    cases hb : s.busy
    · cases hf : s.fatal
      · exact .accepted hb hf
      · exact .ignored _ (by decide)
    · exact .busy _ rfl hb
  | dlen =>
    simp only [writeReg]
    cases hb : s.busy
    · rw [guardBusy_of_idle hb]
      unfold writeDlen
      simp only
      split
      · next h => exact .dlen hb h
      · exact .ignored _ (by decide)
    · rw [guardBusy_of_busy hb]; exact .busy _ rfl hb
  | dg j =>
    simp only [writeReg]
    cases hb : s.busy
    · rw [guardBusy_of_idle hb]; exact .dg j hb
    · rw [guardBusy_of_busy hb]; exact .busy _ rfl hb
  | r i j =>
    simp only [writeReg]
    cases hb : s.busy
    · rw [guardBusy_of_idle hb]; exact .r i j hb
    · rw [guardBusy_of_busy hb]; exact .busy _ rfl hb
  | id | drbgctr | cmdlog | px | py | pz | reserved => exact .ignored _ ⟨nofun, nofun⟩

/-! ### Words of a wide field and bytes of DG -/

theorem getLsbD_wordOf {w : Nat} (f : BitVec w) (j : Nat) {k : Nat} (hk : k < 32) :
    (wordOf f j).getLsbD k = f.getLsbD (32 * j + k) := by
  simp [wordOf, hk]

theorem getLsbD_setWordOf (f : BitVec 512) (j : Fin 16) (v : Word) {k : Nat} (hk : k < 512) :
    (setWordOf f j.val v).getLsbD k =
      if k / 32 = j.val then v.getLsbD (k % 32) else f.getLsbD k := by
  unfold setWordOf
  simp only [BitVec.getLsbD_or, BitVec.getLsbD_and, BitVec.getLsbD_not, BitVec.getLsbD_shiftLeft,
    BitVec.getLsbD_setWidth, BitVec.getLsbD_allOnes, hk, decide_true, Bool.true_and]
  by_cases h : k < 32 * j.val
  · rw [if_neg (by omega)]
    simp [h]
  · have h512 : k - 32 * j.val < 512 := by omega
    by_cases h2 : k - 32 * j.val < 32
    · rw [if_pos (by omega)]
      have : k % 32 = k - 32 * j.val := by omega
      simp [h, h2, h512, this]
    · rw [if_neg (by omega)]
      have hv : v.getLsbD (k - 32 * j.val) = false := BitVec.getLsbD_of_ge _ _ (by omega)
      simp [h, h2, hv]

theorem getElem_setDgWord (dg : Vector Byte 64) (j : Fin 16) (v : Word) (k : Nat) (hk : k < 64) :
    (setDgWord dg j v)[k] = if k / 4 = j.val then v.extractLsb' (8 * (k % 4)) 8 else dg[k] := by
  unfold setDgWord
  simp only [Vector.getElem_set]
  split
  · next h => subst h; rw [if_pos (by omega)]; congr 1; omega
  · split
    · next h => subst h; rw [if_pos (by omega)]; congr 1; omega
    · split
      · next h => subst h; rw [if_pos (by omega)]; congr 1; omega
      · split
        · next h => subst h; rw [if_pos (by omega)]; congr 1; omega
        · rw [if_neg (by omega)]

theorem getLsbD_readDgWord (s : State) (j : Fin 16) {k : Nat} (hk : k < 32) :
    (readDgWord s j).getLsbD k = (s.dg[4 * j.val + k / 8]?.getD 0).getLsbD (k % 8) := by
  have hb : 4 * j.val + k / 8 < 64 := by omega
  rw [Vector.getElem?_eq_getElem hb, Option.getD_some]
  unfold readDgWord
  simp only [BitVec.getLsbD_append]
  have : k / 8 = 0 ∨ k / 8 = 1 ∨ k / 8 = 2 ∨ k / 8 = 3 := by omega
  rcases this with h | h | h | h
  · rw [if_pos (by omega)]; simp only [h, Nat.add_zero]; congr 1; omega
  · rw [if_neg (by omega), if_pos (by omega)]; simp only [h]; congr 1; omega
  · rw [if_neg (by omega), if_neg (by omega), if_pos (by omega)]; simp only [h]; congr 1; omega
  · rw [if_neg (by omega), if_neg (by omega), if_neg (by omega)]; simp only [h]; congr 1; omega

theorem getLsbD_dataRead (s : State) (v : Word) (k : Nat) :
    (dataRead s v).getLsbD k = (!s.busy && v.getLsbD k) := by
  unfold dataRead
  cases s.busy <;> simp

end Sys2Proof.Machine
end

