-- ==== Sys2Proof/Laws/PerInstr.lean ====
section
/-! SUPPORT. One fact per command: its word has the fixed bits of its row of
spec/opcode_table.json, whatever its operands. -/

namespace Sys2Proof

theorem toWord_and (x y : Fields) : x.toWord &&& y.toWord =
    (⟨x.op &&& y.op, x.a &&& y.a, x.b &&& y.b, x.c &&& y.c, x.d &&& y.d, x.m &&& y.m,
      x.f &&& y.f, x.rsv &&& y.rsv⟩ : Fields).toWord := by
  apply BitVec.eq_of_getLsbD_eq
  intro i hi
  simp only [Fields.toWord, BitVec.getLsbD_and, BitVec.getLsbD_append]
  repeat' split
  all_goals rfl

/-- A word's fixed bits, field by field. -/
theorem toWord_fixed {x : Fields} {mask value : Word}
    (h : (⟨x.op &&& (Fields.ofWord mask).op, x.a &&& (Fields.ofWord mask).a,
      x.b &&& (Fields.ofWord mask).b, x.c &&& (Fields.ofWord mask).c,
      x.d &&& (Fields.ofWord mask).d, x.m &&& (Fields.ofWord mask).m,
      x.f &&& (Fields.ofWord mask).f, x.rsv &&& (Fields.ofWord mask).rsv⟩ : Fields) =
        Fields.ofWord value) : x.toWord &&& mask = value := by
  rw [← toWord_ofWord mask, toWord_and, h, toWord_ofWord]

/-- A command without a modulus operand: each field is fixed, or the mask leaves it free. -/
theorem fieldsOf_fixed {op : BitVec 8} {a b c d : Fin 16} {m : BitVec 2} {f : Bool}
    {mask value : Word} (hop : op &&& (Fields.ofWord mask).op = (Fields.ofWord value).op)
    (ha : .ofFin a &&& (Fields.ofWord mask).a = (Fields.ofWord value).a)
    (hb : .ofFin b &&& (Fields.ofWord mask).b = (Fields.ofWord value).b)
    (hc : .ofFin c &&& (Fields.ofWord mask).c = (Fields.ofWord value).c)
    (hd : .ofFin d &&& (Fields.ofWord mask).d = (Fields.ofWord value).d)
    (hm : m &&& (Fields.ofWord mask).m = (Fields.ofWord value).m)
    (hf : .ofBool f &&& (Fields.ofWord mask).f = (Fields.ofWord value).f)
    (hr : 0 &&& (Fields.ofWord mask).rsv = (Fields.ofWord value).rsv) :
    (fieldsOf op a b c d m f).toWord &&& mask = value := by
  apply toWord_fixed
  simp only [fieldsOf, hop, ha, hb, hc, hd, hm, hf, hr]

/-- A command of the MOD family: D and M are free. -/
theorem modFields_fixed {op : BitVec 8} {a b c : Fin 16} {m : ModSel} {mask value : Word}
    (hop : op &&& (Fields.ofWord mask).op = (Fields.ofWord value).op)
    (ha : .ofFin a &&& (Fields.ofWord mask).a = (Fields.ofWord value).a)
    (hb : .ofFin b &&& (Fields.ofWord mask).b = (Fields.ofWord value).b)
    (hc : .ofFin c &&& (Fields.ofWord mask).c = (Fields.ofWord value).c)
    (hd : m.dField &&& (Fields.ofWord mask).d = (Fields.ofWord value).d)
    (hm : m.mField &&& (Fields.ofWord mask).m = (Fields.ofWord value).m)
    (hf : 0 &&& (Fields.ofWord mask).f = (Fields.ofWord value).f)
    (hr : 0 &&& (Fields.ofWord mask).rsv = (Fields.ofWord value).rsv) :
    (modFields op a b c m).toWord &&& mask = value := by
  apply toWord_fixed
  simp only [modFields, hop, ha, hb, hc, hd, hm, hf, hr]

end Sys2Proof

namespace Sys2Proof.Laws

/-- The mask and the match of each command's row in spec/opcode_table.json. -/
def TableRow.row : Instr → Word × Word
  | .mod _ _ _ => (0xFC0F00FF, 0x00000010)
  | .modadd _ _ _ _ => (0xFC0000FF, 0x00000011)
  | .modsub _ _ _ _ => (0xFC0000FF, 0x00000012)
  | .modmul _ _ _ _ => (0xFC0000FF, 0x00000013)
  | .modinv _ _ _ => (0xFC0F00FF, 0x00000014)
  | .modsqrt _ _ => (0xFFFF00FF, 0x00000015)
  | .padd _ _ _ => (0xFFF000FF, 0x00000020)
  | .pdbl _ _ => (0xFFFF00FF, 0x00000021)
  | .pneg _ _ => (0xFFFF00FF, 0x00000022)
  | .peq _ _ => (0xFFF00FFF, 0x00000023)
  | .pmov _ _ => (0xFFFF00FF, 0x00000024)
  | .toaff _ _ _ => (0xFFF000FF, 0x00000025)
  | .fromaff _ _ _ => (0xFFF000FF, 0x00000026)
  | .fromx _ _ _ => (0xFBFF00FF, 0x00000027)
  | .mul _ _ _ _ => (0xFBF000FF, 0x00000030)
  | .mulg _ _ => (0xFFF0F0FF, 0x00000031)
  | .muladd _ _ _ _ => (0xFF0000FF, 0x00000032)
  | .naf _ _ _ => (0xFFF000FF, 0x00000033)
  | .precomp => (0xFFFFFFFF, 0x00000034)
  | .drbgrst => (0xFFFFFFFF, 0x00000040)
  | .drbgseed => (0xFFFFFFFF, 0x00000041)
  | .drbggen _ => (0xFFFFF0FF, 0x00000042)
  | .sign _ _ _ _ _ => (0xFB0000FF, 0x00000050)
  | .verify _ _ _ _ => (0xFB000FFF, 0x00000051)
  | .recover _ _ _ _ => (0xFF0000FF, 0x00000052)

/-- The command's word has the fixed bits of its row. -/
def TableRow.Statement (i : Instr) : Prop :=
  encode i &&& (TableRow.row i).1 = (TableRow.row i).2

theorem TableRow.mod (rd ra : Fin 16) (m : ModSel) :
    TableRow.Statement (.mod rd ra m) :=
  modFields_fixed (op := 0x10) (mask := 0xFC0F00FF) (value := 0x00000010)
    (by decide) BitVec.and_zero BitVec.and_zero (by decide) BitVec.and_zero BitVec.and_zero
    (by decide) (by decide)

theorem TableRow.modadd (rd ra rb : Fin 16) (m : ModSel) :
    TableRow.Statement (.modadd rd ra rb m) :=
  modFields_fixed (op := 0x11) (mask := 0xFC0000FF) (value := 0x00000011)
    (by decide) BitVec.and_zero BitVec.and_zero BitVec.and_zero BitVec.and_zero BitVec.and_zero
    (by decide) (by decide)

theorem TableRow.modsub (rd ra rb : Fin 16) (m : ModSel) :
    TableRow.Statement (.modsub rd ra rb m) :=
  modFields_fixed (op := 0x12) (mask := 0xFC0000FF) (value := 0x00000012)
    (by decide) BitVec.and_zero BitVec.and_zero BitVec.and_zero BitVec.and_zero BitVec.and_zero
    (by decide) (by decide)

theorem TableRow.modmul (rd ra rb : Fin 16) (m : ModSel) :
    TableRow.Statement (.modmul rd ra rb m) :=
  modFields_fixed (op := 0x13) (mask := 0xFC0000FF) (value := 0x00000013)
    (by decide) BitVec.and_zero BitVec.and_zero BitVec.and_zero BitVec.and_zero BitVec.and_zero
    (by decide) (by decide)

theorem TableRow.modinv (rd ra : Fin 16) (m : ModSel) :
    TableRow.Statement (.modinv rd ra m) :=
  modFields_fixed (op := 0x14) (mask := 0xFC0F00FF) (value := 0x00000014)
    (by decide) BitVec.and_zero BitVec.and_zero (by decide) BitVec.and_zero BitVec.and_zero
    (by decide) (by decide)

theorem TableRow.modsqrt (rd ra : Fin 16) :
    TableRow.Statement (.modsqrt rd ra) :=
  fieldsOf_fixed (op := 0x15) (mask := 0xFFFF00FF) (value := 0x00000015)
    (by decide) BitVec.and_zero BitVec.and_zero (by decide) (by decide) (by decide) (by decide)
    (by decide)

theorem TableRow.padd (pd pa pb : Fin 16) :
    TableRow.Statement (.padd pd pa pb) :=
  fieldsOf_fixed (op := 0x20) (mask := 0xFFF000FF) (value := 0x00000020)
    (by decide) BitVec.and_zero BitVec.and_zero BitVec.and_zero (by decide) (by decide)
    (by decide) (by decide)

theorem TableRow.pdbl (pd pa : Fin 16) :
    TableRow.Statement (.pdbl pd pa) :=
  fieldsOf_fixed (op := 0x21) (mask := 0xFFFF00FF) (value := 0x00000021)
    (by decide) BitVec.and_zero BitVec.and_zero (by decide) (by decide) (by decide) (by decide)
    (by decide)

theorem TableRow.pneg (pd pa : Fin 16) :
    TableRow.Statement (.pneg pd pa) :=
  fieldsOf_fixed (op := 0x22) (mask := 0xFFFF00FF) (value := 0x00000022)
    (by decide) BitVec.and_zero BitVec.and_zero (by decide) (by decide) (by decide) (by decide)
    (by decide)

theorem TableRow.peq (pa pb : Fin 16) :
    TableRow.Statement (.peq pa pb) :=
  fieldsOf_fixed (op := 0x23) (mask := 0xFFF00FFF) (value := 0x00000023)
    (by decide) (by decide) BitVec.and_zero BitVec.and_zero (by decide) (by decide) (by decide)
    (by decide)

theorem TableRow.pmov (pd pa : Fin 16) :
    TableRow.Statement (.pmov pd pa) :=
  fieldsOf_fixed (op := 0x24) (mask := 0xFFFF00FF) (value := 0x00000024)
    (by decide) BitVec.and_zero BitVec.and_zero (by decide) (by decide) (by decide) (by decide)
    (by decide)

theorem TableRow.toaff (rx pa ry : Fin 16) :
    TableRow.Statement (.toaff rx pa ry) :=
  fieldsOf_fixed (op := 0x25) (mask := 0xFFF000FF) (value := 0x00000025)
    (by decide) BitVec.and_zero BitVec.and_zero BitVec.and_zero (by decide) (by decide)
    (by decide) (by decide)

theorem TableRow.fromaff (pd rx ry : Fin 16) :
    TableRow.Statement (.fromaff pd rx ry) :=
  fieldsOf_fixed (op := 0x26) (mask := 0xFFF000FF) (value := 0x00000026)
    (by decide) BitVec.and_zero BitVec.and_zero BitVec.and_zero (by decide) (by decide)
    (by decide) (by decide)

theorem TableRow.fromx (pd rx : Fin 16) (odd : Bool) :
    TableRow.Statement (.fromx pd rx odd) :=
  fieldsOf_fixed (op := 0x27) (mask := 0xFBFF00FF) (value := 0x00000027)
    (by decide) BitVec.and_zero BitVec.and_zero (by decide) (by decide) (by decide)
    BitVec.and_zero (by decide)

theorem TableRow.mul (pd pb rk : Fin 16) (safe : Bool) :
    TableRow.Statement (.mul pd pb rk safe) :=
  fieldsOf_fixed (op := 0x30) (mask := 0xFBF000FF) (value := 0x00000030)
    (by decide) BitVec.and_zero BitVec.and_zero BitVec.and_zero (by decide) (by decide)
    BitVec.and_zero (by decide)

theorem TableRow.mulg (pd rk : Fin 16) :
    TableRow.Statement (.mulg pd rk) :=
  fieldsOf_fixed (op := 0x31) (mask := 0xFFF0F0FF) (value := 0x00000031)
    (by decide) BitVec.and_zero (by decide) BitVec.and_zero (by decide) (by decide) (by decide)
    (by decide)

theorem TableRow.muladd (pd ru1 ru2 pq : Fin 16) :
    TableRow.Statement (.muladd pd ru1 ru2 pq) :=
  fieldsOf_fixed (op := 0x32) (mask := 0xFF0000FF) (value := 0x00000032)
    (by decide) BitVec.and_zero BitVec.and_zero BitVec.and_zero BitVec.and_zero (by decide)
    (by decide) (by decide)

theorem TableRow.naf (rpos rk rneg : Fin 16) :
    TableRow.Statement (.naf rpos rk rneg) :=
  fieldsOf_fixed (op := 0x33) (mask := 0xFFF000FF) (value := 0x00000033)
    (by decide) BitVec.and_zero BitVec.and_zero BitVec.and_zero (by decide) (by decide)
    (by decide) (by decide)

theorem TableRow.precomp :
    TableRow.Statement (.precomp) :=
  fieldsOf_fixed (op := 0x34) (mask := 0xFFFFFFFF) (value := 0x00000034)
    (by decide) (by decide) (by decide) (by decide) (by decide) (by decide) (by decide)
    (by decide)

theorem TableRow.drbgrst :
    TableRow.Statement (.drbgrst) :=
  fieldsOf_fixed (op := 0x40) (mask := 0xFFFFFFFF) (value := 0x00000040)
    (by decide) (by decide) (by decide) (by decide) (by decide) (by decide) (by decide)
    (by decide)

theorem TableRow.drbgseed :
    TableRow.Statement (.drbgseed) :=
  fieldsOf_fixed (op := 0x41) (mask := 0xFFFFFFFF) (value := 0x00000041)
    (by decide) (by decide) (by decide) (by decide) (by decide) (by decide) (by decide)
    (by decide)

theorem TableRow.drbggen (rd : Fin 16) :
    TableRow.Statement (.drbggen rd) :=
  fieldsOf_fixed (op := 0x42) (mask := 0xFFFFF0FF) (value := 0x00000042)
    (by decide) BitVec.and_zero (by decide) (by decide) (by decide) (by decide) (by decide)
    (by decide)

theorem TableRow.sign (rr rkey rs rrec : Fin 16) (low : Bool) :
    TableRow.Statement (.sign rr rkey rs rrec low) :=
  fieldsOf_fixed (op := 0x50) (mask := 0xFB0000FF) (value := 0x00000050)
    (by decide) BitVec.and_zero BitVec.and_zero BitVec.and_zero BitVec.and_zero (by decide)
    BitVec.and_zero (by decide)

theorem TableRow.verify (rr rs pq : Fin 16) (low : Bool) :
    TableRow.Statement (.verify rr rs pq low) :=
  fieldsOf_fixed (op := 0x51) (mask := 0xFB000FFF) (value := 0x00000051)
    (by decide) (by decide) BitVec.and_zero BitVec.and_zero BitVec.and_zero (by decide)
    BitVec.and_zero (by decide)

theorem TableRow.recover (pd rr rs rrec : Fin 16) :
    TableRow.Statement (.recover pd rr rs rrec) :=
  fieldsOf_fixed (op := 0x52) (mask := 0xFF0000FF) (value := 0x00000052)
    (by decide) BitVec.and_zero BitVec.and_zero BitVec.and_zero BitVec.and_zero (by decide)
    (by decide) (by decide)

end Sys2Proof.Laws
end

