-- ==== Sys2Proof/Laws/Signature.lean ====
section
/-! SUPPORT. SIGN's candidates in the terms of Safety.lean, the points of the curve by their affine
coordinates, and the equation of a signature: what the statements about SIGN, VERIFY and RECOVER
share (44_ecdsa.md R383–R387). -/

namespace Sys2Proof.Machine

/-- The equation of step 2e determines s (44_ecdsa.md R383). -/
theorem signature_s_eq {k ik s0 x : Int} (h1 : (ik * k) % Config.n = 1) (h2 : 0 ≤ s0)
    (h3 : s0 < Config.n) (h : (k * s0) % Config.n = x % Config.n) :
    emod (ik * x) Config.n = s0 := by
  have e : (ik * x) % Config.n = ((ik * k) * s0) % Config.n := by
    rw [mul_assoc, Int.mul_emod ik (k * s0), h, ← Int.mul_emod]
  rw [emod, e, Int.mul_emod, h1, one_mul, Int.emod_emod, Int.emod_eq_of_lt h2 h3]

/-- s as step 2e computes it meets that equation (44_ecdsa.md R383). -/
theorem signature_equation {k ik : Int} (h : (ik * k) % Config.n = 1) (x y : Int) :
    (k * emod (ik * emod (x + emod y Config.n) Config.n) Config.n) % Config.n =
      (x + y) % Config.n := by
  simp only [emod]
  rw [Int.mul_emod, Int.emod_emod, ← Int.mul_emod, ← mul_assoc, Int.mul_emod, mul_comm k, h,
    one_mul, Int.emod_emod, Int.emod_emod, Int.add_emod_emod]

/-- The windowed and the generic multiple of G have the same affine coordinates. -/
theorem toAffine_wnaf_eq {k : Int} (hk : 1 ≤ k ∧ k ≤ Config.n - 1) :
    toAffine (wnaf buildTable k) = toAffine (generic Config.base k false) := by
  have := fact_prime_P
  obtain ⟨b, hb⟩ := exists_rep_base
  have hn : Config.n < 2 ^ 256 := by decide
  exact toAffine_congr (wnaf_rep hb (by omega) (by omega))
    (generic_rep hb false (by omega) (by omega))

/-- A candidate that gives a signature is accepted with it. -/
theorem signCandidate_of_signature {d h : Int} {low : Bool} {c : Bytes32} {sig : Signature}
    (hs : SignatureOf d h low (beInt c.toList) sig) :
    signCandidate buildTable d h low c = (true, .accept sig) := by
  obtain ⟨hk, x, y, s0, ha, hr, hr0, s1, s2, he, hf⟩ := hs
  obtain ⟨ik, hik, -, -, hik1⟩ := invert_scalar hk
  have hv := (validScalar_iff _).mpr hk
  have hse : emod (ik * emod (h + emod (d * sig.r) Config.n) Config.n) Config.n = s0 :=
    signature_s_eq hik1 s1.le s2 (by rw [he]; simp [emod])
  rw [← toAffine_wnaf_eq hk] at ha
  unfold signCandidate
  simp only [hv, Bool.not_true, Bool.false_eq_true, if_false, hik, ha]
  have hr' : emod x Config.n = sig.r := hr.symm
  rw [hr', if_neg hr0, hse, if_neg (by omega)]
  obtain ⟨r, s, id⟩ := sig
  split at hf
  · next hl => rw [if_pos (by simpa using hl)]; simp only at hf ⊢; rw [hf.1, hf.2]
  · next hl => rw [if_neg (by simpa using hl)]; simp only at hf ⊢; rw [hf.1, hf.2]

/-- A candidate that gives none is rejected. -/
theorem signCandidate_of_none {d h : Int} {low : Bool} {c : Bytes32}
    (hs : ¬∃ sig, SignatureOf d h low (beInt c.toList) sig) :
    ∃ u, signCandidate buildTable d h low c = (u, .retry) := by
  obtain ⟨u, v, hp⟩ : ∃ u v, signCandidate buildTable d h low c = (u, v) := ⟨_, _, rfl⟩
  cases v with
  | retry => exact ⟨u, hp⟩
  | abort c' => exact (signCandidate_abort _ _ _ _ _ _ _ hp).elim
  | accept sig =>
    exfalso
    unfold signCandidate at hp
    simp only at hp
    split at hp
    · simp at hp
    next hv =>
    have hv : validScalar (beInt c.toList) = true := by simpa using hv
    have hk := (validScalar_iff _).mp hv
    obtain ⟨ik, hik, -, -, hik1⟩ := invert_scalar hk
    rw [hik] at hp
    simp only at hp
    split at hp
    · simp at hp
    next x y haff =>
    split at hp
    · simp at hp
    next hr =>
    split at hp
    · simp at hp
    next hs0 =>
    rw [toAffine_wnaf_eq hk] at haff
    have hpos := lt_of_le_of_ne
      (emod_nonneg (a := ik * emod (h + emod (d * emod x Config.n) Config.n) Config.n) n_pos)
      (Ne.symm hs0)
    have heq := signature_equation hik1 h (d * emod x Config.n)
    split at hp
    · next hl =>
      simp only [Prod.mk.injEq, Verdict.accept.injEq] at hp
      obtain ⟨-, e⟩ := hp
      refine hs ⟨sig, hk, x, y, _, haff, by rw [← e]; rfl, by rw [← e]; exact hr, hpos,
        emod_lt n_pos, by rw [← e]; exact heq, ?_⟩
      rw [if_pos (by simpa using hl), ← e]
      exact ⟨rfl, rfl⟩
    · next hl =>
      simp only [Prod.mk.injEq, Verdict.accept.injEq] at hp
      obtain ⟨-, e⟩ := hp
      refine hs ⟨sig, hk, x, y, _, haff, by rw [← e]; rfl, by rw [← e]; exact hr, hpos,
        emod_lt n_pos, by rw [← e]; exact heq, ?_⟩
      rw [if_neg (by simpa using hl), ← e]
      exact ⟨rfl, rfl⟩

/-- What an accepted candidate says of s (44_ecdsa.md R383, step 2e). -/
theorem Accepted.equation {tbl : List Point} {d h : Int} {low : Bool} {sig : Signature}
    (a : Accepted tbl d h low sig) : (a.k * a.s0) % Config.n = (h + d * sig.r) % Config.n := by
  rw [a.s0Eq]
  exact signature_equation a.ikEq h (d * sig.r)

/-- The affine coordinates of a triple with Z = 1. -/
theorem toAffine_one {p : Point} (hc : p.canonical) (hz : p.Z = 1) :
    toAffine p = .ok (p.X, p.Y) := by
  obtain ⟨x, y, e, x0, x1, y0, y1, -, h⟩ := toAffine_spec hc
  have := h (by rw [hz]; decide)
  rw [hz] at this
  simp only [Int.cast_one, mul_one] at this
  rw [e, eq_of_cast x0 x1 (X_nonneg p) hc.1 this.1, eq_of_cast y0 y1 (Y_nonneg p) hc.2.1 this.2]

section

variable [Fact (Nat.Prime Config.P.toNat)]

theorem toNat_smul {k : Int} (h : 0 ≤ k) (g : curve.Point) : k.toNat • g = k • g := by
  conv_rhs => rw [← Int.toNat_of_nonneg h, natCast_zsmul]

theorem intCast_P : ((Config.P : Int) : Fp) = 0 := by
  simpa using (intCast_eq_iff Config.P 0).mpr (by simp)

/-- Points of the curve with the same affine coordinates are one point. -/
theorem rep_eq_of_affine {p q : Point} {g h : curve.Point} (hp : Rep p g) (hq : Rep q h)
    (e : toAffine p = toAffine q) (hg : g ≠ 0) (hh : h ≠ 0) : g = h := by
  obtain ⟨a, b, e1, -, -, -, -, h1⟩ := toAffine_rep hp
  obtain ⟨a', b', e2, -, -, -, -, h2⟩ := toAffine_rep hq
  rw [e1, e2] at e
  cases e
  cases g with
  | zero => exact absurd rfl hg
  | some X Y hn =>
    cases h with
    | zero => exact absurd rfl hh
    | some X' Y' hn' =>
      obtain ⟨rfl, rfl⟩ := h1
      obtain ⟨rfl, rfl⟩ := h2
      rfl

theorem rep_ne_zero_of_one {p : Point} {g : curve.Point} (hp : Rep p g) (hz : p.Z = 1) :
    g ≠ 0 := by
  rintro rfl
  have := hp.2.2.1
  rw [hz] at this
  simp at this

/-- A point and its negative have the same x, and y and P − y; both are on the curve. -/
theorem toAffine_neg {p q : Point} {g : curve.Point} (hp : Rep p g) (hq : Rep q (-g))
    {x y x' y' : Int} (h : toAffine p = .ok (x, y)) (h' : toAffine q = .ok (x', y'))
    (hg : g ≠ 0) :
    x' = x ∧ y' = Config.P - y ∧ 0 ≤ x ∧ x < Config.P ∧ 0 < y ∧ y < Config.P ∧
      (y * y) % Config.P = (x ^ 3 + 7) % Config.P := by
  obtain ⟨a, b, e, a0, a1, b0, b1, hab⟩ := toAffine_rep hp
  obtain ⟨a', b', e', a0', a1', b0', b1', hab'⟩ := toAffine_rep hq
  rw [h] at e; cases e
  rw [h'] at e'; cases e'
  cases g with
  | zero => exact absurd rfl hg
  | some X Y hn =>
    have hYY := curve_nonsingular.mp hn
    have hne := y_ne_zero hYY
    rw [WeierstrassCurve.Affine.Point.neg_some] at hab'
    obtain ⟨h1, h2⟩ := hab
    obtain ⟨h3, h4⟩ := hab'
    rw [negY_eq] at h4
    have hy0 : y ≠ 0 := by rintro rfl; apply hne; rw [← h2]; simp
    have hx := eq_of_cast a0' a1' a0 a1 (h3.trans h1.symm)
    refine ⟨hx, ?_, a0, a1, by omega, b1, ?_⟩
    · refine eq_of_cast b0' b1' (by omega) (by omega) ?_
      rw [h4, ← h2]
      push_cast
      rw [intCast_P]
      ring
    · apply (intCast_eq_iff _ _).mp
      push_cast
      rw [h1, h2]
      linear_combination hYY

end

end Sys2Proof.Machine
end

