-- ==== Sys2Proof/Laws/Step.lean ====
section
/-! SUPPORT. What a step can do, said once: the completion of the word in flight, or one served
event of the host and the platform. -/

namespace Sys2Proof.Machine

/-- The state in which the next event is served: one unit of the delay has passed and the event is
off the queue. -/
def waiting (s : State) (rest : List HostEvent) : State :=
  { s with inFlight := tick s.inFlight, hostQueue := rest }

theorem step_completes {s : State} (h : s.inFlight = some 0) : step s = completeInFlight s := by
  unfold step; rw [h]

theorem step_waits {s : State} (h : s.inFlight ≠ some 0) :
    step s = serveHost { s with inFlight := tick s.inFlight } := by
  obtain ⟨r, p, dg, dlen, irqen, done, err, result, fatal, ovr, cause, cmdlog, fl, drbg, tv, tbl,
    q, lr⟩ := s
  rcases fl with _ | _ | d
  · rfl
  · exact absurd rfl h
  · rfl

theorem step_event {s : State} {e : HostEvent} {rest : List HostEvent} (h : s.inFlight ≠ some 0)
    (hq : s.hostQueue = e :: rest) : step s = serveEvent Config.zsecpBase e (waiting s rest) := by
  rw [step_waits h]
  unfold serveHost
  simp only [hq]
  rfl

/-- The delay that is left is no completion: BUSY is as before. -/
theorem busy_waiting (s : State) (rest : List HostEvent) : (waiting s rest).busy = s.busy := by
  simp only [State.busy, waiting, tick]
  cases s.inFlight <;> rfl

theorem windowOffset_in {base off : Nat} (h : off < 0x1000) :
    windowOffset base (base + off) = some off := by
  unfold windowOffset
  rw [if_pos (by omega), Nat.add_sub_cancel_left]

theorem step_read {s : State} {off bytes : Nat} {rest : List HostEvent} (h : s.inFlight ≠ some 0)
    (ho : off < 0x1000) (hq : s.hostQueue = .read (Config.zsecpBase + off) bytes :: rest) :
    step s = .next (busRead off bytes (waiting s rest)) := by
  rw [step_event h hq]
  simp only [serveEvent, windowOffset_in ho]

theorem step_write {s : State} {off bytes : Nat} {v : Word} {rest : List HostEvent}
    (h : s.inFlight ≠ some 0) (ho : off < 0x1000)
    (hq : s.hostQueue = .write (Config.zsecpBase + off) bytes v :: rest) :
    step s = .next (busWrite off bytes v (waiting s rest)) := by
  rw [step_event h hq]
  simp only [serveEvent, windowOffset_in ho]

theorem accessOk_iff (off bytes : Nat) : accessOk off bytes = true ↔ bytes = 4 ∧ off % 4 = 0 := by
  simp [accessOk]

/-- A well-formed write. -/
theorem step_write_ok {s : State} {off : Nat} {v : Word} {rest : List HostEvent}
    (h : s.inFlight ≠ some 0) (ho : off < 0x1000) (h4 : off % 4 = 0)
    (hq : s.hostQueue = .write (Config.zsecpBase + off) 4 v :: rest) :
    step s = .next
      { writeReg v (mmioReg off) (waiting s rest) with lastResponse := some .written } := by
  rw [step_write h ho hq]
  unfold busWrite
  rw [if_pos ((accessOk_iff _ _).mpr ⟨rfl, h4⟩)]

/-- The state after one event is served, response apart. -/
inductive Served (s : State) : HostEvent → State → Prop where
  | read (addr bytes : Nat) : Served s (.read addr bytes) s
  | malformed (addr bytes : Nat) (v : Word) : Served s (.write addr bytes v) s
  | write (off : Nat) (v : Word) (s' : State) (h : off < 0x1000) (h4 : off % 4 = 0)
      (hw : WriteEnds v s (mmioReg off) s') : Served s (.write (Config.zsecpBase + off) 4 v) s'
  | hardReset : Served s .hardReset (resetBlock s)
  | idle : Served s .idle s

/-- How a step ends. -/
inductive StepEnds (s : State) : State → Prop where
  | command (i : Instr) (t : State) (h : s.inFlight = some 0) (hd : decode s.cmdlog = .ok i)
      (he : Ends i s t) : StepEnds s t
  | illegal (h : s.inFlight = some 0) : StepEnds s (raise .illegal s)
  | quiet (h : s.inFlight ≠ some 0) (hq : s.hostQueue = []) : StepEnds s (waiting s [])
  | served (e : HostEvent) (rest : List HostEvent) (t' t : State) (h : s.inFlight ≠ some 0)
      (hq : s.hostQueue = e :: rest) (hs : Served (waiting s rest) e t')
      (ht : t = { t' with lastResponse := t.lastResponse }) : StepEnds s t

theorem serveEvent_served {e : HostEvent} {s t : State}
    (h : serveEvent Config.zsecpBase e s = .next t) :
    ∃ t', Served s e t' ∧ t = { t' with lastResponse := t.lastResponse } := by
  have window : ∀ {addr off : Nat}, windowOffset Config.zsecpBase addr = some off →
      addr = Config.zsecpBase + off ∧ off < 0x1000 := by
    intro addr off ho
    unfold windowOffset at ho
    split at ho
    · simp only [Option.some.injEq] at ho; omega
    · cases ho
  cases e with
  | read addr bytes =>
    simp only [serveEvent] at h
    split at h
    · simp only [Host.Outcome.next.injEq] at h
      subst h
      refine ⟨s, .read addr bytes, ?_⟩
      unfold busRead
      split <;> rfl
    · cases h
  | write addr bytes v =>
    simp only [serveEvent] at h
    split at h
    · next off ho =>
      simp only [Host.Outcome.next.injEq] at h
      subst h
      obtain ⟨rfl, hlt⟩ := window ho
      unfold busWrite
      split
      · next hok =>
        obtain ⟨rfl, h4⟩ := (accessOk_iff _ _).mp hok
        exact ⟨_, .write off v _ hlt h4 (writeReg_ends v _ s), rfl⟩
      · exact ⟨s, .malformed _ _ _, rfl⟩
    · cases h
  | hardReset =>
    simp only [serveEvent, Host.Outcome.next.injEq] at h
    subst h
    exact ⟨_, .hardReset, rfl⟩
  | idle =>
    simp only [serveEvent, Host.Outcome.next.injEq] at h
    subst h
    exact ⟨_, .idle, rfl⟩

/-- Every step that answers a next state ends in one of the ways of `StepEnds`. -/
theorem step_ends {s t : State} (h : step s = .next t) : StepEnds s t := by
  by_cases hf : s.inFlight = some 0
  · rw [step_completes hf] at h
    unfold completeInFlight at h
    split at h
    · next i hd =>
      obtain ⟨t', h', he⟩ := exec_ends i s
      rw [h] at h'
      cases h'
      exact .command i t hf hd he
    · next e hd =>
      cases h
      exact .illegal hf
  · cases hq : s.hostQueue with
    | nil =>
      rw [step_waits hf] at h
      unfold serveHost at h
      simp only [hq, Host.Outcome.next.injEq] at h
      subst h
      exact .quiet hf hq
    | cons e rest =>
      rw [step_event hf hq] at h
      obtain ⟨t', hs, ht⟩ := serveEvent_served h
      exact .served e rest t' t hf hq hs ht

end Sys2Proof.Machine
end

