-- ==== Sys2Proof/Laws/Table.lean ====
section
/-! SUPPORT. States that differ in the precomputed table alone, and that the shared operations keep
them so: the table changes no result (10_state.md R59). -/

namespace Sys2Proof.Machine

/-- u is t with another table. -/
def SameButTable (t u : State) : Prop :=
  ∃ tbl valid, u = { t with tbl := tbl, tableValid := valid }

theorem SameButTable.complete {t u : State} (b : Bool) (h : SameButTable t u) :
    SameButTable (complete b t) (complete b u) := by
  obtain ⟨a, c, rfl⟩ := h; exact ⟨a, c, rfl⟩

theorem SameButTable.raise {t u : State} (c : Cause) (h : SameButTable t u) :
    SameButTable (raise c t) (raise c u) := by
  obtain ⟨a, c, rfl⟩ := h; exact ⟨a, c, rfl⟩

theorem SameButTable.writeR {t u : State} (i : RIdx) (v : Int) (h : SameButTable t u) :
    SameButTable (writeR t i v) (writeR u i v) := by
  obtain ⟨a, c, rfl⟩ := h; exact ⟨a, c, rfl⟩

theorem SameButTable.writeP {t u : State} (i : PIdx) (q : Point) (h : SameButTable t u) :
    SameButTable (writeP t i q) (writeP u i q) := by
  obtain ⟨a, c, rfl⟩ := h
  unfold Machine.writeP
  split <;> exact ⟨a, c, rfl⟩

theorem SameButTable.drbg {t u : State} (g : Drbg) (h : SameButTable t u) :
    SameButTable { t with drbg := g } { u with drbg := g } := by
  obtain ⟨a, c, rfl⟩ := h; exact ⟨a, c, rfl⟩

theorem SameButTable.withTable {t u : State} (h : SameButTable t u) :
    SameButTable (withTable t) (withTable u) := by
  obtain ⟨a, c, rfl⟩ := h
  unfold Machine.withTable
  split <;> split <;> exact ⟨_, _, rfl⟩

end Sys2Proof.Machine
end

