-- ==== Sys2Proof/Tests/Slice0.lean ====
section
/-! SUPPORT. The model's own tests: ill-formed terms, words written out from 30_encoding.md, single
steps with the values of 95_test_vectors.md, and a witness for the hypotheses of each statement. -/

namespace Sys2Proof.Tests

-- The tests are evaluated by the kernel one after another: each waits for the one before, so that
-- they do not hold a thread each.
set_option Elab.async false

open Sys2Proof.Machine

/-! ### Ill-formed terms (30_encoding.md R147) -/

theorem test_illformed_padd : (Instr.padd 1 2 3).wellFormed = false := by decide
theorem test_illformed_pdbl : (Instr.pdbl 0 2).wellFormed = false := by decide
theorem test_illformed_pneg : (Instr.pneg 1 1).wellFormed = false := by decide
theorem test_illformed_pmov : (Instr.pmov 0 1).wellFormed = false := by decide
theorem test_illformed_fromaff : (Instr.fromaff 1 0 0).wellFormed = false := by decide
theorem test_illformed_fromx : (Instr.fromx 0 0 true).wellFormed = false := by decide
theorem test_illformed_mul : (Instr.mul 1 2 0 true).wellFormed = false := by decide
theorem test_illformed_mulg : (Instr.mulg 0 1).wellFormed = false := by decide
theorem test_illformed_muladd : (Instr.muladd 1 0 1 2).wellFormed = false := by decide
theorem test_illformed_recover : (Instr.recover 0 2 3 4).wellFormed = false := by decide

/-! ### Words, from the field layout and the opcode map (30_encoding.md R141, R142, R148) -/

theorem test_decode_field :
    decode 0x00001210 = .ok (.mod 2 1 .p) ∧ decode 0x02701210 = .ok (.mod 2 1 (.reg 7)) ∧
    decode 0x00021311 = .ok (.modadd 3 1 2 .p) ∧ decode 0x01021312 = .ok (.modsub 3 1 2 .n) ∧
    decode 0x02721313 = .ok (.modmul 3 1 2 (.reg 7)) ∧ decode 0x01001214 = .ok (.modinv 2 1 .n) ∧
    decode 0x00001215 = .ok (.modsqrt 2 1) := by decide

theorem test_decode_point :
    decode 0x00012320 = .ok (.padd 3 2 1) ∧ decode 0x00001221 = .ok (.pdbl 2 1) ∧
    decode 0x00001222 = .ok (.pneg 2 1) ∧ decode 0x00012023 = .ok (.peq 2 1) ∧
    decode 0x00001524 = .ok (.pmov 5 1) ∧ decode 0x00012025 = .ok (.toaff 0 2 1) ∧
    decode 0x00010226 = .ok (.fromaff 2 0 1) ∧ decode 0x04000227 = .ok (.fromx 2 0 true) := by
  decide

theorem test_decode_scalar :
    decode 0x04002330 = .ok (.mul 3 2 0 true) ∧ decode 0x00000231 = .ok (.mulg 2 0) ∧
    decode 0x00210332 = .ok (.muladd 3 0 1 2) ∧ decode 0x00020133 = .ok (.naf 1 0 2) ∧
    decode 0x00000034 = .ok .precomp := by decide

theorem test_decode_drbg :
    decode 0x00000040 = .ok .drbgrst ∧ decode 0x00000041 = .ok .drbgseed ∧
    decode 0x00000542 = .ok (.drbggen 5) := by decide

theorem test_decode_signature :
    decode 0x04431250 = .ok (.sign 2 1 3 4 true) ∧ decode 0x00132051 = .ok (.verify 2 3 1 false) ∧
    decode 0x00432252 = .ok (.recover 2 2 3 4) := by decide

/-- Each test of decode, and the first opcode past each family (30_encoding.md R143–R148). -/
theorem test_decode_rejects :
    decode 0x08001210 = .error .reservedBits ∧ decode 0x80000034 = .error .reservedBits ∧
    decode 0x0000000F = .error .unknownOpcode ∧ decode 0x00000016 = .error .unknownOpcode ∧
    decode 0x0000001F = .error .unknownOpcode ∧ decode 0x00000028 = .error .unknownOpcode ∧
    decode 0x00000035 = .error .unknownOpcode ∧ decode 0x00000043 = .error .unknownOpcode ∧
    decode 0x00000053 = .error .unknownOpcode ∧ decode 0x01001215 = .error .unusedField ∧
    decode 0x04001210 = .error .unusedField ∧ decode 0x00011210 = .error .unusedField ∧
    decode 0x03001210 = .error .modulusSelect ∧ decode 0x00501210 = .error .modulusRegister ∧
    decode 0x00032120 = .error .hardwiredDest ∧ decode 0x00432052 = .error .hardwiredDest := by
  decide

/-! ### Single steps, with the values of 95_test_vectors.md -/

/-- The step that runs the word w. -/
def runWord (w : Nat) (s : State) : Answer := step (s.withFetchWord 32 w)

/-- What a register, a point register and STATUS hold after an answer. -/
def intAfter (a : Answer) (i : RIdx) : Option Int :=
  match a with
  | .next s => some (readR s i)
  | _ => none

def pointAfter (a : Answer) (i : PIdx) : Option Point :=
  match a with
  | .next s => some (readP s i)
  | _ => none

def statusAfter (a : Answer) : Option Word :=
  match a with
  | .next s => some (statusWord s)
  | _ => none

/-- Reset with values in registers. -/
def withInts (vs : List (RIdx × Int)) : State :=
  vs.foldl (fun s v => writeR s v.1 v.2) .reset

def withPoint (i : PIdx) (q : Point) : State := writeP .reset i q

/-- 2G as ADD gives it (vector P-1). -/
def twoG : Point :=
  ⟨0xF40AF3B6C6FDF9AA5402B9FDC39AC4B67827EB373C92077452348E044F109FC8,
    0x56915849F52CC8F76F5FD7E4BF60DB4A43BF633E1B1383F85FE89164BFADCBDB,
    0xF8783C53DFB2A307B568A6AD931FC97023DC71CDC3EAC498B0C6BA5554759A29⟩

/-- F-1 -/
theorem test_mod_negative : intAfter (runWord 0x00001210 (withInts [(1, -1)])) 2 =
    some (Config.P - 1) := by decide +kernel

/-- F-9: the modulus 2^256 is one too large. -/
theorem test_mod_domain :
    statusAfter (runWord 0x02701210 (withInts [(1, 5), (7, 2 ^ 256)])) = some 0x00000206 := by
  decide +kernel

/-- F-12: the sum is exact. -/
theorem test_modadd_exact :
    intAfter (runWord 0x00021311 (withInts [(1, 2 ^ 511 - 1), (2, 2 ^ 511 - 1)])) 3 =
      some 0x1000007A2000E909F := by decide +kernel

/-- F-14 -/
theorem test_modsub_n : intAfter (runWord 0x01021312 (withInts [(1, 0), (2, 1)])) 3 =
    some (Config.n - 1) := by decide +kernel

/-- F-17: the product is exact and negative. -/
theorem test_modmul_exact :
    intAfter (runWord 0x00021313 (withInts [(1, 2 ^ 511 - 1), (2, -2 ^ 511)])) 3 =
      some 0x3FFFFFFFFFFFFFFFFFFFFFFFFFFFFFFFBFFFFC2EFFEA270EC86A0D2AB732E60C := by
  decide +kernel

/-- F-23 and F-21 -/
theorem test_modinv : intAfter (runWord 0x02701214 (withInts [(1, -1), (7, 29)])) 2 = some 28 ∧
    statusAfter (runWord 0x02701214 (withInts [(1, 6), (7, 9)])) = some 0x00000306 := by
  decide +kernel

/-- F-33: the root is not chosen by size. -/
theorem test_modsqrt : intAfter (runWord 0x00001215 (withInts [(1, 9)])) 2 =
    some (Config.P - 3) := by decide +kernel

/-- P-1 and P-3 -/
theorem test_padd_pdbl : pointAfter (runWord 0x00011220 .reset) 2 = some twoG ∧
    pointAfter (runWord 0x00001221 .reset) 2 = some twoG := by decide +kernel

/-- P-8, and P-2: TOAFF of 2G -/
theorem test_toaff :
    pointAfter (runWord 0x00000220 .reset) 2 = some ⟨0, 1, 0⟩ ∧
    intAfter (runWord 0x00012025 (withPoint 2 twoG)) 0 =
      some 0xC6047F9441ED7D6D3045406E95C07CD85C778E4B8CEF3CA7ABAC09B95C709EE5 := by
  decide +kernel

/-- P-9 -/
theorem test_pneg : pointAfter (runWord 0x00000222 .reset) 2 =
    some ⟨0, BitVec.ofInt 256 (Config.P - 1), 0⟩ := by decide +kernel

/-- P-10 and P-11 -/
theorem test_peq : statusAfter (runWord 0x00010023 .reset) = some 0x00000002 ∧
    statusAfter (runWord 0x00000023 .reset) = some 0x0000000A := by decide +kernel

/-- P-12 -/
theorem test_pmov : pointAfter (runWord 0x00001524 .reset) 5 =
    some ⟨Config.gx, Config.gy, 1⟩ := by decide +kernel

/-- P-15 and P-16 -/
theorem test_fromaff : pointAfter (runWord 0x00010226 .reset) 2 = some ⟨0, 1, 0⟩ ∧
    statusAfter (runWord 0x00010226 (withInts [(0, Config.P)])) = some 0x00000506 := by
  decide +kernel

/-- P-19 and S7 -/
theorem test_fromx :
    pointAfter (runWord 0x04000227 (withInts [(0, Config.base.X)])) 2 =
      some ⟨Config.gx, BitVec.ofInt 256 (Config.P - Config.base.Y), 1⟩ ∧
    statusAfter (runWord 0x00000227 (withInts [(0, 5)])) = some 0x00000406 := by
  decide +kernel

/-- M-13 -/
theorem test_mul : pointAfter (runWord 0x04002330 (writeR (withPoint 2 twoG) 0 3)) 3 =
    some ⟨0x04C6C526B1D1953028FFCFB42ADC8FD4365CA1ED57A4592C91BC7322D5A7FBB5,
      0x62D1E84168F781ED0D99798BED4BD247AB808568A31C1014E60921A5B6AB3588,
      0x1635053758ADD2EAA54780E727E6DFF6849EC3ADD0C076F67B7AC7F6F6E51C59⟩ := by decide +kernel

/-- M-3 -/
theorem test_mulg : pointAfter (runWord 0x00000231 (withInts [(0, 2)])) 2 =
    some ⟨0x4549E2DB1D668674FBA82298E7B27E93B418F82D2DAF4312E8EA9BAEE00270D0,
      0xD524864F5E2BE1977E5D791C948F39ED01419C05C7C0F692D03691D61E4BC353,
      0x2465160956F08064047C7E0FFA9BCF3FD21553746C3959E0BB2C3286172F1FE3⟩ := by decide +kernel

/-- M-1 and M-11 -/
theorem test_mulg_status : statusAfter (runWord 0x00000231 .reset) = some 0x00000012 ∧
    statusAfter (runWord 0x00000231 (withInts [(0, 2 ^ 256)])) = some 0x00000506 := by
  decide +kernel

/-- M-20 -/
theorem test_muladd : pointAfter (runWord 0x00110232 .reset) 2 = some ⟨0, 1, 0⟩ := by
  decide +kernel

/-- S1 and M-27 -/
theorem test_naf : intAfter (runWord 0x00020133 (withInts [(0, 7)])) 1 = some 8 ∧
    intAfter (runWord 0x00020133 (withInts [(0, 7)])) 2 = some 1 ∧
    intAfter (runWord 0x00020133 (withInts [(0, 2 ^ 256 - 1)])) 1 = some (2 ^ 256) := by
  decide +kernel

/-- M-30 -/
theorem test_precomp : statusAfter (runWord 0x00000034 .reset) = some 0x00000012 := by
  decide +kernel

/-- The first 64 primes. -/
def firstPrimes : List Nat :=
  [2, 3, 5, 7, 11, 13, 17, 19, 23, 29, 31, 37, 41, 43, 47, 53,
   59, 61, 67, 71, 73, 79, 83, 89, 97, 101, 103, 107, 109, 113, 127, 131,
   137, 139, 149, 151, 157, 163, 167, 173, 179, 181, 191, 193, 197, 199, 211, 223,
   227, 229, 233, 239, 241, 251, 257, 263, 269, 271, 277, 281, 283, 293, 307, 311]

/-- Each round constant of SHA-256 is the first 32 bits of the fractional part of the cube root of its
prime (FIPS 180-4): some whole part makes it the root's floor. -/
theorem test_sha256_roundConstants : Sha256.roundConstants.length = 64 ∧
    ∀ kp ∈ Sha256.roundConstants.zip firstPrimes, ∃ whole < 7,
      (whole * 2 ^ 32 + kp.1.toNat) ^ 3 ≤ kp.2 * 2 ^ 96 ∧
      kp.2 * 2 ^ 96 < (whole * 2 ^ 32 + kp.1.toNat + 1) ^ 3 := by decide +kernel

/-- Each word of the initial hash value is that of the square root of its prime. -/
theorem test_sha256_initial :
    ∀ hp ∈ Sha256.initial.toList.zip firstPrimes, ∃ whole < 5,
      (whole * 2 ^ 32 + hp.1.toNat) ^ 2 ≤ hp.2 * 2 ^ 64 ∧
      hp.2 * 2 ^ 64 < (whole * 2 ^ 32 + hp.1.toNat + 1) ^ 2 := by decide +kernel

/-- D-1 -/
theorem test_drbggen : intAfter (runWord 0x00000042 .reset) 0 =
    some 0x80A09DE3BFE30DA90116E588ADE2F812D49B55625BE8B4ABBFF775FA5A5A74E9 := by
  decide +kernel

/-- D-3: the two-step empty reseed. -/
theorem test_drbgseed :
    (match runWord 0x00000041 { State.reset with dlen := 0 } with
      | .next s => some (beInt s.drbg.v.toList, beInt s.drbg.k.toList, s.drbg.ctr)
      | _ => none) =
      some (0xC5609CE6CC1BAFD68C410CB67245F80AB44789C51A9B300BDE0FB59D1E155832,
        0xA3E7776DD1FC680D83B09551D2B1177A5C810BDBDB61B023909C6F0A42C2D204, 0) := by
  decide +kernel

/-- DRBGRST (43_drbg.md R356). -/
theorem test_drbgrst :
    (match runWord 0x00000040 { State.reset with drbg := ⟨.replicate 32 7, .replicate 32 9, 5⟩ } with
      | .next s => some s.drbg
      | _ => none) = some ⟨.replicate 32 1, .replicate 32 0, 0⟩ := by decide +kernel

/-- The digest and the signature of vector E-1. -/
def satoshi : Int := 0xA0DC65FFCA799873CBEA0AC274015B9526505DAAAED385155425F7337704883E
def satoshiDg : Vector Byte 64 := Vector.ofFn fun i => (be32 satoshi).getD i.val 0
def sigR : Int := 0x934B1EA10A4B3C1757E2B0C017D0B6143CE3C9A7E6A4A49860D7A6AB210EE3D8
def sigS : Int := 0x2442CE9D2B916064108014783E923EC36B49743E2FFA1C4496F01A512AAFD9E5

/-- E-5 -/
theorem test_sign_range :
    statusAfter (runWord 0x04431250 (withInts [(1, Config.n)])) = some 0x00000506 := by
  decide +kernel

/-- E-6 and E-9 -/
theorem test_verify :
    statusAfter (runWord 0x04132051 { withInts [(2, sigR), (3, sigS)] with dg := satoshiDg }) =
      some 0x0000000A ∧
    statusAfter (runWord 0x04132051 (withInts [(3, 1)])) = some 0x00000002 := by
  decide +kernel

/-- E-20 and E-23 -/
theorem test_recover :
    statusAfter (runWord 0x00432252 (withInts [(4, 7)])) = some 0x00000606 ∧
    statusAfter (runWord 0x00432252 (withInts [(2, Config.P - Config.n), (3, 1), (4, 2)])) =
      some 0x00000706 := by decide +kernel

/-- F-37: an illegal word completes with cause 0x01. -/
theorem test_illegal_status : statusAfter (runWord 0x03001210 .reset) = some 0x00000106 := by
  decide +kernel

/-! ### The window -/

/-- Serving one access to the window from reset. -/
def served (e : HostEvent) (s : State) : Answer := step { s with hostQueue := [e] }

/-- An access outside the window stops the step (assumption log 3). -/
theorem test_outside_access :
    served (.read (Config.zsecpBase + 0x1000) 4) .reset = .fault .outsideWindow := by
  unfold served
  rw [step_event (rest := []) (by decide) rfl]
  simp only [serveEvent, windowOffset]
  rw [if_neg (by omega)]

/-- ID and the last response (20_memory.md R101, R102). -/
theorem test_read_id : ∃ t, served (.read (Config.zsecpBase + 0) 4) .reset = .next t ∧
    t.lastResponse = some (.data 0x5A530007) :=
  ⟨_, step_read (rest := []) (by decide) (by decide) rfl, rfl⟩

/-- A 32-bit access off a multiple of 4 gets the bus error response (20_memory.md R103). -/
theorem test_bus_error : ∃ t, served (.write (Config.zsecpBase + 0x402) 4 1) .reset = .next t ∧
    t.lastResponse = some .busError ∧ readR t 0 = 0 :=
  ⟨_, step_write (rest := []) (by decide) (by decide) rfl, rfl, by decide +kernel⟩

/-! ### Witnesses for the hypotheses of the statements -/

/-- A check of the state an answer leaves. -/
def leaves (a : Answer) (p : State → Bool) : Bool :=
  match a with
  | .next t => p t
  | _ => false

theorem exists_of_leaves {a : Answer} {p : State → Bool} (h : leaves a p = true) :
    ∃ t, a = .next t ∧ p t = true := by
  cases a with
  | next t => exact ⟨t, rfl, h⟩
  | fault r => cases h
  | refused r => cases h

theorem exists_next (i : Instr) (s : State) : ∃ t, exec i s = .next t := by
  obtain ⟨t, h, -⟩ := exec_ends i s
  exact ⟨t, h⟩

theorem base_isCurvePoint : Config.base.isCurvePoint := by
  refine ⟨?_, ?_, by decide⟩
  · unfold Point.canonical; decide +kernel
  · unfold Point.onCurve; decide +kernel

theorem zero_isCurvePoint : Config.zero.isCurvePoint := by
  refine ⟨?_, ?_, by decide⟩
  · unfold Point.canonical; decide +kernel
  · unfold Point.onCurve; decide +kernel

theorem twoG_isCurvePoint : twoG.isCurvePoint := by
  refine ⟨?_, ?_, by decide⟩
  · unfold Point.canonical; decide +kernel
  · unfold Point.onCurve; decide +kernel

/-- Every point register of a state with the points of reset is the identity or G. -/
theorem points_of_reset {s : State} (hp : s.p = State.reset.p) (j : PIdx) :
    (readP s j).isCurvePoint := by
  have : readP State.reset j = Config.zero ∨ readP State.reset j = Config.base := by
    revert j; decide
  rw [readP_of_p hp]
  rcases this with h | h <;> rw [h]
  · exact zero_isCurvePoint
  · exact base_isCurvePoint

/-- The invariant of a state with the points, the digest length and the table of reset. -/
theorem inv_of {s : State} (hp : s.p = State.reset.p) (hd : s.dlen = 32)
    (hc : s.drbg.ctr ≤ 1001) (hl : s.fatal = false → s.drbg.ctr ≤ 1000)
    (ht : s.tbl = State.reset.tbl) (hv : s.tableValid = false)
    (he : s.err = true ↔ s.cause ≠ .none) (hf : s.fatal = true ↔ s.cause.isFatal = true)
    (hr : s.result = false)
    (hb : s.busy = true → s.done = false ∧ s.err = false ∧ s.cause = .none ∧ s.fatal = false) :
    s.Inv where
  points i := (points_of_reset hp i).1
  dlen := by rw [hd]; decide
  ctr := hc
  ctrLive := hl
  tblSize := by rw [ht]; simp [State.reset]
  tblBuilt h := by rw [hv] at h; cases h
  busyClear := hb
  errCause := he
  fatalCause := hf
  resultOk h := by rw [hr] at h; cases h

/-- PRECOMP in flight with its delay run out. -/
def atCompletion : State := acceptWith 0 0x00000034 .reset

theorem atCompletion_inv : atCompletion.Inv :=
  inv_of rfl rfl (by decide) (by decide) rfl rfl (by decide) (by decide) rfl
    fun _ => ⟨rfl, rfl, rfl, rfl⟩

/-- One generate call short of exhaustion. -/
def lastCall : State := { State.reset with drbg := ⟨.replicate 32 1, .replicate 32 0, 1000⟩ }

theorem lastCall_inv : lastCall.Inv :=
  inv_of rfl rfl (by decide) (by decide) rfl rfl (by decide) (by decide) rfl (by decide)

/-- Dead of exhaustion. -/
def dead : State :=
  raise .fatalDrbg { State.reset with drbg := ⟨.replicate 32 1, .replicate 32 0, 1001⟩ }

theorem dead_inv : dead.Inv :=
  inv_of rfl rfl (by decide) (by decide) rfl rfl (by decide) (by decide) rfl (by decide)

theorem witness_StepRunsTheDecodedCommand :
    atCompletion.inFlight = some 0 ∧ decode atCompletion.cmdlog = .ok .precomp ∧
    decode (BitVec.ofNat 32 (0x00000034 % 2 ^ 32)) = .ok .precomp ∧
    (acceptWith 1 0x00000034 .reset).inFlight = some (0 + 1) ∧ State.reset.inFlight = none := by
  decide

theorem witness_IllegalWordCompletes :
    (acceptWith 0 0xFFFFFFFF .reset).inFlight = some 0 ∧
    decode (acceptWith 0 0xFFFFFFFF .reset).cmdlog = .error .reservedBits := by decide

theorem witness_StepKeepsInv : atCompletion.Inv ∧ ∃ t, step atCompletion = .next t := by
  refine ⟨atCompletion_inv, ?_⟩
  rw [step_completes rfl]
  exact exists_next .precomp atCompletion

theorem witness_DecodeEncode :
    (Instr.padd 2 0 15).wellFormed = true ∧ (Instr.mod 0 15 (.reg 15)).wellFormed = true := by
  decide

theorem witness_EncodeDecode : decode 0x00F10220 = .error .unusedField ∧
    decode 0x000F0220 = .ok (.padd 2 0 15) := by decide

/-- One word for each clause, at the ends of its range. -/
theorem witness_IllegalWords :
    (0x08000034 : Word).extractLsb' 27 5 = 1 ∧ (0xF8000034 : Word).extractLsb' 27 5 = 31 ∧
    ((0x00000016 : Word).extractLsb' 0 8).toNat = 0x16 ∧
    (0x01001215 : Word).extractLsb' 24 2 ≠ 0 ∧ ((0x01001215 : Word).extractLsb' 0 8).toNat = 0x15 ∧
    (0x03001214 : Word).extractLsb' 24 2 = 3 ∧ ((0x03001214 : Word).extractLsb' 0 8).toNat = 0x14 ∧
    (0x01101210 : Word).extractLsb' 24 2 ≠ 2 ∧ (0x01101210 : Word).extractLsb' 20 4 ≠ 0 ∧
    (0x04001210 : Word).extractLsb' 26 1 ≠ 0 ∧
    (0x00021123 : Word).extractLsb' 8 4 ≠ 0 ∧ (0x00001034 : Word).extractLsb' 12 4 ≠ 0 ∧
    (0x00011210 : Word).extractLsb' 16 4 ≠ 0 ∧ (0x00100034 : Word).extractLsb' 20 4 ≠ 0 ∧
    ((0x00032120 : Word).extractLsb' 8 4).toNat = 1 ∧
    ((0x00032120 : Word).extractLsb' 0 8).toNat = 0x20 := by decide

/-- The illegal word 0 at its completion. -/
theorem witness_RecoverableErrorWritesNothing_illegal :
    (acceptWith 0 0 .reset).Inv ∧ (acceptWith 0 0 .reset).inFlight = some 0 ∧
    ∃ t, step (acceptWith 0 0 .reset) = .next t ∧ t.err = true ∧ t.cause.isFatal = false :=
  ⟨inv_of rfl rfl (by decide) (by decide) rfl rfl (by decide) (by decide) rfl
    fun _ => ⟨rfl, rfl, rfl, rfl⟩, rfl, _, step_completes rfl, rfl, rfl⟩

/-- MODINV of 0. -/
theorem witness_RecoverableErrorWritesNothing :
    ∃ t, exec (.modinv 2 1 .p) .reset = .next t ∧ t.err = true ∧ t.cause.isFatal = false := by
  obtain ⟨t, h, hp⟩ := exists_of_leaves (a := exec (.modinv 2 1 .p) .reset)
    (p := fun t => t.err && !t.cause.isFatal) (by decide +kernel)
  rw [Bool.and_eq_true, Bool.not_eq_true'] at hp
  exact ⟨t, h, hp⟩

/-- The 1001st generate call. -/
theorem witness_FatalErrorWritesNoRegister : lastCall.Inv ∧ lastCall.fatal = false ∧
    ∃ t, exec (.drbggen 5) lastCall = .next t ∧ t.cause.isFatal = true :=
  ⟨lastCall_inv, rfl, exists_of_leaves (p := fun t => t.cause.isFatal) (by decide +kernel)⟩

/-- A value that is written. -/
theorem witness_IntegerResultsInRange :
    ∃ t, exec (.mod 2 1 .p) (withInts [(1, -1)]) = .next t ∧
      decide (readR t 2 ≠ readR (withInts [(1, -1)]) 2) = true :=
  exists_of_leaves (p := fun t => decide (readR t 2 ≠ readR (withInts [(1, -1)]) 2))
    (by decide +kernel)

/-- A point that is written. -/
theorem witness_PointsChangeOnlyAsDestination :
    ∃ t, exec (.pmov 2 1) .reset = .next t ∧ decide (readP t 2 ≠ readP .reset 2) = true :=
  exists_of_leaves (p := fun t => decide (readP t 2 ≠ readP .reset 2)) (by decide +kernel)

theorem witness_HiddenStateChangesOnlyBy :
    ∃ t, exec .precomp .reset = .next t ∧ t.tableValid = true :=
  exists_of_leaves (p := fun t => t.tableValid) (by decide +kernel)

/-- A state without the table, and the same with it. -/
theorem witness_TableChangesNoResult :
    (State.reset.tableValid = true → State.reset.tbl = buildTable) ∧
    (true = true → buildTable = buildTable) ∧ ∃ t, exec (.mulg 2 1) .reset = .next t :=
  ⟨fun h => (by cases h), fun _ => rfl, exists_next _ _⟩

/-- The smallest and the largest modulus. -/
theorem witness_ReductionResults :
    modulusValue (withInts [(7, 1)]) (.reg 7) = 1 ∧
    modulusValue (withInts [(7, 2 ^ 256 - 1)]) (.reg 7) = 2 ^ 256 - 1 := by decide +kernel

/-- 0, −1 and 2^256. -/
theorem witness_InvalidModulusIsDomain :
    readR .reset 7 = 0 ∧ readR (withInts [(7, -1)]) 7 = -1 ∧
    readR (withInts [(7, 2 ^ 256)]) 7 = 2 ^ 256 := by decide +kernel

/-- 5 mod 1; 6 mod 9; −1 mod 29. -/
theorem witness_ModinvResult :
    modulusValue (withInts [(1, 5), (7, 1)]) (.reg 0) = 0 ∧
    readR (withInts [(1, 5), (7, 1)]) 1 = 5 ∧
    modulusValue (withInts [(1, 5), (7, 1)]) (.reg 7) = 1 ∧ (1 : Int) ∣ 5 ∧
    readR (withInts [(1, 6), (7, 9)]) 1 = 6 ∧
    modulusValue (withInts [(1, 6), (7, 9)]) (.reg 7) = 9 ∧ ¬(9 : Int) ∣ 6 ∧
    Int.gcd 6 9 ≠ 1 ∧ readR (withInts [(1, -1), (7, 29)]) 1 = -1 ∧
    modulusValue (withInts [(1, -1), (7, 29)]) (.reg 7) = 29 ∧ ¬(29 : Int) ∣ -1 ∧
    Int.gcd (-1) 29 = 1 := by decide +kernel

/-- 9 is a square mod P, −1 is none. -/
theorem witness_ModsqrtResult :
    readR (withInts [(1, 9)]) 1 = 9 ∧ (∃ y : Int, (y * y) % Config.P = 9 % Config.P) ∧
    readR (withInts [(1, -1)]) 1 = -1 ∧ ¬∃ y : Int, (y * y) % Config.P = -1 % Config.P := by
  refine ⟨by decide +kernel, ⟨3, by decide⟩, by decide +kernel, fun ⟨y, hy⟩ => ?_⟩
  obtain ⟨r, hr⟩ := sqrtP_of_square hy
  have : sqrtP (-1) = .error .noSqrt := by decide +kernel
  rw [this] at hr
  cases hr

/-- The first and the last destination: also for PnegPmovResult. -/
theorem witness_PaddPdblResult : 2 ≤ (2 : PIdx).val ∧ 2 ≤ (15 : PIdx).val := by decide

theorem witness_GroupLaws :
    Config.base.isCurvePoint ∧ twoG.isCurvePoint ∧ Config.zero.isCurvePoint :=
  ⟨base_isCurvePoint, twoG_isCurvePoint, zero_isCurvePoint⟩

/-- FROMAFF of G's coordinates, and of (0, 0). -/
theorem witness_CurvePointsStayOnTheCurve :
    (withInts [(0, Config.base.X), (1, Config.base.Y)]).Inv ∧
    (∀ j, (readP (withInts [(0, Config.base.X), (1, Config.base.Y)]) j).isCurvePoint) ∧
    (readR (withInts [(0, Config.base.X), (1, Config.base.Y)]) 1 ^ 2 -
      (readR (withInts [(0, Config.base.X), (1, Config.base.Y)]) 0 ^ 3 + 7)) % Config.P = 0 ∧
    (readR (withInts [(0, Config.base.X), (1, Config.base.Y)]) 2 = 0 ∧
      readR (withInts [(0, Config.base.X), (1, Config.base.Y)]) 3 = 0) ∧
    ∃ t, exec (.fromaff 2 0 1) (withInts [(0, Config.base.X), (1, Config.base.Y)]) = .next t :=
  ⟨inv_of rfl rfl (by decide) (by decide) rfl rfl (by decide) (by decide) rfl (by decide),
    points_of_reset rfl, by decide +kernel, by decide +kernel, exists_next _ _⟩

/-- 2G and G; G and G; G and −G. -/
theorem witness_PaddIsChordAndTangent :
    (readP (withPoint 2 twoG) 2).isCurvePoint ∧ (readP (withPoint 2 twoG) 1).isCurvePoint ∧
    toAffine (readP (withPoint 2 twoG) 2) =
      .ok (0xC6047F9441ED7D6D3045406E95C07CD85C778E4B8CEF3CA7ABAC09B95C709EE5,
        0x1AE168FEA63DC339A3C58419466CEAEEF7F632653266D0E1236431A950CFE52A) ∧
    toAffine (readP (withPoint 2 twoG) 1) = .ok (Config.base.X, Config.base.Y) ∧
    toAffine (readP (withPoint 2 (pointNeg Config.base)) 2) =
      .ok (Config.base.X, Config.P - Config.base.Y) ∧
    ∃ t, exec (.padd 3 2 1) (withPoint 2 twoG) = .next t :=
  ⟨twoG_isCurvePoint, base_isCurvePoint, by decide +kernel, by decide +kernel,
    by decide +kernel, exists_next _ _⟩

/-- Z = 0, Z = 1 and another Z: for PeqResult and ToaffResult. -/
theorem witness_PeqResult : (readP .reset 0).canonical ∧ (readP .reset 0).Z = 0 ∧
    (readP .reset 1).canonical ∧ (readP .reset 1).Z = 1 ∧ twoG.canonical ∧ twoG.Z ≠ 0 :=
  ⟨zero_isCurvePoint.1, by decide, base_isCurvePoint.1, by decide, twoG_isCurvePoint.1, by decide⟩

theorem witness_ToaffResult : (readP .reset 0).canonical ∧ (readP (withPoint 2 twoG) 2).canonical :=
  ⟨zero_isCurvePoint.1, twoG_isCurvePoint.1⟩

/-- (0, 0), (P − 1, P − 1), and P and −1 out of range. -/
theorem witness_FromaffResult :
    readR .reset 0 = 0 ∧ readR (withInts [(0, Config.P - 1), (1, Config.P - 1)]) 0 = Config.P - 1 ∧
    readR (withInts [(0, Config.P)]) 0 = Config.P ∧ readR (withInts [(0, -1)]) 0 = -1 := by
  decide +kernel

/-- x = P; x = 0, where 7 is no square; x = Gx. -/
theorem witness_FromxResult :
    readR (withInts [(0, Config.P)]) 0 = Config.P ∧ readR .reset 0 = 0 ∧
    (¬∃ y : Int, (y * y) % Config.P = (0 ^ 3 + 7) % Config.P) ∧
    (Config.base.Y * Config.base.Y) % Config.P = (Config.base.X ^ 3 + 7) % Config.P := by
  refine ⟨by decide +kernel, by decide +kernel, fun ⟨y, hy⟩ => ?_, by decide +kernel⟩
  obtain ⟨q, hq⟩ := fromX_of_square false hy
  have : fromX 0 false = .error .noSqrt := by decide +kernel
  rw [this] at hq
  cases hq

/-- k = 0 and k = 2^256 − 1: also for MuladdResult, BaseHasOrderN and WindowDigitsAreExact. -/
theorem witness_MulgResult :
    (State.reset.tableValid = true → State.reset.tbl = buildTable) ∧ readR .reset 0 = 0 ∧
    readR (withInts [(0, 2 ^ 256 - 1)]) 0 = 2 ^ 256 - 1 :=
  ⟨fun h => (by cases h), by decide +kernel, by decide +kernel⟩

/-- A base equal to G, a curve point that is not, and the identity. -/
theorem witness_MulResult :
    pointEq (readP .reset 1) Config.base = true ∧ pointEq (readP .reset 0) Config.base = false ∧
    pointEq (readP (withPoint 2 twoG) 2) Config.base = false ∧
    (readP (withPoint 2 twoG) 2).isCurvePoint :=
  ⟨by decide +kernel, by decide +kernel, by decide +kernel, twoG_isCurvePoint⟩

theorem witness_WindowedAgreesWithGeneric : (1 : Int) ≤ 1 ∧ (1 : Int) ≤ Config.n - 1 := by decide

theorem witness_TableContents : 0 < 33 ∧ 32 < 33 ∧ 1 ≤ 128 ∧ 31 < 32 ∧ 2 ≤ 2 := by decide

/-- k = 1 and k = 2^256 − 1; masks that meet the invariants for k = 1. -/
theorem witness_NafResult : readR (withInts [(0, 1)]) 0 = 1 ∧
    readR (withInts [(0, 2 ^ 256 - 1)]) 0 = 2 ^ 256 - 1 ∧
    ((1 : Nat) : Int) - (0 : Nat) = 1 ∧ 1 &&& 0 = 0 ∧ (1 ||| 0) &&& ((1 ||| 0) >>> 1) = 0 := by
  decide +kernel

/-- −1, 2^256, and 0 for NAF. -/
theorem witness_ScalarOutOfRange : readR (withInts [(0, -1)]) 0 = -1 ∧
    readR (withInts [(0, 2 ^ 256)]) 0 = 2 ^ 256 ∧ readR .reset 0 = 0 := by decide +kernel

/-- An empty seed and a longest one. -/
theorem witness_DrbgResetAndReseed : ({ State.reset with dlen := 0 } : State).dlen.toNat = 0 ∧
    ({ State.reset with dlen := 64 } : State).dlen.toNat = 64 := by decide

/-- CTR = 0, 999 and 1000. -/
theorem witness_DrbggenResult : State.reset.drbg.ctr = 0 ∧ lastCall.drbg.ctr = 1000 ∧
    ({ lastCall with drbg := ⟨.replicate 32 1, .replicate 32 0, 999⟩ } : State).drbg.ctr < 1000 := by
  decide

/-- The state of vector E-1. -/
def e1 : State := { withInts [(1, 1)] with dg := satoshiDg }

theorem e1_digest : digestInt e1 = satoshi := by decide +kernel

theorem e1_key : readR e1 1 = 1 := by decide +kernel

/-- The first candidate of vector E-1's driver (95_test_vectors.md, after D-13). -/
theorem e1_candidate : driverCandidate (be32 1 ++ be32 satoshi) 0 =
    0x8F8A276C19F4149656B280621E358CCE24F5F52542772691EE69063B74F15D15 := by decide +kernel

/-- The signature of vector E-1 is the first candidate's, with low-S. -/
theorem e1_signature : SignatureOf 1 satoshi true
    (driverCandidate (be32 1 ++ be32 satoshi) 0) ⟨sigR, sigS, 1⟩ := by
  rw [e1_candidate]
  refine ⟨by decide +kernel, 0x934B1EA10A4B3C1757E2B0C017D0B6143CE3C9A7E6A4A49860D7A6AB210EE3D8,
    0x0D2831840679DA4A3DCD420FB04DAA9FF5DF5D05EE36A365DD6A9E3EA87F0BC0, Config.n - sigS,
    ?_, by decide +kernel, by decide +kernel, by decide +kernel, by decide +kernel,
    by decide +kernel, by decide +kernel⟩
  decide +kernel

theorem witness_SignTakesFirstUsableCandidate :
    1 ≤ readR e1 1 ∧ readR e1 1 ≤ Config.n - 1 ∧
    (e1.tableValid = true → e1.tbl = buildTable) ∧ 0 < 1000 ∧
    SignatureOf (readR e1 1) (digestInt e1) true
      (driverCandidate (be32 (readR e1 1) ++ be32 (digestInt e1)) 0) ⟨sigR, sigS, 1⟩ := by
  rw [e1_key, e1_digest]
  exact ⟨by decide, by decide, fun h => (by cases h), by decide, e1_signature⟩

/-- Keys 0 and n, and a predicate that rejects every candidate. -/
theorem witness_SignErrors : readR .reset 1 = 0 ∧ readR (withInts [(1, Config.n)]) 1 = Config.n ∧
    ∀ i < 1000, ∃ used, (fun _ : Bytes32 => ((false, .retry) : Bool × Verdict Signature))
      (afterGenerate (driverState [] i)).v = (used, .retry) :=
  ⟨by decide +kernel, by decide +kernel, fun _ _ => ⟨false, rfl⟩⟩

/-- SIGN of vector E-1 succeeds. -/
theorem e1_signs : ∃ t, exec (.sign 2 1 3 4 true) e1 = .next t ∧ t.err = false := by
  have hrun : signRun (tableOf e1) (readR e1 1) (digestInt e1) true =
      ⟨.reset, true, .ok ⟨sigR, sigS, 1⟩⟩ := by
    rw [e1_key, e1_digest, tableOf_of_built (s := e1) fun h => by cases h]
    exact drbgRun_accepts (j := 0) (by decide) (fun i hi => absurd hi (by omega))
      (signCandidate_of_signature e1_signature)
  have hx : exec (.sign 2 1 3 4 true) e1 = execSign 2 1 3 4 true e1 := rfl
  rw [hx, execSign_run (by decide +kernel) hrun]
  exact ⟨_, rfl, rfl⟩

/-- The two states differ in OVR, in the DRBG and in a byte of DG beyond DLEN. -/
theorem witness_SignIsPure :
    (e1.tableValid = true → e1.tbl = buildTable) ∧
    readR { e1 with ovr := true, drbg := lastCall.drbg, dg := e1.dg.set 63 0xFF } 1 = readR e1 1 ∧
    digestInt { e1 with ovr := true, drbg := lastCall.drbg, dg := e1.dg.set 63 0xFF } =
      digestInt e1 ∧
    e1.dg.set 63 0xFF ≠ e1.dg ∧
    (∃ t, exec (.sign 2 1 3 4 true) e1 = .next t ∧ t.err = false) ∧
    ∃ t, exec (.sign 2 1 3 4 true)
      { e1 with ovr := true, drbg := lastCall.drbg, dg := e1.dg.set 63 0xFF } = .next t :=
  ⟨fun h => (by cases h), rfl, by decide +kernel, by decide +kernel, e1_signs, exists_next _ _⟩

/-- Each check of RECOVER: −1, 4, 7; r = 0; r = P − n with bit 1 set; r = 5; r = 2 and 3. -/
theorem witness_RecoverResult :
    readR (withInts [(4, -1)]) 4 = -1 ∧ readR (withInts [(4, 4)]) 4 = 4 ∧
    readR (withInts [(3, 1)]) 2 = 0 ∧
    Config.P ≤ readR (withInts [(2, Config.P - Config.n), (3, 1), (4, 2)]) 2 + Config.n ∧
    (¬∃ y : Int, (y * y) % Config.P = (5 ^ 3 + 7) % Config.P) ∧
    ∃ y : Int, (y * y) % Config.P = (1 ^ 3 + 7) % Config.P := by
  refine ⟨by decide +kernel, by decide +kernel, by decide +kernel, by decide +kernel,
    fun ⟨y, hy⟩ => ?_, ?_⟩
  · obtain ⟨q, hq⟩ := fromX_of_square false hy
    have : fromX 5 false = .error .noSqrt := by decide +kernel
    rw [this] at hq
    cases hq
  · have h : (match fromX 1 false with
      | .ok _ => true
      | .error _ => false) = true := by decide +kernel
    cases hq : fromX 1 false with
    | error c => rw [hq] at h; cases h
    | ok q =>
      obtain ⟨y, -, -, -, hy, -⟩ := fromX_spec hq
      exact ⟨y, hy⟩

/-- Vector E-1, then MULG of the key, then VERIFY and RECOVER. -/
theorem witness_VerifyAcceptsWhatSignWrote :
    (e1.tableValid = true → e1.tbl = buildTable) ∧ (1 : RIdx) ∉ [(2 : RIdx), 3, 4] ∧
    ∃ t u v, exec (.sign 2 1 3 4 true) e1 = .next t ∧ t.err = false ∧
      exec (.mulg 2 1) t = .next u ∧ exec (.verify 2 3 2 true) u = .next v := by
  obtain ⟨t, ht, he⟩ := e1_signs
  obtain ⟨u, hu⟩ := exists_next (.mulg 2 1) t
  obtain ⟨v, hv⟩ := exists_next (.verify 2 3 2 true) u
  exact ⟨fun h => (by cases h), by decide, t, u, v, ht, he, hu, hv⟩

theorem witness_RecoverFindsTheSigner :
    ∃ t u v, exec (.sign 2 1 3 4 true) e1 = .next t ∧ t.err = false ∧
      exec (.mulg 2 1) t = .next u ∧ exec (.recover 3 2 3 4) u = .next v := by
  obtain ⟨t, ht, he⟩ := e1_signs
  obtain ⟨u, hu⟩ := exists_next (.mulg 2 1) t
  obtain ⟨v, hv⟩ := exists_next (.recover 3 2 3 4) u
  exact ⟨t, u, v, ht, he, hu, hv⟩

/-- A host's queue on an idle block, and on a busy one with delay left: the queue hypothesis of the
statements about the window. -/
theorem witness_window (e : HostEvent) (rest : List HostEvent) :
    let idle : State := { State.reset with hostQueue := e :: rest }
    let busy : State := { acceptWith 1 0x00000034 .reset with hostQueue := e :: rest }
    idle.inFlight ≠ some 0 ∧ idle.hostQueue = e :: rest ∧ idle.busy = false ∧
      idle.fatal = false ∧ busy.inFlight ≠ some 0 ∧ busy.hostQueue = e :: rest ∧
      busy.busy = true := by
  exact ⟨nofun, rfl, rfl, rfl, fun h => (by cases h), rfl, rfl⟩

/-- The ends of the ranges of offsets: ReadsAndMalformedAccesses and DataWrites. -/
theorem witness_DataWrites :
    0x01C < 0x1000 ∧ 0x0FC % 4 = 0 ∧ 0x140 % 4 = 0 ∧ 0x3FC < 0x400 ∧ 0x7FC < 0x800 ∧
    0x60 ≤ (0x860 - 0x800) % 128 ∧ 0x60 ≤ (0xFFC - 0x800) % 128 ∧ 0xFFF % 4 ≠ 0 ∧
    0x100 + 4 * (15 : Fin 16).val = 0x13C ∧ 0x400 + 64 * (15 : RIdx).val + 4 * (15 : Fin 16).val = 0x7FC ∧
    ((64 : Word).extractLsb' 0 7).toNat = 64 ∧ ((65 : Word).extractLsb' 0 7).toNat = 65 := by decide

/-- The largest CTR a state holds, and the last offset of each kind: DG, R, P.X, P.Y, P.Z, reserved. -/
theorem witness_ReadValues : dead.drbg.ctr = 1001 ∧ dead.inFlight ≠ some 0 ∧
    0x100 + 4 * (15 : Fin 16).val = 0x13C ∧
    0x400 + 64 * (15 : RIdx).val + 4 * (15 : Fin 16).val = 0x7FC ∧
    0x800 + 128 * (15 : PIdx).val + 4 * (7 : Fin 8).val = 0xF9C ∧
    0x820 + 128 * (15 : PIdx).val + 4 * (7 : Fin 8).val = 0xFBC ∧
    0x840 + 128 * (15 : PIdx).val + 4 * (7 : Fin 8).val = 0xFDC ∧
    0x860 + 128 * (15 : PIdx).val + 4 * (7 : Fin 8).val = 0xFFC := by decide

/-- A STATUS write of each bit, FATAL and not. -/
theorem witness_StatusRegister : (0x00000004 : Word).getLsbD 2 = true ∧ State.reset.fatal = false ∧
    dead.fatal = true ∧ (0x00000042 : Word).getLsbD 2 = false := by decide

theorem witness_CmdWrite : dead.busy = false ∧ dead.fatal = true ∧
    State.reset.busy = false ∧ State.reset.fatal = false := by decide

theorem witness_LdrLoadsARegister : State.reset.inFlight = none ∧
    (-2 ^ 511 : Int) < 2 ^ 511 ∧ (2 ^ 511 - 1 : Int) < 2 ^ 511 ∧
    ({ State.reset with hostQueue := hostLdr 15 (-2 ^ 511) ++ [.idle] } : State).hostQueue =
      hostLdr 15 (-2 ^ 511) ++ [.idle] := by
  refine ⟨rfl, by norm_num, by norm_num, rfl⟩

/-- Both bits of CTRL, a state that serves and one whose completion is due. -/
theorem witness_ResetsAndCtrl : (0x00000003 : Word).getLsbD 1 = true ∧
    (0x00000001 : Word).getLsbD 1 = false ∧ dead.inFlight ≠ some 0 ∧
    atCompletion.inFlight = some 0 := by decide

/-- A fatal state, an overrun, and a write while BUSY. -/
theorem witness_FatalAndOvrAreSticky :
    dead.Inv ∧ dead.fatal = true ∧ (∃ t, step dead = .next t) ∧
    ({ State.reset with ovr := true } : State).ovr = true ∧
    ∃ t, served (.write (Config.zsecpBase + 0x00C) 4 0x00000034) (acceptWith 1 0x00000034 .reset) =
      .next t ∧ t.ovr = true :=
  ⟨dead_inv, rfl, ⟨_, rfl⟩, rfl,
    ⟨_, step_write_ok (rest := []) (by decide) (by decide) (by decide) rfl, rfl⟩⟩

/-- A completion with the interrupt enabled. -/
theorem witness_InterruptLine_falls :
    ({ State.reset with irqen := true, done := true } : State).irq = true ∧
    ({ State.reset with irqen := true, done := true } : State).inFlight ≠ some 0 := by decide

theorem witness_InterruptLine : ∃ t, step { atCompletion with irqen := true } = .next t ∧
    ({ atCompletion with irqen := true } : State).inFlight = some 0 := by
  rw [step_completes rfl]
  obtain ⟨t, ht⟩ := exists_next .precomp { atCompletion with irqen := true }
  exact ⟨t, ht, rfl⟩

/-- A command in flight for two units of delay, with a read, a write and idle time ahead. -/
theorem witness_CommandCompletesOnItsOperands :
    (acceptWith 2 0x00000034 .reset).inFlight = some 2 ∧
    ∀ e ∈ [HostEvent.read (Config.zsecpBase + 8) 4, .write (Config.zsecpBase + 0x400) 4 7, .idle],
      harmless e = true := by
  refine ⟨rfl, fun e he => ?_⟩
  simp only [List.mem_cons, List.not_mem_nil, or_false] at he
  rcases he with rfl | rfl | rfl <;> simp [harmless, accessOk]

end Sys2Proof.Tests
end

section
/-! The scope family (00_scope.md): the base point has order n, seen through the windowed multiply. -/

namespace Sys2Proof.Machine

section

variable [Fact (Nat.Prime Config.P.toNat)]

/-- Z = 0 marks the identity among the triples that stand for a point. -/
theorem rep_Z_eq_zero_iff {p : Point} {g : curve.Point} (h : Rep p g) : p.Z = 0 ↔ g = 0 := by
  obtain ⟨⟨-, -, hlt⟩, hs⟩ := h
  rw [← cast_eq_zero_iff (Z_nonneg p) hlt]
  cases g with
  | zero => exact iff_of_true hs.2.1 rfl
  | some x y hn => exact iff_of_false hs.1 nofun

/-- `wnaf_rep` with the scalar left an integer, the form the order lemmas speak of. -/
theorem wnaf_rep_zsmul {b : curve.Point} (hb : Rep Config.base b) {k : Int} (h0 : 0 ≤ k)
    (h1 : k < 2 ^ 256) : Rep (wnaf buildTable k) (k • b) :=
  toNat_smul h0 b ▸ wnaf_rep hb h0 h1

/-- A multiple of G is the identity exactly when n divides the factor. -/
theorem zsmul_base_eq_zero_iff {b : curve.Point} (hb : Rep Config.base b) (k : Int) :
    k • b = 0 ↔ Config.n ∣ k := by
  rw [← addOrderOf_dvd_iff_zsmul_eq_zero, addOrderOf_base hb, n_cast]

end

/-- Settles O40: both windowed multiples stand for multiples of one point of the curve, and that
point has order n. -/
theorem baseHasOrderN : Obligations.BaseHasOrderN := by
  intro j k hj0 hj1 hk0 hk1
  have := fact_prime_P
  obtain ⟨b, hb⟩ := exists_rep_base
  have hj := wnaf_rep_zsmul hb hj0 hj1
  have hk := wnaf_rep_zsmul hb hk0 hk1
  exact ⟨(pointEq_rep hj hk).trans (zsmul_base_eq_iff hb j k),
    (rep_Z_eq_zero_iff hk).trans (zsmul_base_eq_zero_iff hb k)⟩

end Sys2Proof.Machine
end

section
/-! The state family (10_state.md): the values after reset and what a step is (R40, R60, R65). -/

namespace Sys2Proof.Machine

/-- Every point register but P1 holds the identity after reset (10_state.md R65). -/
theorem readP_reset {i : PIdx} (h : i.val ≠ 1) : readP State.reset i = Config.zero := by
  unfold readP
  split
  · rfl
  · simp [State.reset]

theorem readR_reset (i : RIdx) : readR State.reset i = 0 := by simp [readR, State.reset]

/-- The step at the end of the delay runs the command the word decodes to (10_state.md R60). -/
theorem step_runs {s : State} {i : Instr} (h : s.inFlight = some 0) (hd : decode s.cmdlog = .ok i) :
    step s = exec i s := by
  rw [step_completes h]
  unfold completeInFlight fetchWord
  rw [hd]

/-- Settles O1, field by field of the state after reset. -/
theorem resetValues : Obligations.ResetValues :=
  ⟨readR_reset, readP_zero _, readP_one _, fun _ h => readP_reset (by omega), rfl, rfl, rfl, rfl,
    rfl, rfl, rfl, rfl, rfl, rfl, rfl, rfl⟩

/-- Settles O2, by the three cases of the delay. -/
theorem stepRunsTheDecodedCommand : Obligations.StepRunsTheDecodedCommand := by
  refine ⟨fun s i => step_runs, fun s nbits w i hd => step_runs rfl hd, fun s d h => ?_,
    fun s h => ?_⟩
  · unfold step; rw [h]
  · unfold step; rw [h]

end Sys2Proof.Machine
end

section
/-! The invariant of the state (10_state.md R47, R50, R53, R55, R58, R59, R63, R66): it holds after
reset, and every step keeps it. A completion is taken apart into the data it leaves and the STATUS
fields it writes; a served event, by the writes it can make. -/

namespace Sys2Proof.Machine

/-- Settles O5, field by field of the invariant. -/
theorem invReset : Obligations.InvReset where
  points i := by
    by_cases h : i = 1
    · rw [h, readP_one]
      exact base_canonical
    · rw [readP_reset fun hv => h (Fin.ext hv)]
      exact zero_canonical
  dlen := by decide
  ctr := Nat.zero_le _
  ctrLive _ := Nat.zero_le _
  tblSize := List.length_replicate
  tblBuilt := nofun
  busyClear := nofun
  errCause := by decide
  fatalCause := by decide
  resultOk := nofun

/-- A reset leaves the invariant's state, whatever stood before. -/
theorem inv_resetBlock (s : State) : (resetBlock s).Inv := { invReset with }

/-! ### Completions -/

/-- The part of the invariant that speaks of no STATUS field and of no counter. -/
structure DataInv (s : State) : Prop where
  points : ∀ i : PIdx, (readP s i).canonical
  dlen : s.dlen.toNat ≤ Config.digestMax
  tblSize : s.tbl.length = Config.tableSize
  tblBuilt : TableRight s

/-- A table that was kept, or is built now, has the invariant's size and contents. -/
theorem State.Inv.table {s t : State} (hi : s.Inv) (ht : TableKept s t ∨ TableBuilt s t) :
    t.tbl.length = Config.tableSize ∧ TableRight t := by
  rcases ht with ⟨hv, htbl⟩ | hb
  · unfold TableRight
    rw [hv, htbl]
    exact ⟨hi.tblSize, hi.tblBuilt⟩
  · have e := hb.tbl_eq hi.tblBuilt
    exact ⟨e ▸ buildTable_length, fun _ => e⟩

/-- What a command writes before its completion keeps the data's part of the invariant. -/
theorem State.Inv.data {s t : State} (hi : s.Inv) (hp : ∀ i, (readP t i).canonical)
    (hq : Quiet s t) (ht : TableKept s t ∨ TableBuilt s t) : DataInv t where
  points := hp
  dlen := hq.dlen ▸ hi.dlen
  tblSize := (hi.table ht).1
  tblBuilt := (hi.table ht).2

theorem DataInv.raise {s : State} (d : DataInv s) (hf : s.fatal = false) {c : Cause}
    (hn : c ≠ .none) (hc : s.drbg.ctr ≤ Config.drbgLimit + 1)
    (hl : c.isFatal = false → s.drbg.ctr ≤ Config.drbgLimit) : (Machine.raise c s).Inv where
  points := d.points
  dlen := d.dlen
  ctr := hc
  ctrLive h := hl (by simpa [hf] using h)
  tblSize := d.tblSize
  tblBuilt := d.tblBuilt
  busyClear := nofun
  errCause := iff_of_true rfl hn
  fatalCause := by simp [hf]
  resultOk := nofun

theorem DataInv.complete {s : State} (d : DataInv s) (hf : s.fatal = false)
    (hc : s.drbg.ctr ≤ Config.drbgLimit) (b : Bool) : (Machine.complete b s).Inv where
  points := d.points
  dlen := d.dlen
  ctr := Nat.le_succ_of_le hc
  ctrLive _ := hc
  tblSize := d.tblSize
  tblBuilt := d.tblBuilt
  busyClear := nofun
  errCause := by simp
  fatalCause := by simp [hf, Cause.isFatal]
  resultOk _ := rfl

/-- A recoverable error keeps the invariant of a state that is not fatal. -/
theorem State.Inv.raise {s : State} (hi : s.Inv) (hf : s.fatal = false) {c : Cause}
    (hn : c ≠ .none) : (Machine.raise c s).Inv :=
  (hi.data hi.points (Quiet.refl s) (.inl (TableKept.refl s))).raise hf hn hi.ctr
    fun _ => hi.ctrLive hf

/-- However a command ends, it keeps the invariant of a state that is not fatal. -/
theorem Ends.inv {i : Instr} {s t : State} (he : Ends i s t) (hi : s.Inv) (hf : s.fatal = false) :
    t.Inv := by
  have hlive := hi.ctrLive hf
  have table {t : State} (h : TableKept s t ∨ (s.tableValid = false ∧ TableBuilt s t ∧
      MayBuild i s)) : TableKept s t ∨ TableBuilt s t := h.imp_right fun h => h.2.1
  cases he with
  | error c h hn => exact hi.raise hf hn
  | invariant h => exact absurd hi.points h
  | exhausted s' hr hp hq hf' hu hc ht hg =>
    have hpts (j : PIdx) : (readP s' j).canonical := readP_of_p hp j ▸ hi.points j
    exact (hi.data hpts hq (table ht)).raise (hf'.trans hf) (by decide) (hc hlive).le nofun
  | done b s' w =>
    have hpts (j : PIdx) : (readP s' j).canonical := by
      rcases w.points j with h | ⟨-, -, h⟩
      · exact h ▸ hi.points j
      · exact h.canonical hi.points
    exact (hi.data hpts w.quiet (table w.table)).complete (w.fatal.trans hf) (w.ctr hlive) b

/-! ### Writes -/

/-- A STATUS write with bit 2, not FATAL: ERR and CAUSE are cleared (10_state.md R54). -/
theorem writeStatus_clears {v : Word} {s : State} (h : v.getLsbD 2 = true)
    (hf : s.fatal = false) : writeStatus v s =
      { s with done := s.done && !v.getLsbD 1, err := false, cause := .none,
               ovr := s.ovr && !v.getLsbD 6 } := by
  simp [writeStatus, h, hf]

/-- A STATUS write without bit 2, or FATAL: ERR and CAUSE are kept (10_state.md R54). -/
theorem writeStatus_keeps {v : Word} {s : State} (h : v.getLsbD 2 = false ∨ s.fatal = true) :
    writeStatus v s = { s with done := s.done && !v.getLsbD 1, ovr := s.ovr && !v.getLsbD 6 } := by
  have hkeep : (v.getLsbD 2 && !s.fatal) = false := by rcases h with h | h <;> rw [h] <;> simp
  unfold writeStatus
  simp only [hkeep, Bool.not_false, Bool.and_true, Bool.false_eq_true, if_false]

/-- Bit 2 clears ERR and CAUSE, or it does not. -/
theorem clears_or_keeps (v : Word) (s : State) :
    (v.getLsbD 2 = true ∧ s.fatal = false) ∨ (v.getLsbD 2 = false ∨ s.fatal = true) := by
  cases v.getLsbD 2 <;> cases s.fatal <;> simp

theorem inv_writeStatus {s : State} (hi : s.Inv) (v : Word) : (writeStatus v s).Inv := by
  have hdone (hb : s.busy = true) : (s.done && !v.getLsbD 1) = false := by
    simp [(hi.busyClear hb).1]
  rcases clears_or_keeps v s with ⟨h, hf⟩ | h
  · rw [writeStatus_clears h hf]
    exact { hi with
      busyClear := fun hb => ⟨hdone hb, rfl, rfl, hf⟩
      errCause := by simp
      fatalCause := by simp [hf, Cause.isFatal]
      resultOk := fun _ => rfl }
  · rw [writeStatus_keeps h]
    exact { hi with busyClear := fun hb => ⟨hdone hb, (hi.busyClear hb).2⟩ }

/-- An acceptance clears what the invariant asks to be clear (10_state.md R55). -/
theorem inv_acceptWith {s : State} (hi : s.Inv) (hf : s.fatal = false) (d : Nat) (c : Word) :
    (acceptWith d c s).Inv :=
  { hi with
    busyClear := fun _ => ⟨rfl, rfl, rfl, hf⟩
    errCause := by simp
    fatalCause := by simp [hf, Cause.isFatal]
    resultOk := fun _ => rfl }

theorem WriteEnds.inv {v : Word} {s t : State} {reg : MmioReg} (hw : WriteEnds v s reg t)
    (hi : s.Inv) : t.Inv := by
  cases hw with
  | ignored => exact hi
  | busy | irqen | dg | r => exact { hi with }
  | reset => exact inv_resetBlock s
  | status => exact inv_writeStatus hi v
  | accepted _ hf => exact inv_acceptWith hi hf _ v
  | dlen _ h => exact { hi with dlen := h }

/-! ### Steps -/

theorem inv_waiting {s : State} (hi : s.Inv) (rest : List HostEvent) : (waiting s rest).Inv :=
  { hi with busyClear := fun h => hi.busyClear (busy_waiting s rest ▸ h) }

theorem Served.inv {s t : State} {e : HostEvent} (hs : Served s e t) (hi : s.Inv) : t.Inv := by
  cases hs with
  | read | malformed | idle => exact hi
  | write off v _ _ _ hw => exact hw.inv hi
  | hardReset => exact inv_resetBlock s

/-- In a state with the invariant a command in flight is not fatal (10_state.md R55). -/
theorem State.Inv.not_fatal {s : State} (hi : s.Inv) {d : Nat} (h : s.inFlight = some d) :
    s.fatal = false := (hi.busyClear (by simp [State.busy, h])).2.2.2

theorem StepEnds.inv {s t : State} (he : StepEnds s t) (hi : s.Inv) : t.Inv := by
  cases he with
  | command i _ h _ he => exact he.inv hi (hi.not_fatal h)
  | illegal h => exact hi.raise (hi.not_fatal h) (by decide)
  | quiet => exact inv_waiting hi []
  | served e rest t' _ _ _ hs ht =>
    rw [ht]
    exact { hs.inv (inv_waiting hi rest) with }

/-- Settles O6, by the ways a step ends: a command, an illegal word, or a served event. -/
theorem stepKeepsInv : Obligations.StepKeepsInv := fun _ _ hi h => (step_ends h).inv hi

end Sys2Proof.Machine
end

section
/-! What every command does and does not do to the registers and the hidden state (10_state.md R44,
R46, R48, R58, R59), from the ways a command ends. -/

namespace Sys2Proof.Machine

/-- `exec_ends` for a given answer. -/
theorem ends_of_exec {i : Instr} {s t : State} (h : exec i s = .next t) : Ends i s t := by
  obtain ⟨u, hu, he⟩ := exec_ends i s
  rw [h] at hu
  cases hu
  exact he

/-- Settles O14: an error writes no register, and a success says what it wrote. -/
theorem integerResultsInRange : Obligations.IntegerResultsInRange := by
  intro i s t h j
  cases ends_of_exec h with
  | error | invariant => exact .inl rfl
  | exhausted s' hr => exact .inl (by simp [readR, hr])
  | done b s' w => exact w.ints j

/-- Settles O15: of the ways a command ends only a success changes a point register, and that is its
destination. -/
theorem pointsChangeOnlyAsDestination : Obligations.PointsChangeOnlyAsDestination := by
  refine ⟨fun s => ⟨readP_zero s, readP_one s⟩, fun i s t j h hne => ?_⟩
  cases ends_of_exec h with
  | error | invariant => exact absurd rfl hne
  | exhausted s' _ hp => exact absurd (readP_of_p hp j) hne
  | done b s' w =>
    obtain ⟨hd, h2, -⟩ := (w.points j).resolve_left hne
    exact ⟨rfl, hd, h2⟩

/-- Settles O16: an error but the DRBG's exhaustion keeps the hidden state, and the others name the
commands that may change it. -/
theorem hiddenStateChangesOnlyBy : Obligations.HiddenStateChangesOnlyBy := by
  intro i s t h
  cases ends_of_exec h with
  | error | invariant => exact ⟨.inl rfl, .inl ⟨rfl, rfl⟩⟩
  | exhausted s' _ _ _ _ hu _ ht => exact ⟨.inr hu, ht⟩
  | done b s' w => exact ⟨w.drbg, w.table⟩

end Sys2Proof.Machine
end

section
/-! The table changes no result (10_state.md R59): from two states that differ in the table alone
every command gives answers that differ there alone. A command reads the table in the windowed
multiply only, where a right table and one built now are the same. -/

namespace Sys2Proof.Machine

/-- Two answers are next states that differ in the table alone. -/
def SameAnswer (a b : Answer) : Prop := ∃ t u, a = .next t ∧ b = .next u ∧ SameButTable t u

/-- The windowed multiply reads the rule's table in every state whose table is right. -/
theorem tableOf_eq_of_right {s u : State} (hs : TableRight s) (hu : TableRight u) :
    tableOf u = tableOf s := (tableOf_of_built hu).trans (tableOf_of_built hs).symm

namespace SameButTable

variable {s u : State}

/-! ### Completions -/

theorem succeedWith (h : SameButTable s u) {b b' : Bool} (hb : b' = b) :
    SameAnswer (Machine.succeedWith b s) (Machine.succeedWith b' u) :=
  ⟨_, _, rfl, rfl, hb ▸ h.complete b⟩

theorem succeed (h : SameButTable s u) : SameAnswer (Machine.succeed s) (Machine.succeed u) :=
  h.succeedWith rfl

theorem fail (h : SameButTable s u) (c : Cause) :
    SameAnswer (Machine.fail c s) (Machine.fail c u) := ⟨_, _, rfl, rfl, h.raise c⟩

/-! ### What a command reads -/

theorem readR (h : SameButTable s u) (i : RIdx) : Machine.readR u i = Machine.readR s i := by
  obtain ⟨_, _, rfl⟩ := h; rfl

theorem readP (h : SameButTable s u) (i : PIdx) : Machine.readP u i = Machine.readP s i := by
  obtain ⟨_, _, rfl⟩ := h; rfl

theorem drbg_eq (h : SameButTable s u) : u.drbg = s.drbg := by
  obtain ⟨_, _, rfl⟩ := h; rfl

theorem digestBytes (h : SameButTable s u) : Machine.digestBytes u = Machine.digestBytes s := by
  obtain ⟨_, _, rfl⟩ := h; rfl

theorem digestInt (h : SameButTable s u) : Machine.digestInt u = Machine.digestInt s :=
  congrArg digestIntOf h.digestBytes

theorem selectModulus (h : SameButTable s u) (m : ModSel) :
    Machine.selectModulus u m = Machine.selectModulus s m := by
  obtain ⟨_, _, rfl⟩ := h; rfl

/-! ### The field and the point family -/

theorem reduceInto (h : SameButTable s u) (rd : RIdx) {v v' : Int} (hv : v' = v) (m : ModSel) :
    SameAnswer (Machine.reduceInto rd v m s) (Machine.reduceInto rd v' m u) := by
  unfold Machine.reduceInto
  rw [hv, h.selectModulus]
  cases Machine.selectModulus s m with
  | error c => exact h.fail c
  | ok mv => exact (h.writeR rd _).succeed

theorem execModinv (h : SameButTable s u) (rd ra : RIdx) (m : ModSel) :
    SameAnswer (Machine.execModinv rd ra m s) (Machine.execModinv rd ra m u) := by
  unfold Machine.execModinv
  rw [h.selectModulus, h.readR]
  cases Machine.selectModulus s m with
  | error c => exact h.fail c
  | ok mv =>
    simp only
    cases invert (Machine.readR s ra) mv with
    | error c => exact h.fail c
    | ok x => exact (h.writeR rd x).succeed

theorem execModsqrt (h : SameButTable s u) (rd ra : RIdx) :
    SameAnswer (Machine.execModsqrt rd ra s) (Machine.execModsqrt rd ra u) := by
  unfold Machine.execModsqrt
  rw [h.readR]
  cases sqrtP (Machine.readR s ra) with
  | error c => exact h.fail c
  | ok r => exact (h.writeR rd r).succeed

theorem execToaff (h : SameButTable s u) (rx : RIdx) (pa : PIdx) (ry : RIdx) :
    SameAnswer (Machine.execToaff rx pa ry s) (Machine.execToaff rx pa ry u) := by
  unfold Machine.execToaff
  rw [h.readP]
  cases toAffine (Machine.readP s pa) with
  | error c => exact h.fail c
  | ok xy => exact ((h.writeR rx xy.1).writeR ry xy.2).succeed

/-- A command that writes one point register with a value formed from what it reads. -/
theorem writesPoint (h : SameButTable s u) (pd : PIdx) {q q' : Point} (hq : q' = q) :
    SameAnswer (Machine.succeed (Machine.writeP s pd q))
      (Machine.succeed (Machine.writeP u pd q')) :=
  hq ▸ (h.writeP pd q).succeed

theorem execFromaff (h : SameButTable s u) (pd : PIdx) (rx ry : RIdx) :
    SameAnswer (Machine.execFromaff pd rx ry s) (Machine.execFromaff pd rx ry u) := by
  unfold Machine.execFromaff
  simp only [h.readR]
  split
  · exact (h.writeP pd _).succeed
  · exact h.fail .range

theorem execFromx (h : SameButTable s u) (pd : PIdx) (rx : RIdx) (odd : Bool) :
    SameAnswer (Machine.execFromx pd rx odd s) (Machine.execFromx pd rx odd u) := by
  unfold Machine.execFromx
  simp only [h.readR]
  split
  · cases fromX (Machine.readR s rx) odd with
    | error c => exact h.fail c
    | ok q => exact (h.writeP pd q).succeed
  · exact h.fail .range

/-! ### The scalar family -/

theorem windowedInto (h : SameButTable s u) (hs : TableRight s) (hu : TableRight u) (pd : PIdx)
    (k : Int) : SameAnswer (Machine.windowedInto pd k s) (Machine.windowedInto pd k u) := by
  unfold Machine.windowedInto
  rw [tableOf_eq_of_right hs hu]
  exact (h.withTable.writeP pd _).succeed

theorem execMul (h : SameButTable s u) (hs : TableRight s) (hu : TableRight u) (pd pb : PIdx)
    (rk : RIdx) (safe : Bool) :
    SameAnswer (Machine.execMul pd pb rk safe s) (Machine.execMul pd pb rk safe u) := by
  unfold Machine.execMul
  simp only [h.readR, h.readP]
  split
  · split
    · exact h.windowedInto hs hu pd _
    · exact (h.writeP pd _).succeed
  · exact h.fail .range

theorem execMulg (h : SameButTable s u) (hs : TableRight s) (hu : TableRight u) (pd : PIdx)
    (rk : RIdx) : SameAnswer (Machine.execMulg pd rk s) (Machine.execMulg pd rk u) := by
  unfold Machine.execMulg
  simp only [h.readR]
  split
  · exact h.windowedInto hs hu pd _
  · exact h.fail .range

theorem execMuladd (h : SameButTable s u) (pd : PIdx) (ru1 ru2 : RIdx) (pq : PIdx) :
    SameAnswer (Machine.execMuladd pd ru1 ru2 pq s) (Machine.execMuladd pd ru1 ru2 pq u) := by
  unfold Machine.execMuladd
  simp only [h.readR, h.readP]
  split
  · exact (h.writeP pd _).succeed
  · exact h.fail .range

theorem execNaf (h : SameButTable s u) (rpos rk rneg : RIdx) :
    SameAnswer (Machine.execNaf rpos rk rneg s) (Machine.execNaf rpos rk rneg u) := by
  unfold Machine.execNaf
  simp only [h.readR]
  split
  · exact ((h.writeR rpos _).writeR rneg _).succeed
  · exact h.fail .range

/-! ### The DRBG and the signature family -/

theorem execDrbgseed (h : SameButTable s u) :
    SameAnswer (Machine.execDrbgseed s) (Machine.execDrbgseed u) := by
  unfold Machine.execDrbgseed
  rw [h.drbg_eq, h.digestBytes]
  exact (h.drbg _).succeed

theorem execDrbggen (h : SameButTable s u) (rd : RIdx) :
    SameAnswer (Machine.execDrbggen rd s) (Machine.execDrbggen rd u) := by
  unfold Machine.execDrbggen
  rw [h.drbg_eq]
  cases drbgGenerate s.drbg with
  | error g => exact (h.drbg g).fail .fatalDrbg
  | ok vg => exact ((h.drbg vg.2).writeR rd _).succeed

theorem execSign (h : SameButTable s u) (hs : TableRight s) (hu : TableRight u)
    (rr rkey rs rrec : RIdx) (low : Bool) :
    SameAnswer (Machine.execSign rr rkey rs rrec low s)
      (Machine.execSign rr rkey rs rrec low u) := by
  have hkey := h.readR rkey
  have hvalid := congrArg validScalar hkey
  cases hv : validScalar (Machine.readR s rkey) with
  | false =>
    rw [execSign_range hv, execSign_range (hvalid.trans hv)]
    exact h.fail .range
  | true =>
    have hrun : signRun (Machine.tableOf u) (Machine.readR u rkey) (Machine.digestInt u) low =
        signRun (Machine.tableOf s) (Machine.readR s rkey) (Machine.digestInt s) low := by
      rw [tableOf_eq_of_right hs hu, hkey, h.digestInt]
    rw [execSign_run hv rfl, execSign_run (hvalid.trans hv) hrun]
    generalize signRun (Machine.tableOf s) (Machine.readR s rkey) (Machine.digestInt s) low = run
    have hd : SameButTable
        { (if run.usedTable then Machine.withTable s else s) with drbg := run.drbg }
        { (if run.usedTable then Machine.withTable u else u) with drbg := run.drbg } := by
      cases run.usedTable
      · exact h.drbg _
      · exact h.withTable.drbg _
    cases run.outcome with
    | error c => exact hd.fail c
    | ok sig => exact (((hd.writeR rr _).writeR rs _).writeR rrec _).succeed

theorem execVerify (h : SameButTable s u) (rr rs : RIdx) (pq : PIdx) (low : Bool) :
    SameAnswer (Machine.execVerify rr rs pq low s) (Machine.execVerify rr rs pq low u) := by
  unfold Machine.execVerify
  rw [h.digestInt, h.readR, h.readR, h.readP]
  cases verifySignature (Machine.digestInt s) (Machine.readR s rr) (Machine.readR s rs)
      (Machine.readP s pq) low with
  | error c => exact h.fail c
  | ok b => exact h.succeedWith rfl

theorem execRecover (h : SameButTable s u) (pd : PIdx) (rr rs rrec : RIdx) :
    SameAnswer (Machine.execRecover pd rr rs rrec s) (Machine.execRecover pd rr rs rrec u) := by
  unfold Machine.execRecover
  rw [h.digestInt, h.readR, h.readR, h.readR]
  cases recoverPoint (Machine.digestInt s) (Machine.readR s rr) (Machine.readR s rs)
      (Machine.readR s rrec) with
  | error c => exact h.fail c
  | ok q => exact (h.writeP pd q).succeed

/-- Every command's answers from two states that differ in the table alone differ there alone. -/
theorem exec (h : SameButTable s u) (hs : TableRight s) (hu : TableRight u) (i : Instr) :
    SameAnswer (Machine.exec i s) (Machine.exec i u) := by
  cases i with
  | mod rd ra m => exact h.reduceInto rd (h.readR ra) m
  | modadd rd ra rb m => exact h.reduceInto rd (congrArg₂ (· + ·) (h.readR ra) (h.readR rb)) m
  | modsub rd ra rb m => exact h.reduceInto rd (congrArg₂ (· - ·) (h.readR ra) (h.readR rb)) m
  | modmul rd ra rb m => exact h.reduceInto rd (congrArg₂ (· * ·) (h.readR ra) (h.readR rb)) m
  | modinv rd ra m => exact h.execModinv rd ra m
  | modsqrt rd ra => exact h.execModsqrt rd ra
  | padd pd pa pb => exact h.writesPoint pd (congrArg₂ pointAdd (h.readP pa) (h.readP pb))
  | pdbl pd pa => exact h.writesPoint pd (congrArg₂ pointAdd (h.readP pa) (h.readP pa))
  | pneg pd pa => exact h.writesPoint pd (congrArg pointNeg (h.readP pa))
  | peq pa pb => exact h.succeedWith (congrArg₂ pointEq (h.readP pa) (h.readP pb))
  | pmov pd pa => exact h.writesPoint pd (h.readP pa)
  | toaff rx pa ry => exact h.execToaff rx pa ry
  | fromaff pd rx ry => exact h.execFromaff pd rx ry
  | fromx pd rx odd => exact h.execFromx pd rx odd
  | mul pd pb rk safe => exact h.execMul hs hu pd pb rk safe
  | mulg pd rk => exact h.execMulg hs hu pd rk
  | muladd pd ru1 ru2 pq => exact h.execMuladd pd ru1 ru2 pq
  | naf rpos rk rneg => exact h.execNaf rpos rk rneg
  | precomp => exact h.withTable.succeed
  | drbgrst => exact (h.drbg .reset).succeed
  | drbgseed => exact h.execDrbgseed
  | drbggen rd => exact h.execDrbggen rd
  | sign rr rkey rs rrec low => exact h.execSign hs hu rr rkey rs rrec low
  | verify rr rs pq low => exact h.execVerify rr rs pq low
  | recover pd rr rs rrec => exact h.execRecover pd rr rs rrec

end SameButTable

/-- Settles O17: the command's two answers differ in the table alone. -/
theorem tableChangesNoResult : Obligations.TableChangesNoResult := by
  intro i s t tbl valid hs hv h
  obtain ⟨t', u', ht, hu, tbl', valid', rfl⟩ :=
    SameButTable.exec (s := s) ⟨tbl, valid, rfl⟩ hs hv i
  rw [h] at ht
  cases ht
  exact ⟨tbl', valid', hu⟩

end Sys2Proof.Machine
end

section
/-! STATUS and CMD as the host sees them (10_state.md R53, R54, R55). -/

namespace Sys2Proof.Machine

/-- The codes of the fatal class are those with the top bit set (60_exceptions.md R451). -/
theorem code_bit7_iff (c : Cause) : c.code.getLsbD 7 = true ↔ c.isFatal = true := by
  cases c <;> decide

/-- Settles O53: the word bit by bit, the read, and the write by whether it clears ERR. -/
theorem statusRegister : Obligations.StatusRegister := by
  refine ⟨fun s => ?_, fun s rest h hq => step_read h (by decide) hq, fun s v rest h hq => ?_⟩
  · exact ⟨statusWord_bit s 0, statusWord_bit s 1, statusWord_bit s 2, statusWord_bit s 3,
      statusWord_bit s 4, statusWord_bit s 5, statusWord_bit s 6, statusWord_bit s 7,
      statusWord_cause s, statusWord_reserved s, code_bit7_iff s.cause⟩
  · refine ⟨_, step_write_ok h (by decide) (by decide) hq, rfl, fun hc hf => ?_, fun hk => ?_, rfl,
      rfl⟩
    · have e := writeStatus_clears (s := waiting s rest) hc hf
      exact ⟨(congrArg State.err e :), (congrArg State.cause e :)⟩
    · have e := writeStatus_keeps (s := waiting s rest) hk
      exact ⟨(congrArg State.err e :), (congrArg State.cause e :)⟩

theorem writeCmd_busy {s : State} (h : s.busy = true) (c : Word) :
    writeCmd c s = { s with ovr := true } := if_pos h

theorem writeCmd_fatal {s : State} (h : s.busy = false) (hf : s.fatal = true) (c : Word) :
    writeCmd c s = s := by simp [writeCmd, h, hf]

theorem writeCmd_accepts {s : State} (h : s.busy = false) (hf : s.fatal = false) (c : Word) :
    writeCmd c s = accept c s := by simp [writeCmd, h, hf]

/-- With BUSY = 0 no delay is left to pass. -/
theorem waiting_idle {s : State} (h : s.busy = false) (rest : List HostEvent) :
    waiting s rest = { s with hostQueue := rest } := by
  have hn : s.inFlight = none := by simpa [State.busy] using h
  simp [waiting, hn, tick]

/-- Settles O54, by BUSY and FATAL. -/
theorem cmdWrite : Obligations.CmdWrite := by
  refine ⟨fun s => rfl, fun s c rest h hq => ?_⟩
  have hstep : step s =
      .next { writeCmd c (waiting s rest) with lastResponse := some .written } :=
    step_write_ok h (by decide) (by decide) hq
  have hbusy := busy_waiting s rest
  rw [hstep]
  refine ⟨fun hb hf => ?_, fun hb => ?_, fun hb hf => ?_⟩
  · rw [writeCmd_accepts (hbusy.trans hb) hf]
    exact ⟨_, _, rfl, rfl, rfl⟩
  · rw [writeCmd_busy (hbusy.trans hb)]
    rfl
  · rw [writeCmd_fatal (hbusy.trans hb) hf, waiting_idle hb]

end Sys2Proof.Machine
end

section
/-! FATAL and OVR over a step (10_state.md R66, 60_exceptions.md R459, R472, 70_reset_and_hazards.md
R510): what a write, a served event and a step can do to them. -/

namespace Sys2Proof.Machine

/-- CTRL and STATUS stand at one offset each (20_memory.md R101). -/
theorem offset_of_control (off : Nat) :
    (mmioReg off = .ctrl → off = 0x004) ∧ (mmioReg off = .status → off = 0x008) := by
  unfold mmioReg
  simp only
  repeat' split
  all_goals simp

/-- What stays in the fatal state (60_exceptions.md R459): FATAL with its record, and no command in
flight. -/
def FatalKept (s t : State) : Prop :=
  t.fatal = true ∧ t.err = s.err ∧ t.cause = s.cause ∧ t.cmdlog = s.cmdlog ∧ t.inFlight = none

/-- The write is the soft reset. -/
def SoftReset (v : Word) (reg : MmioReg) (s t : State) : Prop :=
  reg = .ctrl ∧ v.getLsbD 1 = true ∧ t = resetBlock s

/-- A write leaves the fatal state by a reset only. -/
theorem WriteEnds.fatal {v : Word} {s t : State} {reg : MmioReg} (hw : WriteEnds v s reg t)
    (hf : s.fatal = true) (hn : s.inFlight = none) : FatalKept s t ∨ SoftReset v reg s t := by
  cases hw with
  | ignored | irqen | dlen | dg | r | busy => exact .inl ⟨hf, rfl, rfl, rfl, hn⟩
  | reset h => exact .inr ⟨rfl, h, rfl⟩
  | status =>
    rw [writeStatus_keeps (.inr hf)]
    exact .inl ⟨hf, rfl, rfl, rfl, hn⟩
  | accepted _ h => rw [hf] at h; cases h

/-- A write changes OVR by a reset, by a STATUS write with bit 6, or by being ignored while BUSY. -/
theorem WriteEnds.ovr {v : Word} {s t : State} {reg : MmioReg} (hw : WriteEnds v s reg t) :
    t.ovr = s.ovr ∨ SoftReset v reg s t ∨ (reg = .status ∧ v.getLsbD 6 = true ∧ t.ovr = false) ∨
      (reg.guarded = true ∧ s.busy = true ∧ t.ovr = true) := by
  cases hw with
  | ignored | irqen | dlen | dg | r | accepted => exact .inl rfl
  | busy _ h hb => exact .inr (.inr (.inr ⟨h, hb, rfl⟩))
  | reset h => exact .inr (.inl ⟨rfl, h, rfl⟩)
  | status =>
    cases h : v.getLsbD 6
    · exact .inl (by simp only [writeStatus, h, Bool.not_false, Bool.and_true])
    · have ho : (writeStatus v s).ovr = false := by
        simp only [writeStatus, h, Bool.not_true, Bool.and_false]
      exact .inr (.inr (.inl ⟨rfl, rfl, ho⟩))

/-- The event is a reset and the block is left in the reset state (70_reset_and_hazards.md R501,
R502). -/
def ResetBy (e : HostEvent) (s t : State) : Prop :=
  t = resetBlock s ∧ (e = .hardReset ∨
    ∃ v : Word, v.getLsbD 1 = true ∧ e = .write (Config.zsecpBase + 0x004) 4 v)

theorem SoftReset.resetBy {v : Word} {off : Nat} {s t : State}
    (h : SoftReset v (mmioReg off) s t) : ResetBy (.write (Config.zsecpBase + off) 4 v) s t := by
  obtain ⟨hreg, hv, ht⟩ := h
  exact ⟨ht, .inr ⟨v, hv, by rw [(offset_of_control off).1 hreg]⟩⟩

theorem Served.fatal {s t : State} {e : HostEvent} (hs : Served s e t) (hf : s.fatal = true)
    (hn : s.inFlight = none) : FatalKept s t ∨ ResetBy e s t := by
  cases hs with
  | read | malformed | idle => exact .inl ⟨hf, rfl, rfl, rfl, hn⟩
  | write off v _ _ _ hw => exact (hw.fatal hf hn).imp_right SoftReset.resetBy
  | hardReset => exact .inr ⟨rfl, .inl rfl⟩

/-- A STATUS write that clears OVR. -/
def ClearsOvr (e : HostEvent) : Prop :=
  ∃ v : Word, e = .write (Config.zsecpBase + 0x008) 4 v ∧ v.getLsbD 6 = true

/-- A 32-bit write the busy window ignores (70_reset_and_hazards.md R510). -/
def GuardedWrite (e : HostEvent) : Prop :=
  ∃ off v, e = .write (Config.zsecpBase + off) 4 v ∧ off % 4 = 0 ∧
    (off = 0x00C ∨ off = 0x010 ∨ (0x100 ≤ off ∧ off < 0x140) ∨ (0x400 ≤ off ∧ off < 0x800))

theorem Served.ovr {s t : State} {e : HostEvent} (hs : Served s e t) :
    t.ovr = s.ovr ∨ ResetBy e s t ∨ (ClearsOvr e ∧ t.ovr = false) ∨
      (GuardedWrite e ∧ s.busy = true ∧ t.ovr = true) := by
  cases hs with
  | read | malformed | idle => exact .inl rfl
  | hardReset => exact .inr (.inl ⟨rfl, .inl rfl⟩)
  | write off v _ _ h4 hw =>
    rcases hw.ovr with h | h | ⟨hreg, hv, ho⟩ | ⟨hg, hb, ho⟩
    · exact .inl h
    · exact .inr (.inl h.resetBy)
    · exact .inr (.inr (.inl ⟨⟨v, by rw [(offset_of_control off).2 hreg], hv⟩, ho⟩))
    · exact .inr (.inr (.inr ⟨⟨off, v, rfl, h4, guarded_offsets hg⟩, hb, ho⟩))

/-- No completion changes OVR (60_exceptions.md R454, R455, R458). -/
theorem Ends.ovr {i : Instr} {s t : State} (he : Ends i s t) : t.ovr = s.ovr := by
  cases he with
  | error | invariant => rfl
  | exhausted s' _ _ hq => exact hq.ovr
  | done b s' w => exact w.quiet.ovr

/-- A fatal state with the invariant has no command in flight (10_state.md R55). -/
theorem State.Inv.idle_of_fatal {s : State} (hi : s.Inv) (hf : s.fatal = true) :
    s.inFlight = none := by
  cases h : s.inFlight with
  | none => rfl
  | some d => rw [hi.not_fatal h] at hf; cases hf

/-- The step serves an event that resets the block, and but for the response leaves the reset
state. -/
def ResetStep (s t : State) : Prop :=
  ∃ rest, t = { State.reset with hostQueue := rest, lastResponse := t.lastResponse } ∧
    (s.hostQueue = .hardReset :: rest ∨ ∃ v : Word, v.getLsbD 1 = true ∧
      s.hostQueue = .write (Config.zsecpBase + 0x004) 4 v :: rest)

theorem ResetBy.resetStep {e : HostEvent} {rest : List HostEvent} {s t t' : State}
    (h : ResetBy e (waiting s rest) t') (hq : s.hostQueue = e :: rest)
    (ht : t = { t' with lastResponse := t.lastResponse }) : ResetStep s t := by
  obtain ⟨rfl, he⟩ := h
  refine ⟨rest, ht, ?_⟩
  rcases he with rfl | ⟨v, hv, rfl⟩
  · exact .inl hq
  · exact .inr ⟨v, hv, hq⟩

/-- FATAL is left by a reset only (10_state.md R66). -/
theorem StepEnds.fatal {s t : State} (he : StepEnds s t) (hi : s.Inv) (hf : s.fatal = true) :
    FatalKept s t ∨ ResetStep s t := by
  have hn := hi.idle_of_fatal hf
  have hw (rest : List HostEvent) : (waiting s rest).inFlight = none := by simp [waiting, hn, tick]
  cases he with
  | command _ _ h => rw [hn] at h; cases h
  | illegal h => rw [hn] at h; cases h
  | quiet => exact .inl ⟨hf, rfl, rfl, rfl, hw []⟩
  | served e rest t' _ _ hq hs ht =>
    rcases hs.fatal hf (hw rest) with h | h
    · rw [ht]
      exact .inl h
    · exact .inr (h.resetStep hq ht)

/-- OVR is changed by a reset, a STATUS write or a write the busy window ignores (10_state.md R54,
70_reset_and_hazards.md R510). -/
theorem StepEnds.ovr {s t : State} (he : StepEnds s t) : t.ovr = s.ovr ∨ ResetStep s t ∨
    ∃ e rest, s.hostQueue = e :: rest ∧ ((ClearsOvr e ∧ t.ovr = false) ∨
      (GuardedWrite e ∧ s.busy = true ∧ t.ovr = true)) := by
  cases he with
  | command _ _ _ _ he => exact .inl he.ovr
  | illegal | quiet => exact .inl rfl
  | served e rest t' _ _ hq hs ht =>
    have ho : t.ovr = t'.ovr := by rw [ht]
    rw [ho, ← busy_waiting s rest]
    rcases hs.ovr with h | h | h
    · exact .inl h
    · exact .inr (.inl (h.resetStep hq ht))
    · exact .inr (.inr ⟨e, rest, hq, h⟩)

/-- A reset leaves OVR clear (10_state.md R65). -/
theorem ResetStep.ovr {s t : State} (h : ResetStep s t) : t.ovr = false := by
  obtain ⟨rest, ht, -⟩ := h
  rw [ht]
  rfl

/-- Settles O58, from what a step can do to FATAL and to OVR. -/
theorem fatalAndOvrAreSticky : Obligations.FatalAndOvrAreSticky := by
  intro s t hi h
  have he := step_ends h
  refine ⟨he.fatal hi, fun hovr => ?_, fun hovr hovr' => ?_⟩
  · rcases he.ovr with h | h | ⟨e, rest, hq, ⟨⟨v, rfl, hv⟩, -⟩ | ⟨-, -, h⟩⟩
    · exact .inl (h.trans hovr)
    · exact .inr (.inl h)
    · exact .inr (.inr ⟨v, rest, hq, hv⟩)
    · exact .inl h
  · rcases he.ovr with h | h | ⟨e, rest, hq, ⟨-, h⟩ | ⟨⟨off, v, rfl, h4, ho⟩, hb, -⟩⟩
    · rw [hovr', hovr] at h; cases h
    · rw [h.ovr] at hovr'; cases hovr'
    · rw [hovr'] at h; cases h
    · exact ⟨hb, off, v, rest, hq, h4, ho⟩

end Sys2Proof.Machine
end

section
/-! A command in flight (10_state.md R60, R61, 70_reset_and_hazards.md R510, R520): while it waits,
no harmless event changes what it will run on, and when its delay has run out it completes. -/

namespace Sys2Proof.Machine

/-- What a command in flight will run on, and its word, are as they were (10_state.md R61). -/
structure SameOperands (s t : State) : Prop where
  cmdlog : t.cmdlog = s.cmdlog
  r : t.r = s.r
  p : t.p = s.p
  dg : t.dg = s.dg
  dlen : t.dlen = s.dlen
  drbg : t.drbg = s.drbg
  table : TableKept s t
  fatal : t.fatal = s.fatal

theorem SameOperands.refl (s : State) : SameOperands s s :=
  ⟨rfl, rfl, rfl, rfl, rfl, rfl, TableKept.refl s, rfl⟩

theorem SameOperands.trans {s t u : State} (a : SameOperands s t) (b : SameOperands t u) :
    SameOperands s u :=
  ⟨b.cmdlog.trans a.cmdlog, b.r.trans a.r, b.p.trans a.p, b.dg.trans a.dg, b.dlen.trans a.dlen,
    b.drbg.trans a.drbg, ⟨b.table.1.trans a.table.1, b.table.2.trans a.table.2⟩,
    b.fatal.trans a.fatal⟩

/-- While BUSY a write that is no reset leaves the command in flight as it was
(70_reset_and_hazards.md R510). -/
theorem WriteEnds.sameOperands {v : Word} {s t : State} {reg : MmioReg}
    (hw : WriteEnds v s reg t) (hb : s.busy = true) (hr : ¬(reg = .ctrl ∧ v.getLsbD 1 = true)) :
    SameOperands s t ∧ t.inFlight = s.inFlight := by
  cases hw with
  | ignored => exact ⟨SameOperands.refl s, rfl⟩
  | busy | irqen | status => exact ⟨⟨rfl, rfl, rfl, rfl, rfl, rfl, ⟨rfl, rfl⟩, rfl⟩, rfl⟩
  | reset h => exact absurd ⟨rfl, h⟩ hr
  | accepted h | dlen h | dg _ h | r _ _ h => exact absurd (hb.symm.trans h) nofun

theorem Served.sameOperands {s t : State} {e : HostEvent} (hs : Served s e t) (hb : s.busy = true)
    (he : harmless e = true) : SameOperands s t ∧ t.inFlight = s.inFlight := by
  cases hs with
  | read | malformed | idle => exact ⟨SameOperands.refl s, rfl⟩
  | hardReset => cases he
  | write off v _ _ h4 hw =>
    refine hw.sameOperands hb fun ⟨hreg, hv⟩ => ?_
    rw [(offset_of_control off).1 hreg] at he
    simp only [harmless, accessOk, hv] at he
    simp at he

/-- A harmless event is inside the window, so it is answered. -/
theorem serveEvent_harmless {e : HostEvent} (he : harmless e = true) (s : State) :
    ∃ t, serveEvent Config.zsecpBase e s = .next t := by
  cases e with
  | read addr bytes =>
    simp only [harmless, Bool.and_eq_true, decide_eq_true_eq] at he
    exact ⟨_, by simp only [serveEvent, windowOffset, he, and_self, if_true]; rfl⟩
  | write addr bytes v =>
    simp only [harmless, Bool.and_eq_true, decide_eq_true_eq] at he
    exact ⟨_, by simp only [serveEvent, windowOffset, he.1, and_self, if_true]; rfl⟩
  | hardReset => cases he
  | idle => exact ⟨s, rfl⟩

/-- A step whose next event is harmless answers a next state. -/
theorem step_answers {s : State} (hf : s.inFlight ≠ some 0)
    (hq : ∀ e ∈ s.hostQueue, harmless e = true) : ∃ u, step s = .next u := by
  cases hs : s.hostQueue with
  | nil =>
    rw [step_waits hf]
    unfold serveHost
    rw [hs]
    exact ⟨_, rfl⟩
  | cons e rest =>
    rw [step_event hf hs]
    exact serveEvent_harmless (hq e (by simp [hs])) _

theorem WriteEnds.hostQueue {v : Word} {s t : State} {reg : MmioReg} (hw : WriteEnds v s reg t) :
    t.hostQueue = s.hostQueue := by
  cases hw <;> rfl

/-- Serving an event adds none to the queue. -/
theorem Served.hostQueue {s t : State} {e : HostEvent} (hs : Served s e t) :
    t.hostQueue = s.hostQueue := by
  cases hs with
  | read | malformed | idle | hardReset => rfl
  | write _ _ _ _ _ hw => exact hw.hostQueue

/-- One unit of the delay passes, whatever harmless event is served in it. -/
theorem step_passes {s : State} {d : Nat} (hd : s.inFlight = some (d + 1))
    (hq : ∀ e ∈ s.hostQueue, harmless e = true) :
    ∃ u, step s = .next u ∧ u.inFlight = some d ∧ SameOperands s u ∧
      ∀ e ∈ u.hostQueue, harmless e = true := by
  have hf : s.inFlight ≠ some 0 := by rw [hd]; nofun
  have htick : tick s.inFlight = some d := by rw [hd]; rfl
  have hwait (rest : List HostEvent) : SameOperands s (waiting s rest) :=
    ⟨rfl, rfl, rfl, rfl, rfl, rfl, ⟨rfl, rfl⟩, rfl⟩
  obtain ⟨u, hu⟩ := step_answers hf hq
  refine ⟨u, hu, ?_⟩
  cases step_ends hu with
  | command _ _ h => exact absurd h hf
  | illegal h => exact absurd h hf
  | quiet => exact ⟨htick, hwait [], nofun⟩
  | served e rest t' _ _ hs hserved ht =>
    have hmem (e' : HostEvent) (h : e' ∈ e :: rest) : harmless e' = true := hq e' (hs ▸ h)
    have hbusy : (waiting s rest).busy = true := by rw [busy_waiting, State.busy, hd]; rfl
    obtain ⟨hsame, hfl⟩ := hserved.sameOperands hbusy (hmem e List.mem_cons_self)
    rw [ht]
    have hqueue : t'.hostQueue = rest := hserved.hostQueue
    refine ⟨hfl.trans htick, (hwait rest).trans { hsame with }, fun e' h => ?_⟩
    exact hmem e' (List.mem_cons_of_mem e (hqueue.subst (motive := (e' ∈ ·)) h))

/-- However a command ends, it sets DONE and clears BUSY (60_exceptions.md R454, R455, R458). -/
theorem Ends.completes {i : Instr} {s t : State} (he : Ends i s t) :
    t.done = true ∧ t.busy = false := by
  cases he <;> exact ⟨rfl, rfl⟩

/-- The step at the end of the delay completes the command (10_state.md R60). -/
theorem step_completes_done {s : State} (h : s.inFlight = some 0) :
    ∃ t, step s = .next t ∧ t.done = true ∧ t.busy = false := by
  rw [step_completes h]
  unfold completeInFlight
  cases decode (fetchWord s) with
  | ok i =>
    obtain ⟨t, ht, he⟩ := exec_ends i s
    exact ⟨t, ht, he.completes⟩
  | error e => exact ⟨_, rfl, rfl, rfl⟩

/-- A run goes on from the state its first step leaves. -/
theorem run_succ {M : Host.Core} {s u : M.State} (h : M.step s = .next u) (k : Nat) :
    M.run (k + 1) s = M.run k u := by
  rw [Host.Core.run, h]

/-- `run_succ` for the block's own step. -/
theorem core_run_succ {s u : State} (h : step s = .next u) (k : Nat) :
    core.run (k + 1) s = core.run k u := run_succ (M := core) h k

/-- Settles O60, by induction on the delay: each step passes one unit of it. -/
theorem commandCompletesOnItsOperands : Obligations.CommandCompletesOnItsOperands := by
  intro d
  suffices h : ∀ s : State, s.inFlight = some d → (∀ e ∈ s.hostQueue, harmless e = true) →
      ∃ u t : State, core.run d s = .next u ∧ u.inFlight = some 0 ∧ SameOperands s u ∧
        core.run (d + 1) s = .next t ∧ t.done = true ∧ t.busy = false by
    intro s hd hq
    obtain ⟨u, t, hu, hf, hs, ht⟩ := h s hd hq
    exact ⟨u, hu, hf, hs.cmdlog, hs.r, hs.p, hs.dg, hs.dlen, hs.drbg, hs.table, hs.fatal, t, ht⟩
  induction d with
  | zero =>
    intro s hd _
    obtain ⟨t, ht, hdone⟩ := step_completes_done hd
    exact ⟨s, t, rfl, hd, SameOperands.refl s, core_run_succ ht 0, hdone⟩
  | succ d ih =>
    intro s hd hq
    obtain ⟨s', hstep, hd', hsame, hq'⟩ := step_passes hd hq
    obtain ⟨u, t, hu, hf, hs, ht⟩ := ih s' hd' hq'
    rw [core_run_succ hstep, core_run_succ hstep]
    exact ⟨u, t, hu, hf, hsame.trans hs, ht⟩

end Sys2Proof.Machine
end

section
/-! When a step stops the machine (20_memory.md R100, assumption log 3): no completion does, and of
the host's events only an access outside the window. -/

namespace Sys2Proof.Machine

/-- An address has an offset in the window at `base`, or lies outside it. -/
theorem windowOffset_cases (base addr : Nat) : (∃ off, windowOffset base addr = some off) ∨
    (windowOffset base addr = none ∧ ¬(base ≤ addr ∧ addr < base + 0x1000)) := by
  unfold windowOffset
  split
  · exact .inl ⟨_, rfl⟩
  · next h => exact .inr ⟨rfl, h⟩

/-- The event is an access outside the block's window. -/
def OutsideAccess (e : HostEvent) : Prop :=
  ∃ addr bytes, (e = .read addr bytes ∨ ∃ v, e = .write addr bytes v) ∧
    ¬(Config.zsecpBase ≤ addr ∧ addr < Config.zsecpBase + 0x1000)

/-- An event is answered, or it is an access outside the window, which faults. -/
theorem serveEvent_answers_or_stops (e : HostEvent) (s : State) :
    (∃ t, serveEvent Config.zsecpBase e s = .next t) ∨
      (serveEvent Config.zsecpBase e s = .fault .outsideWindow ∧ OutsideAccess e) := by
  cases e with
  | read addr bytes =>
    rcases windowOffset_cases Config.zsecpBase addr with ⟨off, hoff⟩ | ⟨hnone, hout⟩
    · exact .inl ⟨busRead off bytes s, by simp only [serveEvent, hoff]⟩
    · exact .inr ⟨by simp only [serveEvent, hnone], addr, bytes, .inl rfl, hout⟩
  | write addr bytes v =>
    rcases windowOffset_cases Config.zsecpBase addr with ⟨off, hoff⟩ | ⟨hnone, hout⟩
    · exact .inl ⟨busWrite off bytes v s, by simp only [serveEvent, hoff]⟩
    · exact .inr ⟨by simp only [serveEvent, hnone], addr, bytes, .inr ⟨v, rfl⟩, hout⟩
  | hardReset | idle => exact .inl ⟨_, rfl⟩

/-- Settles O4: a completion always answers, and so does a step with nothing to serve; an event that
is not answered is an access outside the window. -/
theorem onlyAnOutsideAccessStops : Obligations.OnlyAnOutsideAccessStops := by
  intro s
  by_cases hf : s.inFlight = some 0
  · obtain ⟨t, ht, -⟩ := step_completes_done hf
    exact .inl ⟨t, ht⟩
  · cases hq : s.hostQueue with
    | nil => exact .inl (step_answers hf (by simp [hq]))
    | cons e rest =>
      rw [step_event hf hq]
      refine (serveEvent_answers_or_stops e _).imp_right fun ⟨hstop, addr, bytes, he, hout⟩ => ?_
      refine ⟨hstop, hf, addr, bytes, rest, ?_, hout⟩
      rcases he with rfl | ⟨v, rfl⟩
      · exact .inl rfl
      · exact .inr ⟨v, rfl⟩

end Sys2Proof.Machine
end

section
/-! Reads and malformed accesses (20_memory.md R101–R107): a read changes nothing but the bus
answer, and what it answers at each offset. -/

namespace Sys2Proof.Machine

/-! ### Steps that serve them -/

/-- A well-formed read. -/
theorem step_read_ok {s : State} {off : Nat} {rest : List HostEvent} (h : s.inFlight ≠ some 0)
    (ho : off < 0x1000) (h4 : off % 4 = 0)
    (hq : s.hostQueue = .read (Config.zsecpBase + off) 4 :: rest) :
    step s = .next { waiting s rest with
      lastResponse := some (.data (readReg (waiting s rest) (mmioReg off))) } := by
  rw [step_read h ho hq]
  unfold busRead
  rw [if_pos ((accessOk_iff _ _).mpr ⟨rfl, h4⟩)]

/-- An access of another width or off a multiple of 4 is refused (20_memory.md R103). -/
theorem accessOk_malformed {off bytes : Nat} (hbad : bytes ≠ 4 ∨ off % 4 ≠ 0) :
    ¬accessOk off bytes = true := by
  rw [accessOk_iff]
  omega

theorem step_malformed {s : State} {off bytes : Nat} {v : Word} {rest : List HostEvent}
    (h : s.inFlight ≠ some 0) (ho : off < 0x1000) (hbad : bytes ≠ 4 ∨ off % 4 ≠ 0)
    (hq : s.hostQueue = .read (Config.zsecpBase + off) bytes :: rest ∨
      s.hostQueue = .write (Config.zsecpBase + off) bytes v :: rest) :
    step s = .next { waiting s rest with lastResponse := some .busError } := by
  rcases hq with hq | hq
  · rw [step_read h ho hq, busRead, if_neg (accessOk_malformed hbad)]
  · rw [step_write h ho hq, busWrite, if_neg (accessOk_malformed hbad)]

/-- No register shows the host's queue. -/
theorem readReg_waiting (s : State) (rest : List HostEvent) (reg : MmioReg) :
    readReg (waiting s rest) reg = readReg { s with inFlight := tick s.inFlight } reg := by
  cases reg <;> rfl

/-- A reserved offset reads 0 (20_memory.md R102). -/
theorem readReg_reserved {off : Nat} (h : (0x01C ≤ off ∧ off < 0x100) ∨
      (0x140 ≤ off ∧ off < 0x400) ∨ (0x800 ≤ off ∧ 0x60 ≤ (off - 0x800) % 128)) (s : State) :
    readReg s (mmioReg off) = 0 := by
  rcases h with ⟨h1, h2⟩ | ⟨h1, h2⟩ | ⟨h1, h2⟩
  · rw [mmioReg_low_reserved h1 h2]; rfl
  · rw [mmioReg_mid_reserved h1 h2]; rfl
  · rw [mmioReg_point_reserved h1 h2]; rfl

/-- Settles O51, by whether the access is well formed. -/
theorem readsAndMalformedAccesses : Obligations.ReadsAndMalformedAccesses := by
  intro s off bytes v rest ho hf
  refine ⟨fun h4 hq => ⟨?_, fun hres => readReg_reserved hres _⟩,
    fun hbad hq => step_malformed hf ho hbad hq⟩
  rw [← readReg_waiting s rest]
  exact step_read_ok hf ho h4 hq

/-! ### The word at each offset -/

theorem toNat_readReg_ctrl (s : State) :
    (readReg s .ctrl).toNat = if s.irqen then 1 else 0 := by
  simp only [readReg, BitVec.toNat_append]
  cases s.irqen <;> rfl

theorem toNat_readReg_dlen (s : State) : (readReg s .dlen).toNat = s.dlen.toNat := by
  rw [readReg, BitVec.toNat_append]
  simp

/-- Every CTR of the DRBG fits the register's field (10_state.md R57). -/
theorem toNat_readReg_drbgctr {s : State} (h : s.drbg.ctr ≤ 1001) :
    (readReg s .drbgctr).toNat = s.drbg.ctr := by
  have hlt : s.drbg.ctr < 2048 := by omega
  rw [readReg, BitVec.toNat_append]
  simp [hlt]

/-- A word of a wide register, little-endian, or 0 while BUSY (20_memory.md R104,
70_reset_and_hazards.md R510). -/
theorem getLsbD_readReg_wordOf {w : Nat} {s : State} {reg : MmioReg} {f : BitVec w} {j k : Nat}
    (h : readReg s reg = dataRead s (wordOf f j)) (hk : k < 32) :
    (readReg s reg).getLsbD k = (!s.busy && f.getLsbD (32 * j + k)) := by
  rw [h, getLsbD_dataRead, getLsbD_wordOf f j hk]

theorem getLsbD_readReg_dg (s : State) (j : Fin 16) {k : Nat} (hk : k < 32) :
    (readReg s (.dg j)).getLsbD k =
      (!s.busy && (s.dg[4 * j.val + k / 8]?.getD 0).getLsbD (k % 8)) := by
  unfold readReg
  rw [getLsbD_dataRead, getLsbD_readDgWord s j hk]

/-- Settles O52: the step answers the word of the state it serves the read in, whose data registers
and BUSY are those before it, and the address map says which register that word is. -/
theorem readValues : Obligations.ReadValues := by
  intro s off rest hf ho h4 hq
  refine ⟨readReg (waiting s rest) (mmioReg off), step_read_ok hf ho h4 hq, ?_⟩
  have hbusy := busy_waiting s rest
  refine ⟨?id, ?ctrl, ?status, ?cmd, ?dlen, ?drbgctr, ?cmdlog, ?reserved, ?dg, ?r,
    fun i j => ⟨?px, ?py, ?pz, ?gap⟩⟩
  case id => rintro rfl; rfl
  case ctrl => rintro rfl; exact toNat_readReg_ctrl _
  case status =>
    rintro rfl
    obtain ⟨h0, h1, h2, h3, h4, h5, h6, h7, hcause, hrsv, -⟩ :=
      statusRegister.1 (waiting s rest)
    exact ⟨h0.trans hbusy, h1, h2, h3, h4, h5, h6, h7, hcause, hrsv⟩
  case cmd => rintro rfl; rfl
  case dlen => rintro rfl; exact toNat_readReg_dlen _
  case drbgctr => rintro rfl; exact toNat_readReg_drbgctr (s := waiting s rest)
  case cmdlog => rintro rfl; rfl
  case reserved => exact fun h => readReg_reserved (h.imp_right .inl) _
  case dg =>
    rintro j rfl k hk
    rw [mmioReg_dg, ← hbusy]
    exact getLsbD_readReg_dg _ j hk
  case r =>
    rintro i j rfl k hk
    rw [mmioReg_r, ← hbusy]
    exact getLsbD_readReg_wordOf rfl hk
  case px =>
    rintro rfl k hk
    rw [mmioReg_px, ← hbusy]
    exact getLsbD_readReg_wordOf rfl hk
  case py =>
    rintro rfl k hk
    rw [mmioReg_py, ← hbusy]
    exact getLsbD_readReg_wordOf rfl hk
  case pz =>
    rintro rfl k hk
    rw [mmioReg_pz, ← hbusy]
    exact getLsbD_readReg_wordOf rfl hk
  case gap => exact fun h => readReg_reserved (.inr (.inr (by omega))) _

end Sys2Proof.Machine
end

section
/-! Writes to data registers and to what no write changes (20_memory.md R102, R105–R107,
10_state.md R50, 70_reset_and_hazards.md R510). -/

namespace Sys2Proof.Machine

/-- The offsets of DLEN, DG and R[i] name registers of the busy window. -/
theorem guarded_of_offset {off : Nat} (h4 : off % 4 = 0)
    (h : off = 0x010 ∨ (0x100 ≤ off ∧ off < 0x140) ∨ (0x400 ≤ off ∧ off < 0x800)) :
    (mmioReg off).guarded = true := by
  rcases h with rfl | ⟨h1, h2⟩ | ⟨h1, h2⟩
  · rfl
  · obtain ⟨j, rfl⟩ := (mmioReg_data h4).1 h1 h2
    rw [mmioReg_dg]; rfl
  · obtain ⟨i, j, rfl⟩ := (mmioReg_data h4).2 h1 h2
    rw [mmioReg_r]; rfl

/-- A guarded write while BUSY only sets OVR (70_reset_and_hazards.md R510). -/
theorem writeReg_busy {s : State} {reg : MmioReg} (hb : s.busy = true) (hg : reg.guarded = true)
    (v : Word) : writeReg v reg s = { s with ovr := true } := by
  cases reg with
  | cmd => exact writeCmd_busy hb v
  | dlen | dg | r => exact guardBusy_of_busy hb _
  | id | ctrl | status | drbgctr | cmdlog | px | py | pz | reserved => cases hg

/-- Writes to ID, DRBGCTR, CMDLOG, the reserved offsets and the point registers are ignored
(20_memory.md R102, R107). -/
theorem writeReg_ignored {off : Nat} (h4 : off % 4 = 0)
    (h : off = 0x000 ∨ off = 0x014 ∨ (0x018 ≤ off ∧ off < 0x100) ∨ (0x140 ≤ off ∧ off < 0x400) ∨
      0x800 ≤ off) (v : Word) (s : State) : writeReg v (mmioReg off) s = s := by
  rcases h with rfl | rfl | ⟨h1, h2⟩ | ⟨h1, h2⟩ | h
  · rfl
  · rfl
  · rcases (by omega : off = 0x018 ∨ 0x01C ≤ off) with rfl | h1
    · rfl
    · rw [mmioReg_low_reserved h1 h2]; rfl
  · rw [mmioReg_mid_reserved h1 h2]; rfl
  · exact writeReg_points h v s

theorem writeDlen_in_range {v : Word} (h : (v.extractLsb' 0 7).toNat ≤ 64) (s : State) :
    writeDlen v s = { s with dlen := v.extractLsb' 0 7 } := if_pos h

theorem writeDlen_above {v : Word} (h : 64 < (v.extractLsb' 0 7).toNat) (s : State) :
    writeDlen v s = s := if_neg (Nat.not_le.mpr h)

/-- Settles O55, by BUSY and by the register the offset names. -/
theorem dataWrites : Obligations.DataWrites := by
  intro s off v rest hf ho h4 hq
  have hstep := step_write_ok hf ho h4 hq
  have hbusy := busy_waiting s rest
  refine ⟨fun hb hoff => ?busy, fun hoff => ?ignored, fun hb hoff => ?dlen, fun j hb hoff => ?dg,
    fun i j hb hoff => ?r⟩ <;> rw [hstep]
  case busy => rw [writeReg_busy (hbusy.trans hb) (guarded_of_offset h4 hoff)]; rfl
  case ignored => rw [writeReg_ignored h4 hoff]; rfl
  case dlen =>
    have hw : writeReg v (mmioReg off) (waiting s rest) = writeDlen v (waiting s rest) :=
      hoff ▸ guardBusy_of_idle (hbusy.trans hb) _
    rw [hw]
    refine ⟨fun hle => ?_, fun hgt => ?_⟩
    · rw [writeDlen_in_range hle]; rfl
    · rw [writeDlen_above hgt]; rfl
  case dg =>
    rw [hoff, mmioReg_dg, writeReg, guardBusy_of_idle (hbusy.trans hb)]
    exact ⟨_, rfl, getElem_setDgWord s.dg j v⟩
  case r =>
    rw [hoff, mmioReg_r, writeReg, guardBusy_of_idle (hbusy.trans hb)]
    exact ⟨_, rfl, fun k hk => getLsbD_setWordOf s.r[i] j v hk⟩

end Sys2Proof.Machine
end

section
/-! What the decoder accepts (30_encoding.md R143–R150): the tests of `decodeFields` as one
predicate on the fields, which says that the encoder would write the same fields back. -/

namespace Sys2Proof

/-- The fields pass every test of 30_encoding.md R150 for an opcode of roles u. -/
structure Fields.Legal (x : Fields) (u : Roles) : Prop where
  rsv : x.rsv = 0
  a : u.a = false → x.a = 0
  b : u.b = false → x.b = 0
  c : u.c = false → x.c = 0
  d : u.d = false → x.d = 0
  m : u.m = false → x.m = 0
  f : u.f = false → x.f = 0
  modulusSelect : u.m = true → x.m ≠ 3
  modulusRegister : u.m = true → x.m ≠ 2 → x.d = 0
  dest : u.pointDest = true → 2 ≤ x.a.toNat

theorem unusedZero_iff (x : Fields) (u : Roles) : x.unusedZero u = true ↔
    (u.a = false → x.a = 0) ∧ (u.b = false → x.b = 0) ∧ (u.c = false → x.c = 0) ∧
    (u.d = false → x.d = 0) ∧ (u.m = false → x.m = 0) ∧ (u.f = false → x.f = 0) := by
  have used_or_zero (used : Bool) {w : Nat} (y : BitVec w) :
      (used || y == 0) = true ↔ (used = false → y = 0) := by cases used <;> simp
  simp only [Fields.unusedZero, Bool.and_eq_true, used_or_zero, and_assoc]

theorem legal_iff_tests (x : Fields) (u : Roles) : x.Legal u ↔
    ¬x.rsv ≠ 0 ∧ ¬(!x.unusedZero u) = true ∧ ¬(u.m && x.m == 3) = true ∧
      ¬(u.m && x.m != 2 && x.d != 0) = true ∧ ¬(u.pointDest && x.a.toNat < 2) = true := by
  simp only [Bool.not_eq_true, Bool.not_eq_false', unusedZero_iff]
  constructor
  · intro h
    exact ⟨not_not.mpr h.rsv, ⟨h.a, h.b, h.c, h.d, h.m, h.f⟩, by simpa using h.modulusSelect,
      by simpa using h.modulusRegister, by simpa [Nat.succ_le_iff] using h.dest⟩
  · rintro ⟨hrsv, ⟨ha, hb, hc, hd, hm, hf⟩, hm3, hm2, hdest⟩
    exact ⟨not_not.mp hrsv, ha, hb, hc, hd, hm, hf, by simpa using hm3, by simpa using hm2,
      by simpa [Nat.succ_le_iff] using hdest⟩

/-- A test of the decoder lets pass what it does not reject. -/
theorem ite_error_eq_ok {ε α : Type} {c : Prop} [Decidable c] {e : ε} {r : Except ε α} {i : α} :
    (if c then .error e else r) = .ok i ↔ ¬c ∧ r = .ok i := by
  split <;> simp [*]

/-- The decoder gives a command exactly for the legal fields of an opcode in the map, and it is the
one `build` reads from them. -/
theorem decodeFields_eq_ok_iff {x : Fields} {i : Instr} : decodeFields x = .ok i ↔
    ∃ u, roles x.op = some u ∧ x.Legal u ∧ build x = .ok i := by
  rw [decodeFields, ite_error_eq_ok]
  cases roles x.op with
  | none => simp
  | some u =>
    simp only [ite_error_eq_ok, Option.some.injEq, exists_eq_left', legal_iff_tests, and_assoc]

/-- The fields the encoder writes for the operands `build` reads from x under the roles u
(30_encoding.md R152): the used ones read back, D and M of the MOD family by its modulus operand,
and 0 elsewhere. -/
def Fields.operands (x : Fields) (u : Roles) : Fields where
  op := x.op
  a := bif u.a then x.a else 0
  b := bif u.b then x.b else 0
  c := bif u.c then x.c else 0
  d := bif u.d then bif u.m then (modSelOf x).dField else x.d else 0
  m := bif u.m then (modSelOf x).mField else 0
  f := bif u.f then .ofBool (flagOf x) else 0
  rsv := 0

theorem ofBool_flagOf (x : Fields) : BitVec.ofBool (flagOf x) = x.f := by
  unfold flagOf
  generalize x.f = f
  revert f
  decide

/-- M and D name a modulus operand in one way: M is not 3, and D is 0 unless M = 2
(30_encoding.md R143, R146). -/
theorem modSelOf_fields_iff (x : Fields) :
    ((modSelOf x).mField = x.m ↔ x.m ≠ 3) ∧
      (x.m ≠ 3 → ((modSelOf x).dField = x.d ↔ (x.m ≠ 2 → x.d = 0))) := by
  obtain ⟨op, a, b, c, d, m, f, rsv⟩ := x
  have hcases : ∀ m : BitVec 2, (m = 0 ∨ m = 1) ∨ m = 2 ∨ m = 3 := by decide
  dsimp only
  rcases hcases m with hm | rfl | rfl
  · rcases hm with rfl | rfl <;>
      exact ⟨iff_of_true rfl (by decide),
        fun _ => ⟨fun h _ => h.symm, fun h => (h (by decide)).symm⟩⟩
  · exact ⟨iff_of_true rfl (by decide), fun _ => iff_of_true (ofFin_idx d) (absurd rfl)⟩
  · exact ⟨iff_of_false (by decide : (2 : BitVec 2) ≠ 3) (absurd rfl), absurd rfl⟩

/-- A field that is written only when it is used. -/
theorem cond_zero_eq_iff {w : Nat} (used : Bool) (y z : BitVec w) :
    (bif used then y else 0) = z ↔ (used = true → y = z) ∧ (used = false → z = 0) := by
  cases used
  · simpa using eq_comm
  · simp

/-- Fields are legal exactly when encoding their operands gives them back and their point
destination, if they have one, is not hardwired. -/
theorem legal_iff_operands_eq {x : Fields} {u : Roles} :
    x.Legal u ↔ x.operands u = x ∧ (u.pointDest = true → 2 ≤ x.a.toNat) := by
  obtain ⟨hm, hd⟩ := modSelOf_fields_iff x
  have hf := ofBool_flagOf x
  obtain ⟨op, a, b, c, d, m, f, rsv⟩ := x
  simp only [Fields.operands, Fields.mk.injEq, cond_zero_eq_iff] at hm hd hf ⊢
  constructor
  · intro h
    refine ⟨⟨trivial, ⟨fun _ => trivial, h.a⟩, ⟨fun _ => trivial, h.b⟩, ⟨fun _ => trivial, h.c⟩,
      ⟨fun _ => ?_, h.d⟩, ⟨fun hum => hm.mpr (h.modulusSelect hum), h.m⟩, ⟨fun _ => hf, h.f⟩,
      h.rsv.symm⟩, h.dest⟩
    cases hum : u.m
    · rfl
    · exact (hd (h.modulusSelect hum)).mpr (h.modulusRegister hum)
  · rintro ⟨⟨-, ⟨-, ha⟩, ⟨-, hb⟩, ⟨-, hc⟩, ⟨hdu, hd0⟩, ⟨hmu, hm0⟩, ⟨-, hf0⟩, hrsv⟩, hdest⟩
    refine ⟨hrsv.symm, ha, hb, hc, hd0, hm0, hf0, fun hum => hm.mp (hmu hum), fun hum => ?_, hdest⟩
    cases hud : u.d
    · exact fun _ => hd0 hud
    · rw [hum] at hdu
      exact (hd (hm.mp (hmu hum))).mp (hdu hud)

/-- The command `build` reads from x encodes to the operands of x, and A is its point destination
where the roles say so. -/
theorem encodeFields_build {x : Fields} {u : Roles} {i : Instr} (hr : roles x.op = some u)
    (hb : build x = .ok i) :
    encodeFields i = x.operands u ∧
      i.pointDest = bif u.pointDest then some (idx x.a) else none := by
  obtain ⟨op, a, b, c, d, m, f, rsv⟩ := x
  unfold build at hb
  dsimp only at hb
  split at hb <;> cases hb
  all_goals
    next hop =>
    obtain ⟨-, rfl⟩ := BitVec.toNat_eq_nat.mp hop
    cases hr
    exact ⟨rfl, rfl⟩

/-- `build` reads every command back from its own fields. -/
theorem build_encodeFields (i : Instr) : build (encodeFields i) = .ok i := by
  cases i with
  | mod _ _ m | modadd _ _ _ m | modsub _ _ _ m | modmul _ _ _ m | modinv _ _ m => cases m <;> rfl
  | fromx _ _ f | mul _ _ _ f | sign _ _ _ _ f | verify _ _ _ f => cases f <;> rfl
  | modsqrt | padd | pdbl | pneg | peq | pmov | toaff | fromaff | mulg | muladd | naf | precomp
  | drbgrst | drbgseed | drbggen | recover => rfl

theorem roles_encodeFields (i : Instr) : ∃ u, roles (encodeFields i).op = some u := by
  cases i <;> exact ⟨_, rfl⟩

/-- R147's constraint on a command is the decoder's test of A (30_encoding.md R147). -/
theorem wellFormed_iff_of_pointDest {x : Fields} {u : Roles} {i : Instr}
    (h : i.pointDest = bif u.pointDest then some (idx x.a) else none) :
    i.wellFormed = true ↔ (u.pointDest = true → 2 ≤ x.a.toNat) := by
  unfold Instr.wellFormed Instr.destOk
  rw [h]
  cases u.pointDest
  · simp
  · simp [idx]

/-- Settles O8: the fields of a well-formed command are the operands `build` reads back from them,
so they are legal. -/
theorem decodeEncode : Obligations.DecodeEncode := by
  intro i hwf
  obtain ⟨u, hu⟩ := roles_encodeFields i
  have hbuild := build_encodeFields i
  obtain ⟨hfields, hdest⟩ := encodeFields_build hu hbuild
  have hlegal : (encodeFields i).Legal u :=
    legal_iff_operands_eq.mpr ⟨hfields.symm, (wellFormed_iff_of_pointDest hdest).mp hwf⟩
  rw [encode, decode, ofWord_toWord]
  exact decodeFields_eq_ok_iff.mpr ⟨u, hu, hlegal, hbuild⟩

/-- Settles O9: a word that decodes has legal fields, which are those of the operands read from
it. -/
theorem encodeDecode : Obligations.EncodeDecode := by
  intro w i h
  obtain ⟨u, hu, hlegal, hbuild⟩ := decodeFields_eq_ok_iff.mp h
  obtain ⟨hfields, hdest⟩ := encodeFields_build hu hbuild
  obtain ⟨hself, hpoint⟩ := legal_iff_operands_eq.mp hlegal
  refine ⟨?_, (wellFormed_iff_of_pointDest hdest).mpr hpoint⟩
  rw [encode, hfields, hself, toWord_ofWord]

/-- Settles O7, by evaluating the decoder on the ten words. -/
theorem sampleWordsDecode : Obligations.SampleWordsDecode := by
  unfold Obligations.SampleWordsDecode
  decide

end Sys2Proof
end

section
/-! The words that are ILLEGAL (30_encoding.md R143, R145–R148): the columns of the table of roles,
and the test of the decoder that each kind of word fails. -/

namespace Sys2Proof

/-- What the roles of 30_encoding.md R142 say of each column: the opcodes that use M, those that use
F, those that leave A, B, C or D out, and those with a point destination. -/
structure Roles.Columns (op : Nat) (u : Roles) : Prop where
  inMap : (0x10 ≤ op ∧ op ≤ 0x15) ∨ (0x20 ≤ op ∧ op ≤ 0x27) ∨ (0x30 ≤ op ∧ op ≤ 0x34) ∨
    (0x40 ≤ op ∧ op ≤ 0x42) ∨ (0x50 ≤ op ∧ op ≤ 0x52)
  m : u.m = decide (0x10 ≤ op ∧ op ≤ 0x14)
  f : u.f = decide (op ∈ [0x27, 0x30, 0x50, 0x51])
  a : u.a = decide (op ∉ [0x23, 0x34, 0x40, 0x41, 0x51])
  b : u.b = decide (op ∉ [0x31, 0x34, 0x40, 0x41, 0x42])
  c : u.c = decide (op ∉ [0x10, 0x14, 0x15, 0x21, 0x22, 0x24, 0x27, 0x34, 0x40, 0x41, 0x42])
  d : u.d = decide ((0x10 ≤ op ∧ op ≤ 0x14) ∨ op ∈ [0x32, 0x50, 0x51, 0x52])
  pointDest : u.pointDest =
    decide (op ∈ [0x20, 0x21, 0x22, 0x24, 0x26, 0x27, 0x30, 0x31, 0x32, 0x52])

theorem roles_columns {op : BitVec 8} {u : Roles} (h : roles op = some u) :
    Roles.Columns op.toNat u := by
  unfold roles at h
  split at h <;> cases h
  all_goals
    next hop =>
    rw [hop]
    constructor <;> decide

/-- A word is ILLEGAL when no roles of its opcode make its fields legal. -/
theorem decode_error_of_not_legal {w : Word}
    (h : ∀ u, Roles.Columns (w.extractLsb' 0 8).toNat u → ¬(Fields.ofWord w).Legal u) :
    ∃ e, decode w = .error e := by
  cases hd : decode w with
  | error e => exact ⟨e, rfl⟩
  | ok i =>
    obtain ⟨u, hu, hlegal, -⟩ := decodeFields_eq_ok_iff.mp hd
    exact absurd hlegal (h u (roles_columns hu))

/-- Settles O10: each clause contradicts one test of the decoder, by the column of its field. -/
theorem illegalWords : Obligations.IllegalWords := by
  intro w op pointDest modFamily
  refine ⟨fun h => ?rsv, fun h => ?op, fun hop h => ?m, fun hop h => ?m3, fun hop hm h => ?d2,
    fun hop h => ?f, fun hop h => ?a, fun hop h => ?b, fun hop h => ?c, fun hmod hop h => ?d,
    fun hop h => ?dest⟩ <;> refine decode_error_of_not_legal fun u hu hl => ?_
  case rsv => exact h hl.rsv
  case op => exact h hu.inMap
  case m => exact h (hl.m (hu.m.trans (decide_eq_false hop)))
  case m3 => exact hl.modulusSelect (hu.m.trans (decide_eq_true hop)) h
  case d2 => exact h (hl.modulusRegister (hu.m.trans (decide_eq_true hop)) hm)
  case f => exact h (hl.f (hu.f.trans (decide_eq_false hop)))
  case a => exact h (hl.a (hu.a.trans (decide_eq_false (not_not.mpr hop))))
  case b => exact h (hl.b (hu.b.trans (decide_eq_false (not_not.mpr hop))))
  case c => exact h (hl.c (hu.c.trans (decide_eq_false (not_not.mpr hop))))
  case d => exact h (hl.d (hu.d.trans (decide_eq_false (not_or.mpr ⟨hmod, hop⟩))))
  case dest => exact Nat.not_le.mpr h (hl.dest (hu.pointDest.trans (decide_eq_true hop)))

end Sys2Proof
end

section
/-! The host's `ldr` (30_encoding.md R154): its sixteen writes, one after another, replace the
words of a register until it holds the value. -/

namespace Sys2Proof.Machine

/-- A field after the words j of V, for the j of a list, have been written into it. -/
def loadWords (V f : IntReg) (js : List (Fin 16)) : IntReg :=
  js.foldl (fun f j => setWordOf f j.val (wordOf V j.val)) f

/-- Bit k is V's once its word has been written. -/
theorem getLsbD_loadWords (V : IntReg) (js : List (Fin 16)) (f : IntReg) {k : Nat} (hk : k < 512) :
    (loadWords V f js).getLsbD k =
      if ∃ j ∈ js, k / 32 = j.val then V.getLsbD k else f.getLsbD k := by
  induction js generalizing f with
  | nil => simp [loadWords]
  | cons j js ih =>
    have hstep : loadWords V f (j :: js) =
        loadWords V (setWordOf f j.val (wordOf V j.val)) js := rfl
    have hmod : k % 32 < 32 := Nat.mod_lt k (by decide)
    rw [hstep, ih, getLsbD_setWordOf f j _ hk, getLsbD_wordOf V _ hmod]
    by_cases hj : k / 32 = j.val
    · rw [if_pos hj, ← hj, Nat.div_add_mod, ite_self, if_pos ⟨j, List.mem_cons_self, hj⟩]
    · simp [hj]

/-- All sixteen words make the field V. -/
theorem loadWords_finRange (V f : IntReg) : loadWords V f (List.finRange 16) = V := by
  apply BitVec.eq_of_getLsbD_eq
  intro k hk
  rw [getLsbD_loadWords V _ f hk, if_pos ⟨⟨k / 32, by omega⟩, List.mem_finRange _, rfl⟩]

/-- The write of word j of V into R[i]. -/
def wordWrite (i : RIdx) (V : IntReg) (j : Fin 16) : HostEvent :=
  hostW (0x400 + 64 * i.val + 4 * j.val) (wordOf V j.val)

theorem hostLdr_eq (i : RIdx) (v : Int) :
    hostLdr i v = (List.finRange 16).map (wordWrite i (BitVec.ofInt 512 v)) := rfl

/-- One such write on an idle block sets the word (20_memory.md R106). -/
theorem step_wordWrite {s : State} {i : RIdx} {V : IntReg} {j : Fin 16} {rest : List HostEvent}
    (h : s.inFlight = none) (hq : s.hostQueue = wordWrite i V j :: rest) :
    step s = .next { s with
      r := s.r.set i (setWordOf s.r[i] j.val (wordOf V j.val)), hostQueue := rest,
      lastResponse := some .written } := by
  have hbusy : (waiting s rest).busy = false := by rw [busy_waiting, State.busy, h]; rfl
  rw [step_write_ok (by rw [h]; nofun) (by omega) (by omega) hq, mmioReg_r, writeReg,
    guardBusy_of_idle hbusy]
  simp only [waiting, h]
  rfl

/-- A run of such writes on an idle block loads their words. -/
theorem run_wordWrites (i : RIdx) (V : IntReg) (rest : List HostEvent) (js : List (Fin 16)) :
    ∀ s : State, s.inFlight = none → s.hostQueue = js.map (wordWrite i V) ++ rest →
    core.run js.length s = .next { s with
      r := s.r.set i (loadWords V s.r[i] js), hostQueue := rest,
      lastResponse := if js = [] then s.lastResponse else some .written } := by
  induction js with
  | nil =>
    intro s _ hq
    obtain rfl : s.hostQueue = rest := hq
    simp only [loadWords, List.foldl_nil, if_true]
    rw [Fin.getElem_fin, Vector.set_getElem_self]
    rfl
  | cons j js ih =>
    intro s h hq
    refine (core_run_succ (step_wordWrite h hq) js.length).trans ((ih _ ?_ rfl).trans ?_)
    · exact h
    · simp [loadWords]

/-- Settles O56: the sixteen writes load the sixteen words of V, and V in range survives the
field. -/
theorem ldrLoadsARegister : Obligations.LdrLoadsARegister := by
  intro s i v rest hidle lo hi hq
  rw [hostLdr_eq] at hq
  have hrun := run_wordWrites i (BitVec.ofInt 512 v) rest (List.finRange 16) s hidle hq
  rw [loadWords_finRange] at hrun
  exact ⟨_, hrun, readR_writeR_same s i v lo hi, rfl,
    intsKept_writeR (fun _ _ => rfl) List.mem_cons_self v⟩

end Sys2Proof.Machine
end

section
/-! The field family (40_field.md R200–R221): each command selects its modulus or raises DOMAIN, and
what it then computes it either writes to R[rd] or reports as a recoverable error. -/

namespace Sys2Proof.Machine

/-! ### The two ways these commands end -/

/-- A value below 2^256 written to R[rd] is read back, and nothing else changes. -/
theorem writes_of_succeed {i : Instr} {s : State} {rd : RIdx} {v : Int}
    (h : exec i s = succeed (writeR s rd v)) (h0 : 0 ≤ v) (h1 : v < 2 ^ 256) :
    ∃ t, exec i s = .next t ∧ Succeeded false [rd] [] s t ∧ DrbgKept s t ∧ TableKept s t ∧
      readR t rd = v :=
  ⟨_, h.trans (succeed_eq _), succeeded_writeR s rd v, rfl, TableKept.refl s,
    readR_writeR_result s rd v h0 (lt_257 h1)⟩

theorem errored_of_fail {i : Instr} {s : State} {c : Cause} (h : exec i s = fail c s)
    (hc : c.isFatal = false) : ∃ t, exec i s = .next t ∧ Errored c s t :=
  ⟨_, h.trans (fail_eq c s), errored_raise hc s⟩

/-! ### The four reductions and their operands (40_field.md R210–R213) -/

theorem exec_mod (rd ra : RIdx) (m : ModSel) (s : State) :
    exec (.mod rd ra m) s = reduceInto rd (readR s ra) m s := rfl

theorem exec_modadd (rd ra rb : RIdx) (m : ModSel) (s : State) :
    exec (.modadd rd ra rb m) s = reduceInto rd (readR s ra + readR s rb) m s := rfl

theorem exec_modsub (rd ra rb : RIdx) (m : ModSel) (s : State) :
    exec (.modsub rd ra rb m) s = reduceInto rd (readR s ra - readR s rb) m s := rfl

theorem exec_modmul (rd ra rb : RIdx) (m : ModSel) (s : State) :
    exec (.modmul rd ra rb m) s = reduceInto rd (readR s ra * readR s rb) m s := rfl

/-! ### The modulus (40_field.md R201) -/

theorem validModulus_eq_false_iff (m : Int) :
    validModulus m = false ↔ ¬(1 ≤ m ∧ m < 2 ^ 256) := by
  rw [← validModulus_iff, Bool.not_eq_true]

section

variable {s : State} {m : ModSel}

theorem fail_of_reduceInto (hv : validModulus (modulusValue s m) = false) {i : Instr}
    {rd : RIdx} {v : Int} (h : exec i s = reduceInto rd v m s) :
    exec i s = fail .domain s := by
  rw [h, reduceInto, selectModulus_error hv]

theorem succeed_of_reduceInto (hv : validModulus (modulusValue s m) = true) {i : Instr}
    {rd : RIdx} {v : Int} (h : exec i s = reduceInto rd v m s) :
    exec i s = succeed (writeR s rd (emod v (modulusValue s m))) := by
  rw [h, reduceInto, selectModulus_ok hv]

theorem exec_modinv_invalid (h : validModulus (modulusValue s m) = false) (rd ra : RIdx) :
    exec (.modinv rd ra m) s = fail .domain s := by
  simp only [exec, execModinv, selectModulus_error h]

theorem exec_modinv_error (h : validModulus (modulusValue s m) = true) (rd : RIdx) {ra : RIdx}
    {c : Cause} (hc : invert (readR s ra) (modulusValue s m) = .error c) :
    exec (.modinv rd ra m) s = fail c s := by
  simp only [exec, execModinv, selectModulus_ok h, hc]

theorem exec_modinv_ok (h : validModulus (modulusValue s m) = true) (rd : RIdx) {ra : RIdx}
    {x : Int} (hx : invert (readR s ra) (modulusValue s m) = .ok x) :
    exec (.modinv rd ra m) s = succeed (writeR s rd x) := by
  simp only [exec, execModinv, selectModulus_ok h, hx]

/-- A command that reduces an exact operand modulo a valid m (40_field.md R202). -/
theorem remainder_of_reduceInto {i : Instr} {rd : RIdx} {v : Int}
    (h : exec i s = reduceInto rd v m s) (hlo : 1 ≤ modulusValue s m)
    (hhi : modulusValue s m < 2 ^ 256) :
    ∃ t, exec i s = .next t ∧ Succeeded false [rd] [] s t ∧ DrbgKept s t ∧ TableKept s t ∧
      0 ≤ readR t rd ∧ readR t rd < modulusValue s m ∧ modulusValue s m ∣ v - readR t rd := by
  have hr0 := emod_nonneg (a := v) hlo
  have hr1 := emod_lt (a := v) hlo
  have hv := (validModulus_iff _).mpr ⟨hlo, hhi⟩
  obtain ⟨t, ht, hs, hd, htab, hr⟩ :=
    writes_of_succeed (succeed_of_reduceInto hv h) hr0 (hr1.trans hhi)
  refine ⟨t, ht, hs, hd, htab, ?_⟩
  rw [hr]
  exact ⟨hr0, hr1, Int.dvd_self_sub_emod⟩

end

/-- Settles O18: the four commands are one reduction, of four exact operands. -/
theorem reductionResults : Obligations.ReductionResults := by
  intro s rd ra rb m hlo hhi
  exact ⟨remainder_of_reduceInto (exec_mod rd ra m s) hlo hhi,
    remainder_of_reduceInto (exec_modadd rd ra rb m s) hlo hhi,
    remainder_of_reduceInto (exec_modsub rd ra rb m s) hlo hhi,
    remainder_of_reduceInto (exec_modmul rd ra rb m s) hlo hhi⟩

/-- Settles O19: the modulus check stands before every other, in each of the five commands. -/
theorem invalidModulusIsDomain : Obligations.InvalidModulusIsDomain := by
  refine ⟨fun s => ⟨rfl, rfl, by decide, n_lt_P, P_lt, fun _ => rfl⟩, fun s rd ra rb d h i hi => ?_⟩
  have hv : validModulus (modulusValue s (.reg d)) = false :=
    (validModulus_eq_false_iff _).mpr h
  refine errored_of_fail ?_ rfl
  simp only [List.mem_cons, List.not_mem_nil, or_false] at hi
  rcases hi with rfl | rfl | rfl | rfl | rfl
  · exact fail_of_reduceInto hv (exec_mod rd ra _ s)
  · exact fail_of_reduceInto hv (exec_modadd rd ra rb _ s)
  · exact fail_of_reduceInto hv (exec_modsub rd ra rb _ s)
  · exact fail_of_reduceInto hv (exec_modmul rd ra rb _ s)
  · exact exec_modinv_invalid hv rd ra

/-! ### The inverse (40_field.md R215, R217) -/

/-- `invert_ok` in the words of R215: the checks are on the operand itself, and the inverse is not
0, which leaves [1, m). -/
theorem invert_ok_of_gcd {a m : Int} (hv : validModulus m = true) (h0 : ¬m ∣ a)
    (hg : Int.gcd a m = 1) : ∃ x, invert a m = .ok x ∧ 1 ≤ x ∧ x < m ∧ (a * x) % m = 1 := by
  obtain ⟨x, hx, hx0, hxm, hinv⟩ :=
    invert_ok hv (mt Int.dvd_of_emod_eq_zero h0) ((Int.gcd_emod a m).trans hg)
  rw [mul_comm] at hinv
  have hne : x ≠ 0 := by
    rintro rfl
    simp at hinv
  exact ⟨x, hx, by omega, hxm, hinv⟩

/-- Settles O20, by the check of R215 that decides. -/
theorem modinvResult : Obligations.ModinvResult := by
  intro s rd ra m
  refine ⟨fun h => ?invalid, fun hlo hhi => ?valid⟩
  case invalid =>
    exact errored_of_fail (exec_modinv_invalid ((validModulus_eq_false_iff _).mpr h) rd ra) rfl
  case valid =>
    have hv := (validModulus_iff _).mpr ⟨hlo, hhi⟩
    refine ⟨fun h0 => ?zero, fun h0 hg => ?notCoprime, fun h0 hg => ?inverse⟩
    case zero =>
      exact errored_of_fail
        (exec_modinv_error hv rd (invert_zero (Int.emod_eq_zero_of_dvd h0))) rfl
    case notCoprime =>
      have he := invert_not_coprime hv (mt Int.dvd_of_emod_eq_zero h0)
        ((Int.gcd_emod _ _).trans_ne hg)
      exact errored_of_fail (exec_modinv_error hv rd he) rfl
    case inverse =>
      obtain ⟨x, hx, hx1, hxm, hinv⟩ := invert_ok_of_gcd hv h0 hg
      obtain ⟨t, ht, hs, hd, htab, hr⟩ :=
        writes_of_succeed (exec_modinv_ok hv rd hx) (by omega) (hxm.trans hhi)
      refine ⟨t, ht, hs, hd, htab, ?_⟩
      rw [hr]
      refine ⟨hx1, hxm, hinv, fun y hy1 hym hy => ?_⟩
      rw [mul_comm] at hinv hy
      exact inverse_unique (by omega) hym (by omega) hxm hy hinv

/-! ### The square root (40_field.md R220, R221) -/

theorem sqrtExp_eq : (Config.P.toNat + 1) / 4 = Config.sqrtExp := by decide

/-- The self-check of R220 fails on a non-residue. -/
theorem sqrtP_of_nonsquare {a : Int} (h : ¬∃ y : Int, (y * y) % Config.P = a % Config.P) :
    sqrtP a = .error .noSqrt := by
  cases hr : sqrtP a with
  | error c => rw [sqrtP_error hr]
  | ok r =>
    obtain ⟨-, -, hsq, -⟩ := sqrtP_sound hr
    exact absurd ⟨r, hsq⟩ h

theorem exec_modsqrt (rd ra : RIdx) (s : State) :
    exec (.modsqrt rd ra) s = execModsqrt rd ra s := rfl

theorem exec_modsqrt_error {s : State} {ra : RIdx} {c : Cause} (h : sqrtP (readR s ra) = .error c)
    (rd : RIdx) : exec (.modsqrt rd ra) s = fail c s := by
  rw [exec_modsqrt]
  unfold execModsqrt
  rw [h]

theorem exec_modsqrt_ok {s : State} {ra : RIdx} {r : Int} (h : sqrtP (readR s ra) = .ok r)
    (rd : RIdx) : exec (.modsqrt rd ra) s = succeed (writeR s rd r) := by
  rw [exec_modsqrt]
  unfold execModsqrt
  rw [h]

/-- Settles O21: the power is a root of every residue (`sqrtP_of_square`), and the self-check lets
nothing else through. -/
theorem modsqrtResult : Obligations.ModsqrtResult := by
  refine ⟨by decide, fun s rd ra => ⟨fun ⟨y, hy⟩ => ?residue, fun h => ?nonresidue⟩⟩
  case residue =>
    obtain ⟨r, hr⟩ := sqrtP_of_square hy
    obtain ⟨h0, h1, hsq, hpow⟩ := sqrtP_sound hr
    obtain ⟨t, ht, hs, hd, htab, hread⟩ :=
      writes_of_succeed (exec_modsqrt_ok hr rd) h0 (h1.trans P_lt)
    rw [powMod_eq _ _ _ sqrtExp_lt, ← sqrtExp_eq] at hpow
    refine ⟨t, ht, hs, hd, htab, ?_⟩
    rw [hread]
    exact ⟨h0, h1, hsq, hpow⟩
  case nonresidue =>
    exact errored_of_fail (exec_modsqrt_error (sqrtP_of_nonsquare h) rd) rfl

end Sys2Proof.Machine
end

section
/-! The point family's group (41_point.md R250–R258, R267): what PADD, PDBL, PNEG and PMOV write, and
that on curve points ADD is the group of the curve, whose sum is the chord, the tangent or the
identity. -/

namespace Sys2Proof.Machine

/-- Settles O24: of the ways a command ends only a success changes a point register, and what it
writes there is a curve point if its sources are. -/
theorem curvePointsStayOnTheCurve : Obligations.CurvePointsStayOnTheCurve := by
  intro i s t hi hp hg h j
  cases ends_of_exec h with
  | error | invariant => exact hp j
  | exhausted s' _ hs => exact readP_of_p hs j ▸ hp j
  | done b s' w =>
    rcases w.points j with hkept | ⟨-, -, hq⟩
    · exact hkept ▸ hp j
    · exact hq.curve hi.tblBuilt hp hg

/-! ### The commands that write one point register -/

/-- A triple written to P[pd] is read back, and nothing else changes. -/
theorem writesPoint_of_succeed {i : Instr} {s : State} {pd : PIdx} {q : Point}
    (h : exec i s = succeed (writeP s pd q)) (hd : 2 ≤ pd.val) :
    ∃ t, exec i s = .next t ∧ Succeeded false [] [pd] s t ∧ DrbgKept s t ∧ TableKept s t ∧
      readP t pd = q :=
  ⟨_, h.trans (succeed_eq _), succeeded_writeP s pd q, writeP_drbg s pd q,
    ⟨writeP_tableValid s pd q, writeP_tbl s pd q⟩, readP_writeP_same s pd q hd⟩

theorem exec_padd (pd pa pb : PIdx) (s : State) : exec (.padd pd pa pb) s =
    succeed (writeP s pd (pointAdd (readP s pa) (readP s pb))) := rfl

/-- PDBL is PADD of a register with itself (41_point.md R254). -/
theorem exec_pdbl_eq_padd (pd pa : PIdx) (s : State) :
    exec (.pdbl pd pa) s = exec (.padd pd pa pa) s := rfl

theorem exec_pneg (pd pa : PIdx) (s : State) :
    exec (.pneg pd pa) s = succeed (writeP s pd (pointNeg (readP s pa))) := rfl

theorem exec_pmov (pd pa : PIdx) (s : State) :
    exec (.pmov pd pa) s = succeed (writeP s pd (readP s pa)) := rfl

/-! ### The complete addition as integers (41_point.md R252) -/

theorem pointAdd_X_eq (p q : Point) : (pointAdd p q).X =
    ((p.X * q.Y + q.X * p.Y) * (p.Y * q.Y - 21 * p.Z * q.Z) -
      21 * (p.Y * q.Z + q.Y * p.Z) * (p.X * q.Z + q.X * p.Z)) % Config.P := by
  refine eq_emod_of_cast (X_nonneg _) (pointAdd_canonical p q).1 ?_
  rw [pointAdd_X, addX]
  push_cast
  ring

theorem pointAdd_Y_eq (p q : Point) : (pointAdd p q).Y =
    ((p.Y * q.Y + 21 * p.Z * q.Z) * (p.Y * q.Y - 21 * p.Z * q.Z) +
      63 * p.X * q.X * (p.X * q.Z + q.X * p.Z)) % Config.P := by
  refine eq_emod_of_cast (Y_nonneg _) (pointAdd_canonical p q).2.1 ?_
  rw [pointAdd_Y, addY]
  push_cast
  ring

theorem pointAdd_Z_eq (p q : Point) : (pointAdd p q).Z =
    ((p.Y * q.Z + q.Y * p.Z) * (p.Y * q.Y + 21 * p.Z * q.Z) +
      3 * p.X * q.X * (p.X * q.Y + q.X * p.Y)) % Config.P := by
  refine eq_emod_of_cast (Z_nonneg _) (pointAdd_canonical p q).2.2 ?_
  rw [pointAdd_Z, addZ]
  push_cast
  ring

/-- Settles O22: PADD writes `pointAdd`, whose coordinates are the three polynomials. -/
theorem paddPdblResult : Obligations.PaddPdblResult := by
  intro s pd pa pb hd
  refine ⟨?padd, ?pdbl⟩
  case padd =>
    obtain ⟨t, ht, hs, hdrbg, htab, hread⟩ := writesPoint_of_succeed (exec_padd pd pa pb s) hd
    refine ⟨t, ht, hs, hdrbg, htab, ?_⟩
    rw [hread]
    exact ⟨pointAdd_X_eq _ _, pointAdd_Y_eq _ _, pointAdd_Z_eq _ _⟩
  case pdbl =>
    obtain ⟨t, ht, hs, hdrbg, htab, -⟩ := writesPoint_of_succeed (exec_padd pd pa pa s) hd
    exact ⟨t, (exec_pdbl_eq_padd pd pa s).trans ht, hs, hdrbg, htab, ht⟩

/-- Settles O26: the two triples are `pointNeg` and the source itself. -/
theorem pnegPmovResult : Obligations.PnegPmovResult := by
  intro s pd pa hd
  refine ⟨?pneg, writesPoint_of_succeed (exec_pmov pd pa s) hd⟩
  case pneg =>
    obtain ⟨t, ht, hs, hdrbg, htab, hread⟩ := writesPoint_of_succeed (exec_pneg pd pa s) hd
    refine ⟨t, ht, hs, hdrbg, htab, ?_⟩
    rw [hread]
    exact ⟨pointNeg_X _, pointNeg_Y _, pointNeg_Z _⟩

/-- Settles O23: every law is one of the group of the curve, read through the points the triples
stand for. -/
theorem groupLaws : Obligations.GroupLaws := by
  intro p q r hp hq hr
  have := fact_prime_P
  obtain ⟨g, hg⟩ := (isCurvePoint_iff p).mp hp
  obtain ⟨h, hh⟩ := (isCurvePoint_iff q).mp hq
  obtain ⟨k, hk⟩ := (isCurvePoint_iff r).mp hr
  exact ⟨isCurvePoint_add hp hq, closed_isCurvePoint.neg p hp,
    (pointEq_rep (rep_add hg hh) (rep_add hh hg)).mpr (add_comm g h),
    (pointEq_rep (rep_add (rep_add hg hh) hk) (rep_add hg (rep_add hh hk))).mpr (add_assoc g h k),
    (pointEq_rep (rep_add hg rep_zero) hg).mpr (add_zero g),
    (pointEq_rep (rep_add hg (rep_neg hg)) rep_zero).mpr (add_neg_cancel g),
    fun s pd pa => exec_pdbl_eq_padd pd pa s⟩

/-! ### Chord and tangent (41_point.md R250, R252) -/

section

variable [Fact (Nat.Prime Config.P.toNat)]

/-- The line of slope u / v through (x1, y1) meets the curve a third time over x1 and x2; this is
that point, reflected, with the slope's denominator cleared. -/
theorem thirdPoint_of_slope {l u v : Fp} (hl : l * v = u) (x1 y1 x2 : Fp) :
    (curve.addX x1 x2 l + x1 + x2) * v ^ 2 = u ^ 2 ∧
      (curve.addY x1 x2 y1 l + y1) * v = u * (x1 - curve.addX x1 x2 l) := by
  have hX : curve.addX x1 x2 l = l ^ 2 - x1 - x2 := by
    simp [WeierstrassCurve.Affine.addX, curve]
  have hY : curve.addY x1 x2 y1 l = l * (x1 - curve.addX x1 x2 l) - y1 := by
    rw [WeierstrassCurve.Affine.addY, negY_eq, WeierstrassCurve.Affine.negAddY]
    ring
  refine ⟨?_, ?_⟩
  · rw [hX]
    linear_combination (l * v + u) * hl
  · rw [hY]
    linear_combination (x1 - curve.addX x1 x2 l) * hl

variable {x1 y1 x2 y2 : Fp}

theorem some_add_some_of_X_ne (h1 : curve.Nonsingular x1 y1) (h2 : curve.Nonsingular x2 y2)
    (hx : x1 ≠ x2) : ∃ x3 y3 h3,
    WeierstrassCurve.Affine.Point.some x1 y1 h1 + .some x2 y2 h2 = .some x3 y3 h3 ∧
    (x3 + x1 + x2) * (x2 - x1) ^ 2 = (y2 - y1) ^ 2 ∧
    (y3 + y1) * (x2 - x1) = (y2 - y1) * (x1 - x3) := by
  have hl : curve.slope x1 x2 y1 y2 * (x2 - x1) = y2 - y1 := by
    rw [WeierstrassCurve.Affine.slope_of_X_ne hx]
    have := sub_ne_zero.mpr hx
    field_simp
    ring
  exact ⟨_, _, _, WeierstrassCurve.Affine.Point.add_of_X_ne hx, thirdPoint_of_slope hl x1 y1 x2⟩

theorem some_add_self (h1 : curve.Nonsingular x1 y1) : ∃ x3 y3 h3,
    WeierstrassCurve.Affine.Point.some x1 y1 h1 + .some x1 y1 h1 = .some x3 y3 h3 ∧
    (x3 + 2 * x1) * (2 * y1) ^ 2 = (3 * x1 ^ 2) ^ 2 ∧
    (y3 + y1) * (2 * y1) = 3 * x1 ^ 2 * (x1 - x3) := by
  have h2y : 2 * y1 ≠ 0 := mul_ne_zero two_ne_zero_Fp (y_ne_zero (curve_nonsingular.mp h1))
  have hne : y1 ≠ curve.negY x1 y1 := by
    rw [negY_eq]
    intro h
    exact h2y (by linear_combination h)
  have hl : curve.slope x1 x1 y1 y1 * (2 * y1) = 3 * x1 ^ 2 := by
    rw [WeierstrassCurve.Affine.slope_of_Y_ne rfl hne, negY_eq, sub_neg_eq_add, ← two_mul,
      div_mul_cancel₀ _ h2y]
    simp [curve]
  obtain ⟨hx, hy⟩ := thirdPoint_of_slope hl x1 y1 x1
  exact ⟨_, _, _, WeierstrassCurve.Affine.Point.add_self_of_Y_ne hne,
    by linear_combination hx, hy⟩

theorem some_add_some_of_Y_ne (h1 : curve.Nonsingular x1 y1) (h2 : curve.Nonsingular x1 y2)
    (hy : y1 ≠ y2) :
    WeierstrassCurve.Affine.Point.some x1 y1 h1 + .some x1 y2 h2 = 0 :=
  WeierstrassCurve.Affine.Point.add_of_Y_eq rfl
    ((WeierstrassCurve.Affine.Y_eq_of_X_eq h1.1 h2.1 rfl).resolve_left hy)

/-! ### The affine form of a triple -/

/-- The point a triple with Z ≠ 0 stands for has the coordinates `toAffine` gives. -/
theorem rep_of_toAffine {p : Point} {x y : Int} (hp : p.isCurvePoint) (hz : p.Z ≠ 0)
    (h : toAffine p = .ok (x, y)) : (∃ hn, Rep p (.some (x : Fp) (y : Fp) hn)) ∧
      0 ≤ x ∧ x < Config.P ∧ 0 ≤ y ∧ y < Config.P := by
  obtain ⟨g, hg⟩ := (isCurvePoint_iff p).mp hp
  obtain ⟨x', y', e, hx0, hx1, hy0, hy1, ha⟩ := toAffine_rep hg
  cases h.symm.trans e
  refine ⟨?_, hx0, hx1, hy0, hy1⟩
  cases g with
  | zero => exact absurd ((rep_Z_eq_zero_iff hg).mpr rfl) hz
  | some a b hn =>
    obtain ⟨rfl, rfl⟩ := ha
    exact ⟨hn, hg⟩

theorem toAffine_of_rep_some {p : Point} {a b : Fp} {hn : curve.Nonsingular a b}
    (h : Rep p (.some a b hn)) :
    p.Z ≠ 0 ∧ ∃ x y, toAffine p = .ok (x, y) ∧ (x : Fp) = a ∧ (y : Fp) = b := by
  obtain ⟨x, y, e, -, -, -, -, ha⟩ := toAffine_rep h
  exact ⟨mt (rep_Z_eq_zero_iff h).mp nofun, x, y, e, ha⟩

end

/-- Settles O25, by the three cases of the group's sum of two affine points. -/
theorem paddIsChordAndTangent : Obligations.PaddIsChordAndTangent := by
  intro s t pd pa pb x1 y1 x2 y2 hd hpa hpb hza hzb ha hb ht
  have := fact_prime_P
  obtain ⟨⟨hn1, hr1⟩, hx10, hx1P, hy10, hy1P⟩ := rep_of_toAffine hpa hza ha
  obtain ⟨⟨hn2, hr2⟩, hx20, hx2P, hy20, hy2P⟩ := rep_of_toAffine hpb hzb hb
  have hsum : Rep (readP t pd) (.some (x1 : Fp) y1 hn1 + .some (x2 : Fp) y2 hn2) := by
    obtain ⟨u, hu, -, -, -, hread⟩ := writesPoint_of_succeed (exec_padd pd pa pb s) hd
    cases ht.symm.trans hu
    exact hread ▸ rep_add hr1 hr2
  by_cases hx : x1 = x2
  · subst hx
    by_cases hy : y1 = y2
    · subst hy
      obtain ⟨a, b, hn3, he, hX, hY⟩ := some_add_self hn1
      obtain ⟨hz, x3, y3, h3, rfl, rfl⟩ := toAffine_of_rep_some (he ▸ hsum)
      refine ⟨x3, y3, h3, fun h => absurd rfl h, fun _ _ => ⟨hz, ?_, ?_⟩, fun _ h => absurd rfl h⟩
      · exact (emod_sub_eq_zero_iff _ _).mpr (by exact_mod_cast hX)
      · exact (emod_sub_eq_zero_iff _ _).mpr (by exact_mod_cast hY)
    · have hyc : (y1 : Fp) ≠ y2 := mt (eq_of_cast hy10 hy1P hy20 hy2P) hy
      rw [some_add_some_of_Y_ne hn1 hn2 hyc] at hsum
      obtain ⟨x3, y3, h3, -⟩ := toAffine_rep hsum
      exact ⟨x3, y3, h3, fun h => absurd rfl h, fun _ h => absurd h hy,
        fun _ _ => (rep_Z_eq_zero_iff hsum).mpr rfl⟩
  · have hxc : (x1 : Fp) ≠ x2 := mt (eq_of_cast hx10 hx1P hx20 hx2P) hx
    obtain ⟨a, b, hn3, he, hX, hY⟩ := some_add_some_of_X_ne hn1 hn2 hxc
    obtain ⟨hz, x3, y3, h3, rfl, rfl⟩ := toAffine_of_rep_some (he ▸ hsum)
    refine ⟨x3, y3, h3, fun _ => ⟨hz, ?_, ?_⟩, fun h => absurd h hx, fun h => absurd h hx⟩
    · exact (emod_sub_eq_zero_iff _ _).mpr (by exact_mod_cast hX)
    · exact (emod_sub_eq_zero_iff _ _).mpr (by exact_mod_cast hY)

end Sys2Proof.Machine
end

section
/-! The point family's equality and conversions (41_point.md R256–R266): PEQ, and the ways between a
triple and its affine coordinates. -/

namespace Sys2Proof.Machine

/-! ### Equality (41_point.md R256, R257) -/

theorem exec_peq (pa pb : PIdx) (s : State) :
    exec (.peq pa pb) s = .next (complete (pointEq (readP s pa) (readP s pb)) s) := rfl

/-- The test over the integers, as R256 writes it. -/
theorem pointEq_iff_emod (p q : Point) : pointEq p q = true ↔
    (p.X * q.Z) % Config.P = (q.X * p.Z) % Config.P ∧
      (p.Y * q.Z) % Config.P = (q.Y * p.Z) % Config.P := by
  rw [pointEq, Bool.and_eq_true, decide_eq_true_eq, decide_eq_true_eq]
  rfl

theorem pointEq_of_Z_eq_zero {p q : Point} (hp : p.Z = 0) (hq : q.Z = 0) :
    pointEq p q = true := by
  rw [pointEq_iff, hp, hq]
  simp

/-- (0, 0, 0) equals every triple. -/
theorem pointEq_origin (q : Point) : pointEq ⟨0, 0, 0⟩ q = true := by
  rw [pointEq_iff]
  simp [Point.X, Point.Y, Point.Z]

/-- Canonical triples with Z ≠ 0 are equal exactly when their affine forms are: cross multiplication
compares x1·(Z1·Z2) with x2·(Z1·Z2), and so for y. -/
theorem pointEq_iff_toAffine_eq {p q : Point} (hp : p.canonical) (hq : q.canonical)
    (hpz : p.Z ≠ 0) (hqz : q.Z ≠ 0) : pointEq p q = true ↔ toAffine p = toAffine q := by
  have := fact_prime_P
  obtain ⟨x1, y1, e1, hx10, hx1P, hy10, hy1P, -, h1⟩ := toAffine_spec hp
  obtain ⟨x2, y2, e2, hx20, hx2P, hy20, hy2P, -, h2⟩ := toAffine_spec hq
  obtain ⟨hX1, hY1⟩ := h1 hpz
  obtain ⟨hX2, hY2⟩ := h2 hqz
  have hk : (p.Z : Fp) * q.Z ≠ 0 :=
    mul_ne_zero (mt (cast_eq_zero_iff (Z_nonneg p) hp.2.2).mp hpz)
      (mt (cast_eq_zero_iff (Z_nonneg q) hq.2.2).mp hqz)
  rw [e1, e2, pointEq_iff, ← hX1, ← hY1, ← hX2, ← hY2, Except.ok.injEq, Prod.mk.injEq]
  constructor
  · rintro ⟨hx, hy⟩
    exact ⟨eq_of_cast hx10 hx1P hx20 hx2P (mul_right_cancel₀ hk (by linear_combination hx)),
      eq_of_cast hy10 hy1P hy20 hy2P (mul_right_cancel₀ hk (by linear_combination hy))⟩
  · rintro ⟨rfl, rfl⟩
    exact ⟨by ring, by ring⟩

/-- Settles O27: the test as PEQ reports it, and what it says of canonical triples. -/
theorem peqResult : Obligations.PeqResult :=
  ⟨fun s pa pb => ⟨_, _, exec_peq pa pb s, succeeded_self _ s, rfl, TableKept.refl s,
    pointEq_iff_emod _ _⟩,
    fun _ q hp hq => ⟨pointEq_zero_iff hp, pointEq_of_Z_eq_zero, pointEq_origin q,
      pointEq_iff_toAffine_eq hp hq⟩⟩

/-! ### To affine coordinates (41_point.md R260–R262) -/

theorem exec_toaff_ok {s : State} {pa : PIdx} {x y : Int} (h : toAffine (readP s pa) = .ok (x, y))
    (rx ry : RIdx) :
    exec (.toaff rx pa ry) s = .next (complete false (writeR (writeR s rx x) ry y)) := by
  simp only [exec, execToaff, h, succeed_eq]

/-- Settles O28: `toAffine` succeeds on a canonical triple, and its two values are read back. -/
theorem toaffResult : Obligations.ToaffResult := by
  intro s rx ry pa hc
  obtain ⟨x, y, e, hx0, hxP, hy0, hyP, hzero, hne⟩ := toAffine_spec hc
  have hx : x < 2 ^ 257 := lt_257 (hxP.trans P_lt)
  have hy : y < 2 ^ 257 := lt_257 (hyP.trans P_lt)
  refine ⟨_, x, y, exec_toaff_ok e rx ry, succeeded_writeR₂ s rx ry x y, rfl, TableKept.refl s,
    readR_writeR_result _ ry y hy0 hy, fun h => ?second, hx0, hxP, hy0, hyP, hzero,
    fun hz => ?scaled, fun hz => ?one⟩
  case second =>
    exact (readR_writeR_ne _ ry rx y h).trans (readR_writeR_result s rx x hx0 hx)
  case scaled =>
    obtain ⟨hX, hY⟩ := hne hz
    exact ⟨(eq_emod_of_cast (X_nonneg _) hc.1 (by push_cast; exact hX.symm)).symm,
      (eq_emod_of_cast (Y_nonneg _) hc.2.1 (by push_cast; exact hY.symm)).symm⟩
  case one =>
    cases e.symm.trans (toAffine_one hc hz)
    exact ⟨rfl, rfl⟩

/-! ### From affine coordinates (41_point.md R263, R264) -/

theorem coordOk_iff (x : Int) : coordOk x = true ↔ 0 ≤ x ∧ x < Config.P := by
  rw [coordOk, Bool.and_eq_true, decide_eq_true_eq, decide_eq_true_eq]

theorem exec_fromaff_ok {s : State} {rx ry : RIdx} (hx : coordOk (readR s rx) = true)
    (hy : coordOk (readR s ry) = true) (pd : PIdx) :
    exec (.fromaff pd rx ry) s =
      succeed (writeP s pd (fromAffine (readR s rx) (readR s ry))) := by
  simp only [exec, execFromaff, hx, hy, Bool.and_self, if_true]

theorem exec_fromaff_range {s : State} {rx ry : RIdx}
    (h : ¬(coordOk (readR s rx) = true ∧ coordOk (readR s ry) = true)) (pd : PIdx) :
    exec (.fromaff pd rx ry) s = fail .range s := by
  rw [← Bool.and_eq_true] at h
  simp only [exec, execFromaff, if_neg h]

theorem fromAffine_zero : fromAffine 0 0 = ⟨0, 1, 0⟩ := rfl

theorem fromAffine_of_ne {x y : Int} (h : ¬(x = 0 ∧ y = 0)) : fromAffine x y = mkPoint x y 1 :=
  if_neg h

/-- A triple (x, y, 1) with x and y in [0, P) stores what it was made of. -/
theorem mkPoint_one {x y : Int} (hx : coordOk x = true) (hy : coordOk y = true) :
    (mkPoint x y 1).X = x ∧ (mkPoint x y 1).Y = y ∧ (mkPoint x y 1).Z = 1 := by
  rw [coordOk_iff] at hx hy
  exact ⟨mkPoint_X hx.1 (hx.2.trans P_lt), mkPoint_Y hy.1 (hy.2.trans P_lt),
    mkPoint_Z (by decide) (by decide)⟩

/-- The round trip of R264. -/
theorem toAffine_fromAffine {x y : Int} (hx : coordOk x = true) (hy : coordOk y = true) :
    toAffine (fromAffine x y) = .ok (x, y) := by
  by_cases h : x = 0 ∧ y = 0
  · obtain ⟨rfl, rfl⟩ := h
    exact if_pos ((pointEq_zero_iff zero_canonical).mpr rfl)
  · have hc := fromAffine_canonical hx hy
    obtain ⟨hX, hY, hZ⟩ := mkPoint_one hx hy
    rw [fromAffine_of_ne h] at hc ⊢
    rw [toAffine_one hc hZ, hX, hY]

/-- Settles O29, by the check of the two coordinates. -/
theorem fromaffResult : Obligations.FromaffResult := by
  intro s pd rx ry hd
  refine ⟨fun hx0 hxP hy0 hyP => ?writes, fun h => ?range⟩
  case writes =>
    have hx := (coordOk_iff _).mpr ⟨hx0, hxP⟩
    have hy := (coordOk_iff _).mpr ⟨hy0, hyP⟩
    obtain ⟨t, ht, hs, hdrbg, htab, hread⟩ := writesPoint_of_succeed (exec_fromaff_ok hx hy pd) hd
    refine ⟨t, ht, hs, hdrbg, htab, ?_⟩
    rw [hread]
    refine ⟨fun h => ?_, fun h => ?_, toAffine_fromAffine hx hy⟩
    · rw [h.1, h.2, fromAffine_zero]
    · rw [fromAffine_of_ne h]
      exact mkPoint_one hx hy
  case range =>
    refine errored_of_fail (exec_fromaff_range ?_ pd) rfl
    rwa [coordOk_iff, coordOk_iff, and_assoc]

/-! ### From x and a parity (41_point.md R265, R266) -/

theorem exec_fromx_range {s : State} {rx : RIdx} (h : ¬coordOk (readR s rx) = true) (pd : PIdx)
    (odd : Bool) : exec (.fromx pd rx odd) s = fail .range s := by
  simp only [exec, execFromx, if_neg h]

theorem exec_fromx_error {s : State} {rx : RIdx} {odd : Bool} {c : Cause}
    (h : coordOk (readR s rx) = true) (hf : fromX (readR s rx) odd = .error c) (pd : PIdx) :
    exec (.fromx pd rx odd) s = fail c s := by
  simp only [exec, execFromx, if_pos h, hf]

theorem exec_fromx_ok {s : State} {rx : RIdx} {odd : Bool} {q : Point}
    (h : coordOk (readR s rx) = true) (hf : fromX (readR s rx) odd = .ok q) (pd : PIdx) :
    exec (.fromx pd rx odd) s = succeed (writeP s pd q) := by
  simp only [exec, execFromx, if_pos h, hf]

/-- Whatever `fromX` returns has a root of x³ + 7 as its y, and no root is 0, so the parity is the
one asked for. -/
theorem fromX_coordinates {x : Int} {odd : Bool} {q : Point} (hx : coordOk x = true)
    (h : fromX x odd = .ok q) : q.X = x ∧ q.Z = 1 ∧ q.Y < Config.P ∧
      (q.Y * q.Y) % Config.P = (x ^ 3 + 7) % Config.P ∧ (odd = true ↔ q.Y % 2 = 1) := by
  have := fact_prime_P
  obtain ⟨y, rfl, hy0, hyP, hsq, hodd⟩ := fromX_spec h
  obtain ⟨hX, hY, hZ⟩ := mkPoint_one hx ((coordOk_iff y).mpr ⟨hy0, hyP⟩)
  have hne : y ≠ 0 := by
    rintro rfl
    have := (intCast_eq_iff _ _).mpr hsq
    push_cast at this
    exact cube_ne x (by linear_combination -this)
  rw [hX, hY, hZ, ← hodd hne, decide_eq_true_eq, show x ^ 3 = x * x * x by ring]
  exact ⟨rfl, rfl, hyP, hsq, Iff.rfl⟩

/-- `fromX` fails on an x that no curve point has. -/
theorem fromX_of_nonsquare {x : Int} (odd : Bool)
    (h : ¬∃ y : Int, (y * y) % Config.P = (x ^ 3 + 7) % Config.P) :
    fromX x odd = .error .noSqrt := by
  cases hf : fromX x odd with
  | error c => rw [fromX_error hf]
  | ok q =>
    obtain ⟨y, -, -, -, hsq, -⟩ := fromX_spec hf
    exact absurd ⟨y, by rw [hsq]; ring_nf⟩ h

/-- Settles O30, by the check that decides: the range of x, then whether x³ + 7 is a square. -/
theorem fromxResult : Obligations.FromxResult := by
  intro s pd rx odd hd
  refine ⟨fun h => ?range, fun hx0 hxP hno => ?nonsquare, fun hx0 hxP ⟨y, hy⟩ => ?root⟩
  case range =>
    exact errored_of_fail (exec_fromx_range (mt (coordOk_iff _).mp h) pd odd) rfl
  case nonsquare =>
    have hx := (coordOk_iff _).mpr ⟨hx0, hxP⟩
    exact errored_of_fail (exec_fromx_error hx (fromX_of_nonsquare odd hno) pd) rfl
  case root =>
    have hx := (coordOk_iff _).mpr ⟨hx0, hxP⟩
    obtain ⟨q, hq⟩ := fromX_of_square odd hy
    obtain ⟨t, ht, hs, hdrbg, htab, hread⟩ := writesPoint_of_succeed (exec_fromx_ok hx hq pd) hd
    refine ⟨t, ht, hs, hdrbg, htab, ?_⟩
    rw [hread]
    exact fromX_coordinates hx hq

end Sys2Proof.Machine
end

section
/-! What the scalar family computes (42_scalar.md R301, R302, R304, R309, R312, R313): the contents of
the table, the digits of the windowed recoding, the multiples of a curve point, and the masks of the
non-adjacent form. -/

namespace Sys2Proof.Machine

/-! ### Multiples of a curve point (42_scalar.md R301, R304) -/

section

variable [Fact (Nat.Prime Config.P.toNat)]

/-- A triple that stands for the k-th multiple of p's point is in the class of k·p. -/
theorem multiple_class {p q : Point} {g : curve.Point} {k : Nat} (hp : Rep p g)
    (hq : Rep q (k • g)) : q.isCurvePoint ∧ pointEq q (multiple p k) = true :=
  ⟨(isCurvePoint_iff q).mpr ⟨_, hq⟩, (pointEq_rep hq (multiple_rep hp k)).mpr rfl⟩

end

/-- The windowed multiply gives a multiple of every curve point that equals G. -/
theorem wnaf_class {p : Point} {k : Int} (h0 : 0 ≤ k) (h1 : k < 2 ^ 256) (hp : p.isCurvePoint)
    (he : pointEq p Config.base = true) : (wnaf buildTable k).isCurvePoint ∧
      pointEq (wnaf buildTable k) (multiple p k.toNat) = true := by
  have := fact_prime_P
  obtain ⟨b, hb⟩ := exists_rep_base
  obtain ⟨g, hg⟩ := (isCurvePoint_iff p).mp hp
  obtain rfl := (pointEq_rep hg hb).mp he
  exact multiple_class hg (wnaf_rep hb h0 h1)

theorem wnaf_class_base {k : Int} (h0 : 0 ≤ k) (h1 : k < 2 ^ 256) :
    (wnaf buildTable k).isCurvePoint ∧
      pointEq (wnaf buildTable k) (multiple Config.base k.toNat) = true := by
  have := fact_prime_P
  exact wnaf_class h0 h1 closed_isCurvePoint.base ((pointEq_iff _ _).mpr ⟨rfl, rfl⟩)

theorem generic_class {p : Point} {k : Int} (h0 : 0 ≤ k) (h1 : k < 2 ^ 256)
    (hp : p.isCurvePoint) (safe : Bool) : (generic p k safe).isCurvePoint ∧
      pointEq (generic p k safe) (multiple p k.toNat) = true := by
  have := fact_prime_P
  obtain ⟨g, hg⟩ := (isCurvePoint_iff p).mp hp
  exact multiple_class hg (generic_rep hg safe h0 h1)

/-- The two terms of MULADD add up to the sum of the two multiples (42_scalar.md R307). -/
theorem mulAdd_class {q : Point} {u1 u2 : Int} (h10 : 0 ≤ u1) (h11 : u1 < 2 ^ 256) (h20 : 0 ≤ u2)
    (h21 : u2 < 2 ^ 256) (hq : q.isCurvePoint) : (mulAdd u1 u2 q).isCurvePoint ∧
      pointEq (mulAdd u1 u2 q)
        (pointAdd (multiple Config.base u1.toNat) (multiple q u2.toNat)) = true := by
  have := fact_prime_P
  obtain ⟨b, hb⟩ := exists_rep_base
  obtain ⟨g, hg⟩ := (isCurvePoint_iff q).mp hq
  have h := mulAdd_rep hb hg h10 h11 h20 h21
  exact ⟨(isCurvePoint_iff _).mpr ⟨_, h⟩,
    (pointEq_rep h (rep_add (multiple_rep hb _) (multiple_rep hg _))).mpr rfl⟩

/-- With nothing left of the scalar every digit is 0, and no entry is added. -/
theorem wnafLoop_zero (count : Nat) (tbl : List Point) :
    ∀ (w : Nat) (p f : Point), wnafLoop count tbl w 0 p f = p := by
  induction count with
  | zero => intros; rfl
  | succ n ih => intros; exact ih ..

theorem wnaf_zero (tbl : List Point) : wnaf tbl 0 = ⟨0, 1, 0⟩ := wnafLoop_zero ..

/-! ### The table (42_scalar.md R302) -/

/-- Entry 128·w + i is in the class of (i + 1)·2^(8w)·G. -/
theorem buildTable_class {w i : Nat} (hw : w < 33) (hi : i < 128) :
    (buildTable.getD (128 * w + i) Config.zero).isCurvePoint ∧
      pointEq (buildTable.getD (128 * w + i) Config.zero)
        (multiple Config.base ((i + 1) * 2 ^ (8 * w))) = true := by
  have := fact_prime_P
  obtain ⟨b, hb⟩ := exists_rep_base
  rw [pow_mul]
  exact multiple_class hb (buildTable_rep hb hw hi)

/-- Settles O34: the class of an entry is that of its multiple of G, and the sequence is the one of
the windows' recursion. -/
theorem tableContents : Obligations.TableContents := by
  refine ⟨buildTable_length, rfl, fun w j hw hj1 hj => ?_⟩
  obtain ⟨i, rfl⟩ := Nat.exists_eq_add_of_le' hj1
  obtain ⟨hentry, hfirst⟩ := buildWindows_step Config.windows Config.base w hw
  obtain ⟨hcurve, hclass⟩ := buildTable_class hw (Nat.lt_of_succ_le hj)
  refine ⟨hcurve, hclass, fun h2 => ?_, fun h => hfirst (Nat.succ_lt_succ h)⟩
  obtain ⟨i, rfl⟩ := Nat.exists_eq_add_of_le' (Nat.le_of_succ_le_succ h2)
  exact hentry i (by omega)

/-! ### The digits of the windowed recoding (42_scalar.md R304, R312) -/

/-- The first `count` digits the windowed recoding takes of k, least significant first. -/
def windowDigits : Nat → (k : Nat) → List Int
  | 0, _ => []
  | count + 1, k => (windowDigit k).1 :: windowDigits count (windowDigit k).2

/-- What is left of k after `count` windows. -/
def windowRest : Nat → (k : Nat) → Nat
  | 0, k => k
  | count + 1, k => windowRest count (windowDigit k).2

theorem windowRest_succ (count : Nat) : ∀ k : Nat,
    windowRest (count + 1) k = (windowDigit (windowRest count k)).2 := by
  induction count with
  | zero => intro k; rfl
  | succ n ih => intro k; exact ih _

theorem windowDigit_carry_eq (k : Nat) : (windowDigit k).2 = (k + 127) / 256 := by
  unfold windowDigit
  simp only
  split <;> simp only <;> omega

/-- A scalar of `count` windows leaves at most the last window's carry. -/
theorem windowRest_le_one (count : Nat) : ∀ k : Nat, k ≤ 256 ^ count → windowRest count k ≤ 1 := by
  induction count with
  | zero => intro k hk; exact hk
  | succ n ih =>
    intro k hk
    refine ih _ ?_
    rw [windowDigit_carry_eq]
    rw [pow_succ] at hk
    omega

/-- One window more takes the carry up. -/
theorem windowRest_succ_eq_zero {count k : Nat} (hk : k ≤ 256 ^ count) :
    windowRest (count + 1) k = 0 := by
  have := windowRest_le_one count k hk
  rw [windowRest_succ, windowDigit_carry_eq]
  omega

theorem windowDigits_bounds (count : Nat) : ∀ k : Nat, ∀ d ∈ windowDigits count k,
    -127 ≤ d ∧ d ≤ 128 := by
  induction count with
  | zero => intro k d hd; cases hd
  | succ n ih =>
    intro k d hd
    rcases List.mem_cons.mp hd with rfl | hd
    · obtain ⟨-, hlo, hhi⟩ := windowDigit_spec k
      exact ⟨hlo, hhi⟩
    · exact ih _ d hd

/-- The digits taken and what is left of k make up k. -/
theorem windowDigits_sum (count : Nat) : ∀ k : Nat,
    (windowDigits count k).foldr (fun (d acc : Int) => d + 256 * acc) 0 +
      256 ^ count * windowRest count k = (k : Int) := by
  induction count with
  | zero => intro k; simp [windowDigits, windowRest]
  | succ n ih =>
    intro k
    obtain ⟨hk, -, -⟩ := windowDigit_spec k
    rw [windowDigits, windowRest, List.foldr_cons]
    linear_combination 256 * ih (windowDigit k).2 - hk

/-- Settles O35: the digits are those of `windowDigits`, and what is left is `windowRest`. -/
theorem windowDigitsAreExact : Obligations.WindowDigitsAreExact := by
  refine ⟨windowDigits, windowRest, fun _ => ⟨rfl, rfl⟩, fun _ _ => ⟨rfl, rfl⟩, fun k hk => ?_⟩
  have h32 : k ≤ 256 ^ 32 := hk.le.trans_eq (by norm_num)
  have hrest : windowRest 33 k = 0 := windowRest_succ_eq_zero h32
  have hsum := windowDigits_sum 33 k
  rw [hrest, Nat.cast_zero, mul_zero, add_zero] at hsum
  have hclass := (wnaf_class_base (Int.natCast_nonneg k) (by exact_mod_cast hk)).2
  exact ⟨windowRest_le_one 32 k h32, hrest, hclass, windowDigits_bounds 33 k, hsum⟩

/-! ### The masks of the non-adjacent form (42_scalar.md R309) -/

/-- `naf_spec` with the length of the form: at most one digit more than k has bits. -/
theorem naf_masks {k : Int} (h0 : 1 ≤ k) (h1 : k < 2 ^ 256) : ∃ a b : Nat,
    naf k = ((a : Int), (b : Int)) ∧ (a : Int) - b = k ∧ IsNaf a b ∧ a < 2 ^ 257 ∧ b < 2 ^ 257 ∧
      (a : Int) < 2 * 2 ^ Nat.size k.toNat := by
  obtain ⟨a, b, hnaf, hsub, ha, hb, hand, hadj⟩ := naf_spec h0 h1
  refine ⟨a, b, hnaf, hsub, ⟨hand, hadj⟩, ha, hb, ?_⟩
  have hpair : (a : Int) = (nafPair 257 k.toNat).1 :=
    congrArg Prod.fst (hnaf.symm.trans (naf_eq k))
  have hlen := nafPair_length 257 k.toNat _ (Nat.lt_size_self k.toNat).le
  rw [pow_succ'] at hlen
  exact hpair.trans_lt (by exact_mod_cast hlen)

end Sys2Proof.Machine
end

section
/-! The commands of the scalar family (42_scalar.md R300, R303, R305–R311): which path each takes, by
the range of its scalars and by its base, and what it then writes. -/

namespace Sys2Proof.Machine

theorem scalarOk_iff (k : Int) : scalarOk k = true ↔ 0 ≤ k ∧ k < 2 ^ 256 := by
  rw [scalarOk, Bool.and_eq_true, decide_eq_true_eq, decide_eq_true_eq, scalarBound_eq]

/-! ### The windowed path (42_scalar.md R303, R304) -/

/-- The windowed path reads the rule's table, built before or built now, and writes P[pd]. -/
theorem writesPoint_of_windowedInto {i : Instr} {s : State} {pd : PIdx} {k : Int}
    (h : exec i s = windowedInto pd k s) (hd : 2 ≤ pd.val) (htab : TableRight s) :
    ∃ t, exec i s = .next t ∧ Succeeded false [] [pd] s t ∧ DrbgKept s t ∧ TableBuilt s t ∧
      readP t pd = wnaf buildTable k := by
  rw [windowedInto, tableOf_of_built htab, succeed_eq] at h
  exact ⟨_, h, succeeded_windowed s pd _, by simp [DrbgKept],
    (tableBuilt_withTable s).congr (by simp) (by simp), readP_writeP_same _ pd _ hd⟩

/-! ### MULG (42_scalar.md R306) -/

theorem exec_mulg_ok {s : State} {rk : RIdx} (h : scalarOk (readR s rk) = true) (pd : PIdx) :
    exec (.mulg pd rk) s = windowedInto pd (readR s rk) s := by
  simp only [exec, execMulg, if_pos h]

theorem exec_mulg_range {s : State} {rk : RIdx} (h : ¬scalarOk (readR s rk) = true) (pd : PIdx) :
    exec (.mulg pd rk) s = fail .range s := by
  simp only [exec, execMulg, if_neg h]

/-- Settles O31, by the class of the windowed multiply. -/
theorem mulgResult : Obligations.MulgResult := by
  intro s pd rk hd htab h0 h1
  obtain ⟨t, ht, hs, hdrbg, hbuilt, hread⟩ := writesPoint_of_windowedInto
    (exec_mulg_ok ((scalarOk_iff _).mpr ⟨h0, h1⟩) pd) hd htab
  obtain ⟨hcurve, heq⟩ := wnaf_class_base h0 h1
  refine ⟨t, ht, hs, hdrbg, hbuilt, ?_⟩
  rw [hread]
  exact ⟨hcurve, heq, fun hz => by rw [hz, wnaf_zero]⟩

/-! ### MUL (42_scalar.md R305) -/

section

variable {s : State} {pb : PIdx} {rk : RIdx}

theorem exec_mul_windowed (h : scalarOk (readR s rk) = true)
    (hb : pointEq (readP s pb) Config.base = true) (pd : PIdx) (safe : Bool) :
    exec (.mul pd pb rk safe) s = windowedInto pd (readR s rk) s := by
  simp only [exec, execMul, if_pos h, if_pos hb]

theorem exec_mul_generic (h : scalarOk (readR s rk) = true)
    (hb : pointEq (readP s pb) Config.base = false) (pd : PIdx) (safe : Bool) :
    exec (.mul pd pb rk safe) s =
      succeed (writeP s pd (generic (readP s pb) (readR s rk) safe)) := by
  simp only [exec, execMul, if_pos h, if_neg (Bool.eq_false_iff.mp hb)]

theorem exec_mul_range (h : ¬scalarOk (readR s rk) = true) (pd pb : PIdx) (safe : Bool) :
    exec (.mul pd pb rk safe) s = fail .range s := by
  simp only [exec, execMul, if_neg h]

end

/-- F changes nothing that MUL writes (42_scalar.md R313). -/
theorem exec_mul_safe (s : State) (pd pb : PIdx) (rk : RIdx) :
    exec (.mul pd pb rk true) s = exec (.mul pd pb rk false) s := by
  simp only [exec, execMul, generic_safe _ _ true]

/-- Settles O32, by whether the base equals G. -/
theorem mulResult : Obligations.MulResult := by
  intro s pd pb rk safe hd htab h0 h1
  have hk := (scalarOk_iff _).mpr ⟨h0, h1⟩
  cases hb : pointEq (readP s pb) Config.base with
  | true =>
    obtain ⟨t, ht, hs, hdrbg, hbuilt, hread⟩ :=
      writesPoint_of_windowedInto (exec_mul_windowed hk hb pd safe) hd htab
    exact ⟨t, ht, hs, hdrbg, fun _ => ⟨hbuilt, hread⟩, nofun,
      fun hp => hread ▸ wnaf_class h0 h1 hp hb⟩
  | false =>
    obtain ⟨t, ht, hs, hdrbg, hkept, hread⟩ :=
      writesPoint_of_succeed (exec_mul_generic hk hb pd safe) hd
    exact ⟨t, ht, hs, hdrbg, nofun, fun _ => ⟨hkept, hread⟩,
      fun hp => hread ▸ generic_class h0 h1 hp safe⟩

/-- Settles O33: the affine forms agree since both multiples stand for k·G, and the balancing mode
reaches no result. -/
theorem windowedAgreesWithGeneric : Obligations.WindowedAgreesWithGeneric := by
  refine ⟨fun k safe h1 hn => ?affine, fun b k => generic_safe b k true, exec_mul_safe⟩
  case affine =>
    have := fact_prime_P
    obtain ⟨b, hb⟩ := exists_rep_base
    have hk : k < 2 ^ 256 := (Int.lt_of_le_sub_one hn).trans (by decide)
    obtain ⟨x, y, e, -⟩ := toAffine_rep (generic_rep hb false (zero_le_one.trans h1) hk)
    rw [toAffine_wnaf_eq ⟨h1, hn⟩, generic_safe Config.base k safe]
    exact ⟨x, y, e, e⟩

/-! ### MULADD (42_scalar.md R307, R308) -/

theorem exec_muladd_ok {s : State} {ru1 ru2 : RIdx} (h1 : scalarOk (readR s ru1) = true)
    (h2 : scalarOk (readR s ru2) = true) (pd pq : PIdx) : exec (.muladd pd ru1 ru2 pq) s =
      succeed (writeP s pd (mulAdd (readR s ru1) (readR s ru2) (readP s pq))) := by
  simp only [exec, execMuladd, h1, h2, Bool.and_self, if_true]

theorem exec_muladd_range {s : State} {ru1 ru2 : RIdx}
    (h : ¬(scalarOk (readR s ru1) = true ∧ scalarOk (readR s ru2) = true)) (pd pq : PIdx) :
    exec (.muladd pd ru1 ru2 pq) s = fail .range s := by
  rw [← Bool.and_eq_true] at h
  simp only [exec, execMuladd, if_neg h]

/-- Settles O37, by the class of the two terms' sum. -/
theorem muladdResult : Obligations.MuladdResult := by
  intro s pd ru1 ru2 pq hd h10 h11 h20 h21
  obtain ⟨t, ht, hs, hdrbg, hkept, hread⟩ := writesPoint_of_succeed (exec_muladd_ok
    ((scalarOk_iff _).mpr ⟨h10, h11⟩) ((scalarOk_iff _).mpr ⟨h20, h21⟩) pd pq) hd
  exact ⟨t, ht, hs, hdrbg, hkept, hread, fun hq => hread ▸ mulAdd_class h10 h11 h20 h21 hq⟩

/-! ### NAF (42_scalar.md R309, R310) -/

/-- NAF's own range leaves 0 out. -/
theorem nafScalarOk_iff (k : Int) :
    (decide (1 ≤ k) && decide (k < Config.scalarBound)) = true ↔ 1 ≤ k ∧ k < 2 ^ 256 := by
  rw [Bool.and_eq_true, decide_eq_true_eq, decide_eq_true_eq, scalarBound_eq]

theorem exec_naf_ok {s : State} {rk : RIdx} (hk : 1 ≤ readR s rk ∧ readR s rk < 2 ^ 256)
    {a b : Int} (h : naf (readR s rk) = (a, b)) (rpos rneg : RIdx) :
    exec (.naf rpos rk rneg) s = succeed (writeR (writeR s rpos a) rneg b) := by
  simp only [exec, execNaf, if_pos ((nafScalarOk_iff _).mpr hk), h]

theorem exec_naf_range {s : State} {rk : RIdx} (h : ¬(1 ≤ readR s rk ∧ readR s rk < 2 ^ 256))
    (rpos rneg : RIdx) : exec (.naf rpos rk rneg) s = fail .range s := by
  simp only [exec, execNaf, if_neg (mt (nafScalarOk_iff _).mp h)]

/-- Settles O38: the masks of `naf_masks`, read back in the order they are written; they are the only
ones by `naf_unique`. -/
theorem nafResult : Obligations.NafResult := by
  intro s rpos rk rneg h0 h1
  obtain ⟨a, b, hnaf, hsub, hform, ha, hb, hlen⟩ := naf_masks h0 h1
  have hpos : readR (writeR s rpos (a : Int)) rpos = a :=
    readR_writeR_result s rpos a (Int.natCast_nonneg a) (by exact_mod_cast ha)
  have hneg : readR (writeR (writeR s rpos (a : Int)) rneg (b : Int)) rneg = b :=
    readR_writeR_result _ rneg b (Int.natCast_nonneg b) (by exact_mod_cast hb)
  exact ⟨_, a, b, (exec_naf_ok ⟨h0, h1⟩ hnaf rpos rneg).trans (succeed_eq _),
    succeeded_writeR₂ s rpos rneg a b, rfl, TableKept.refl s, hneg,
    fun hne => (readR_writeR_ne _ rneg rpos b hne).trans hpos,
    hsub, hform.1, hform.2, by omega, ha, hlen,
    fun a' b' hsub' hand hadj =>
      naf_unique _ a' b' a b le_rfl ⟨hand, hadj⟩ hform (hsub'.trans hsub.symm)⟩

/-! ### PRECOMP (42_scalar.md R311) -/

/-- Settles O36: PRECOMP is the lazy build alone. -/
theorem precompResult : Obligations.PrecompResult := by
  intro s
  have hbuilt : TableBuilt s (complete false (withTable s)) :=
    (tableBuilt_withTable s).congr rfl rfl
  exact ⟨complete false (withTable s), rfl,
    succeeded_complete (intsKept_of_r (by simp)) (pointsKept_of_p (by simp)) (by simp)
      (quiet_withTable s),
    by simp [DrbgKept], hbuilt, (statusWord_bit _ 4).trans hbuilt.1⟩

/-! ### Scalars out of range (42_scalar.md R300, R303, R310) -/

/-- Settles O39: each command checks its scalars before anything else. -/
theorem scalarOutOfRange : Obligations.ScalarOutOfRange := by
  intro s rk ru h
  have hk : ¬scalarOk (readR s rk) = true := mt (scalarOk_iff _).mp h
  refine ⟨fun pd pb pq safe rpos rneg i hi => ?outside, fun s rpos rneg hz => ?zero⟩
  case outside =>
    simp only [List.mem_cons, List.not_mem_nil, or_false] at hi
    rcases hi with rfl | rfl | rfl | rfl | rfl
    · exact errored_of_fail (exec_mul_range hk pd pb safe) rfl
    · exact errored_of_fail (exec_mulg_range hk pd) rfl
    · exact errored_of_fail (exec_muladd_range (mt And.left hk) pd pq) rfl
    · exact errored_of_fail (exec_muladd_range (mt And.right hk) pd pq) rfl
    · exact errored_of_fail (exec_naf_range (mt (And.imp_left zero_le_one.trans) h) rpos rneg) rfl
  case zero => exact errored_of_fail (exec_naf_range (by omega) rpos rneg) rfl

end Sys2Proof.Machine
end

section
/-! The DRBG family (43_drbg.md R352–R358): what DRBGRST and DRBGSEED leave in V, K and CTR, what a
generate call writes, and when it is the fatal one. -/

namespace Sys2Proof.Machine

/-! ### DRBGRST and DRBGSEED (43_drbg.md R356, R357) -/

/-- A command that changes the DRBG alone. -/
theorem succeeded_drbg (s : State) (g : Drbg) :
    Succeeded false [] [] s (complete false { s with drbg := g }) :=
  succeeded_complete (intsKept_of_r rfl) (pointsKept_of_p rfl) rfl (quiet_drbg s g)

theorem exec_drbgrst (s : State) :
    exec .drbgrst s = .next (complete false { s with drbg := .reset }) := rfl

theorem exec_drbgseed (s : State) : exec .drbgseed s =
    .next (complete false { s with drbg := drbgReseed s.drbg (digestBytes s) }) := rfl

theorem digestBytes_eq_nil_iff (s : State) : digestBytes s = [] ↔ s.dlen.toNat = 0 := by
  simp [digestBytes, List.take_eq_nil_iff]

/-- Settles O41: the seed is empty exactly when DLEN = 0, which picks the two-step or the four-step
reseed. -/
theorem drbgResetAndReseed : Obligations.DrbgResetAndReseed := by
  refine fun s => ⟨⟨_, exec_drbgrst s, succeeded_drbg s _, TableKept.refl s, rfl, rfl, rfl⟩,
    ⟨_, exec_drbgseed s, succeeded_drbg s _, TableKept.refl s, drbgReseed_ctr _ _, ?empty, ?full⟩⟩
  case empty =>
    intro h
    have hnil : s.dg.toList.take s.dlen.toNat = [] := (digestBytes_eq_nil_iff s).mpr h
    simp [digestBytes, hnil, drbgReseed_nil]
  case full =>
    intro h
    have hne : digestBytes s ≠ [] := mt (digestBytes_eq_nil_iff s).mp h
    simp only [complete, drbgReseed_ne_nil s.drbg hne]
    exact ⟨rfl, rfl⟩

/-! ### DRBGGEN (43_drbg.md R358) -/

theorem afterGenerate_k (g : Drbg) : (afterGenerate g).k = g.k := by rw [afterGenerate]

/-- The state a successful generate call into R[rd] leaves. -/
def afterDrbggen (rd : RIdx) (s : State) : State :=
  complete false (writeR { s with drbg := afterGenerate s.drbg } rd
    (beInt (afterGenerate s.drbg).v.toList))

/-- The state the generate call past the limit leaves. -/
def afterExhaustion (s : State) : State :=
  raise .fatalDrbg { s with drbg := ⟨s.drbg.v, s.drbg.k, s.drbg.ctr + 1⟩ }

theorem exec_drbggen_ok {s : State} (h : s.drbg.ctr < Config.drbgLimit) (rd : RIdx) :
    exec (.drbggen rd) s = .next (afterDrbggen rd s) := by
  simp only [exec, execDrbggen, drbgGenerate_afterGenerate h]
  rfl

theorem exec_drbggen_exhausted {s : State} (h : Config.drbgLimit ≤ s.drbg.ctr) (rd : RIdx) :
    exec (.drbggen rd) s = .next (afterExhaustion s) := by
  simp only [exec, execDrbggen, drbgGenerate_error h]
  rfl

/-- A command that changes the DRBG and writes one integer register. -/
theorem succeeded_drbg_writeR (s : State) (g : Drbg) (rd : RIdx) (v : Int) :
    Succeeded false [rd] [] s (complete false (writeR { s with drbg := g } rd v)) :=
  succeeded_complete (intsKept_writeR (intsKept_of_r rfl) List.mem_cons_self v)
    (pointsKept_of_p rfl) rfl ((quiet_drbg s g).trans (quiet_writeR _ rd v))

theorem succeeded_afterDrbggen (rd : RIdx) (s : State) :
    Succeeded false [rd] [] s (afterDrbggen rd s) :=
  succeeded_drbg_writeR s _ rd _

theorem afterDrbggen_drbg (rd : RIdx) (s : State) :
    (afterDrbggen rd s).drbg = afterGenerate s.drbg := rfl

theorem tableKept_afterDrbggen (rd : RIdx) (s : State) : TableKept s (afterDrbggen rd s) :=
  ⟨rfl, rfl⟩

theorem died_afterExhaustion (s : State) : Died .fatalDrbg s (afterExhaustion s) :=
  died_raise rfl rfl rfl (quiet_drbg s _)

/-- R[rd] holds the new V as an integer, which fits the register. -/
theorem readR_afterDrbggen (rd : RIdx) (s : State) :
    readR (afterDrbggen rd s) rd = beInt (afterGenerate s.drbg).v.toList :=
  readR_writeR_result _ rd _ (beInt_nonneg _) (lt_257 (beInt_bytes32_lt _))

/-! ### The generate calls from CTR = 0 on (43_drbg.md R354) -/

/-- The state after j generate calls, call number i writing R[dest i]. -/
def generateRun (dest : Nat → RIdx) (s : State) : Nat → State
  | 0 => s
  | j + 1 => afterDrbggen (dest j) (generateRun dest s j)

theorem generateRun_ctr (dest : Nat → RIdx) {s : State} (h : s.drbg.ctr = 0) (j : Nat) :
    (generateRun dest s j).drbg.ctr = j := by
  induction j with
  | zero => exact h
  | succ j ih => exact congrArg (· + 1) ih

/-- Settles O42: a generate call adds 1 to CTR, so after j calls from 0 it is j, and the limit stops
the call that finds it at 1000; the invariant bounds CTR at every step. -/
theorem drbggenResult : Obligations.DrbggenResult := by
  refine ⟨fun s rd => ⟨fun h => ?below, fun h => ?limit⟩,
    fun s t hi h => (stepKeepsInv s t hi h).ctr,
    fun s dest h0 => ⟨generateRun dest s, rfl, fun j hj => ?call, ?last⟩⟩
  case below =>
    refine ⟨_, exec_drbggen_ok h rd, succeeded_afterDrbggen rd s, tableKept_afterDrbggen rd s, ?_⟩
    rw [readR_afterDrbggen, afterDrbggen_drbg]
    exact ⟨rfl, afterGenerate_k _, rfl, beInt_nonneg _, beInt_bytes32_lt _, be32_beInt _⟩
  case limit =>
    exact ⟨_, exec_drbggen_exhausted h.ge rd, died_afterExhaustion s, TableKept.refl s, rfl, rfl,
      congrArg (· + 1) h⟩
  case call =>
    have hlt : (generateRun dest s j).drbg.ctr < Config.drbgLimit := by
      rw [generateRun_ctr dest h0]; exact hj
    exact ⟨exec_drbggen_ok hlt (dest j), (succeeded_afterDrbggen _ _).err,
      generateRun_ctr dest h0 (j + 1)⟩
  case last =>
    have hctr := generateRun_ctr dest h0 1000
    have hdied := died_afterExhaustion (generateRun dest s 1000)
    exact ⟨_, exec_drbggen_exhausted hctr.ge (dest 1000), hdied.cause, congrArg (· + 1) hctr,
      hdied.fatal⟩

end Sys2Proof.Machine
end

section
/-! SIGN (44_ecdsa.md R380–R383): the digest integer, how a run of SIGN ends as a function of the key,
the digest integer and F alone, and the state it leaves when it answers a signature. -/

namespace Sys2Proof.Machine

/-! ### The digest integer (44_ecdsa.md R380) -/

theorem digestBytes_length {s : State} (h : s.dlen.toNat ≤ 64) :
    (digestBytes s).length = s.dlen.toNat := by
  rw [digestBytes, List.length_take, Vector.length_toList, Nat.min_eq_left h]

theorem digestBytes_getD {s : State} {i : Nat} (h : i < s.dlen.toNat) :
    (digestBytes s).getD i 0 = s.dg.toList.getD i 0 := by
  rw [digestBytes, List.getD_eq_getElem?_getD, List.getElem?_take_of_lt h,
    List.getD_eq_getElem?_getD]

/-- The shift by 8·L − 256 bits takes whole bytes, and none of a digest of at most 32. -/
theorem digestIntOf_eq (g : Bytes) :
    digestIntOf g = (beInt g / 256 ^ (g.length - 32)) % Config.n := by
  unfold digestIntOf emod
  simp only
  split
  · rw [show 8 * g.length - 256 = 8 * (g.length - 32) by omega, pow_mul]
    rfl
  · rw [Nat.sub_eq_zero_of_le (by omega), pow_zero, Int.ediv_one]

/-- Settles O43: the integer of the bytes is the sum of `beInt_sum`, over the DLEN bytes of DG. -/
theorem digestInteger : Obligations.DigestInteger := by
  intro s h
  rw [digestInt, digestIntOf_eq, beInt_sum, digestBytes_length h]
  have hbytes : ∀ i ∈ List.range s.dlen.toNat,
      (((digestBytes s).getD i 0).toNat : Int) * 256 ^ (s.dlen.toNat - 1 - i) =
        ((s.dg.toList.getD i 0).toNat : Int) * 256 ^ (s.dlen.toNat - 1 - i) :=
    fun i hi => by rw [digestBytes_getD (List.mem_range.mp hi)]
  rw [List.map_congr_left hbytes]

/-! ### How SIGN ends (44_ecdsa.md R381, R383) -/

/-- What SIGN answers for the key d, the digest integer h and F over the rule's table: the signature
of its run, or the cause it ends with. -/
def signOutcome (d h : Int) (low : Bool) : Except Cause Signature :=
  if validScalar d then (signRun buildTable d h low).outcome else .error .range

/-- The state SIGN leaves when its run answers a signature. -/
def afterSign (rr rs rrec : RIdx) (sig : Signature) (s : State) : State :=
  complete false (writeR (writeR (writeR { withTable s with drbg := .reset } rr sig.r) rs sig.s)
    rrec sig.recid)

/-- A signature SIGN answers is that of an accepted candidate, for a key in [1, n − 1]. -/
theorem accepted_of_signOutcome {d h : Int} {low : Bool} {sig : Signature}
    (ho : signOutcome d h low = .ok sig) : validScalar d = true ∧
      signRun buildTable d h low = ⟨.reset, true, .ok sig⟩ ∧
      Nonempty (Accepted buildTable d h low sig) := by
  unfold signOutcome at ho
  split at ho
  · next hd =>
    have hends := signRun_ends buildTable d h low
    generalize signRun buildTable d h low = run at ho hends ⊢
    obtain ⟨g, u, o⟩ := run
    obtain rfl : o = .ok sig := ho
    rcases hends with ⟨sig', ho', hg, hu, ha⟩ | ⟨ho', -⟩
    · obtain rfl : sig = sig' := Except.ok.inj ho'
      obtain rfl : g = .reset := hg
      obtain rfl : u = true := hu
      exact ⟨hd, rfl, ha⟩
    · cases ho'
  · cases ho

theorem exec_sign (rr rkey rs rrec : RIdx) (low : Bool) (s : State) :
    exec (.sign rr rkey rs rrec low) s = execSign rr rkey rs rrec low s := rfl

section

variable {s : State} {rkey : RIdx} {low : Bool}

theorem exec_sign_range (h : validScalar (readR s rkey) = false) (rr rs rrec : RIdx) :
    exec (.sign rr rkey rs rrec low) s = fail .range s := by
  rw [exec_sign, execSign_range h]

theorem exec_sign_ok (htab : TableRight s) {sig : Signature}
    (h : signOutcome (readR s rkey) (digestInt s) low = .ok sig) (rr rs rrec : RIdx) :
    exec (.sign rr rkey rs rrec low) s = .next (afterSign rr rs rrec sig s) := by
  obtain ⟨hd, hrun, -⟩ := accepted_of_signOutcome h
  rw [← tableOf_of_built htab] at hrun
  rw [exec_sign, execSign_run hd hrun]
  rfl

theorem exec_sign_error (htab : TableRight s) {c : Cause}
    (h : signOutcome (readR s rkey) (digestInt s) low = .error c) (rr rs rrec : RIdx) :
    ∃ s', exec (.sign rr rkey rs rrec low) s = .next (raise c s') := by
  unfold signOutcome at h
  split at h
  · next hd =>
    rw [← tableOf_of_built htab] at h
    rw [exec_sign, execSign_run hd rfl, h]
    exact ⟨_, rfl⟩
  · next hd =>
    obtain rfl := Except.error.inj h
    exact ⟨s, exec_sign_range (Bool.eq_false_iff.mpr hd) rr rs rrec⟩

/-- SIGN without an error has answered a signature. -/
theorem signOutcome_of_exec (htab : TableRight s) {rr rs rrec : RIdx} {t : State}
    (h : exec (.sign rr rkey rs rrec low) s = .next t) (he : t.err = false) : ∃ sig,
      signOutcome (readR s rkey) (digestInt s) low = .ok sig ∧ t = afterSign rr rs rrec sig s := by
  cases ho : signOutcome (readR s rkey) (digestInt s) low with
  | ok sig => exact ⟨sig, rfl, Host.Outcome.next.inj (h.symm.trans (exec_sign_ok htab ho rr rs rrec))⟩
  | error c =>
    obtain ⟨s', hs'⟩ := exec_sign_error htab ho rr rs rrec
    obtain rfl := Host.Outcome.next.inj (h.symm.trans hs')
    cases he

end

/-! ### The state SIGN leaves (44_ecdsa.md R383) -/

section

variable (rr rs rrec : RIdx) (sig : Signature) (s : State)

theorem succeeded_afterSign :
    Succeeded false [rr, rs, rrec] [] s (afterSign rr rs rrec sig s) :=
  succeeded_complete
    (intsKept_writeR (intsKept_writeR (intsKept_writeR (intsKept_of_r (withTable_r s))
      (by simp) _) (by simp) _) (by simp) _)
    (pointsKept_of_p (withTable_p s)) (withTable_fatal s)
    ((quiet_withTable s).trans ((quiet_drbg _ _).trans ((quiet_writeR _ rr _).trans
      ((quiet_writeR _ rs _).trans (quiet_writeR _ rrec _)))))

theorem afterSign_drbg : (afterSign rr rs rrec sig s).drbg = .reset := rfl

theorem tableBuilt_afterSign : TableBuilt s (afterSign rr rs rrec sig s) :=
  (tableBuilt_withTable s).congr rfl rfl

theorem digestInt_afterSign : digestInt (afterSign rr rs rrec sig s) = digestInt s :=
  have hq := (succeeded_afterSign rr rs rrec sig s).quiet
  digestInt_congr hq.dg hq.dlen

end

theorem n_lt : Config.n < 2 ^ 256 := n_lt_P.trans P_lt

section

variable {rr rs rrec : RIdx} {d h : Int} {low : Bool} {sig : Signature}
  (a : Accepted buildTable d h low sig) (s : State)

include a

/-- The parts of a signature fit an integer register (10_state.md R44). -/
theorem Accepted.fits : (0 ≤ sig.r ∧ sig.r < 2 ^ 257) ∧ (0 ≤ sig.s ∧ sig.s < 2 ^ 257) ∧
    (0 ≤ sig.recid ∧ sig.recid < 2 ^ 257) := by
  obtain ⟨⟨r0, r1⟩, ⟨s0, s1⟩, -, c0, c1⟩ := a.range
  have hn := n_lt
  exact ⟨⟨by omega, lt_257 (by omega)⟩, ⟨by omega, lt_257 (by omega)⟩, c0, lt_257 (by omega)⟩

theorem readR_afterSign_recid : readR (afterSign rr rs rrec sig s) rrec = sig.recid :=
  have ⟨_, _, h0, h1⟩ := a.fits
  readR_writeR_result _ rrec _ h0 h1

theorem readR_afterSign_s (h : rs ≠ rrec) : readR (afterSign rr rs rrec sig s) rs = sig.s :=
  have ⟨_, ⟨h0, h1⟩, _⟩ := a.fits
  (readR_writeR_ne _ rrec rs _ h).trans (readR_writeR_result _ rs _ h0 h1)

theorem readR_afterSign_r (h : rr ≠ rs) (h' : rr ≠ rrec) :
    readR (afterSign rr rs rrec sig s) rr = sig.r :=
  have ⟨⟨h0, h1⟩, _⟩ := a.fits
  (readR_writeR_ne _ rrec rr _ h').trans
    ((readR_writeR_ne _ rs rr _ h).trans (readR_writeR_result _ rr _ h0 h1))

end

/-- Settles O44: the candidates before the first usable one are rejected, so the driver's run answers
that one's signature, and SIGN writes it. -/
theorem signTakesFirstUsableCandidate : Obligations.SignTakesFirstUsableCandidate := by
  intro s rr rkey rs rrec low j sig hd1 hd2 htab hj h candidate hbefore hsig
  have haccept := signCandidate_of_signature hsig
  have hrun : signRun buildTable (readR s rkey) h low = ⟨.reset, true, .ok sig⟩ :=
    drbgRun_accepts hj (fun i hi => signCandidate_of_none (hbefore i hi)) haccept
  have hout : signOutcome (readR s rkey) h low = .ok sig := by
    rw [signOutcome, if_pos ((validScalar_iff _).mpr ⟨hd1, hd2⟩), hrun]
  obtain ⟨-, ⟨a⟩⟩ := signCandidate_accept haccept
  obtain ⟨⟨hr0, hr1⟩, ⟨hs0, hs1⟩, hlow, hc0, hc1⟩ := a.range
  exact ⟨_, exec_sign_ok htab hout rr rs rrec, succeeded_afterSign rr rs rrec sig s,
    afterSign_drbg rr rs rrec sig s, tableBuilt_afterSign rr rs rrec sig s,
    readR_afterSign_recid a s, readR_afterSign_s a s, readR_afterSign_r a s,
    hr0, hr1, hs0, hs1, hc0, hc1, hlow⟩

/-- Settles O45: the key is checked before the run, and `drbgRun_exhausts` is said of every predicate. -/
theorem signErrors : Obligations.SignErrors := by
  refine ⟨fun s rr rkey rs rrec low h => ?range, fun pred seed h => ?exhausted⟩
  case range =>
    have hv := Bool.eq_false_iff.mpr (mt (validScalar_iff _).mp h)
    exact errored_of_fail (exec_sign_range hv rr rs rrec) rfl
  case exhausted => exact drbgRun_exhausts h

/-! ### SIGN is a pure function (44_ecdsa.md R383) -/

/-- After a write to R[i] two states agree on R[j] if they did before, or if j = i. -/
theorem readR_writeR_congr {s s' : State} {i j : RIdx} (v : Int)
    (h : j ≠ i → readR s' j = readR s j) :
    readR (writeR s' i v) j = readR (writeR s i v) j := by
  by_cases hj : j = i
  · subst hj
    simp only [readR, writeR_r, Fin.getElem_fin, Vector.getElem_set_self]
  · rw [readR_writeR_ne _ _ _ _ hj, readR_writeR_ne _ _ _ _ hj, h hj]

theorem readR_afterSign_congr {rr rs rrec j : RIdx} (hj : j ∈ [rr, rs, rrec]) (sig : Signature)
    (s s' : State) : readR (afterSign rr rs rrec sig s') j = readR (afterSign rr rs rrec sig s) j :=
  readR_writeR_congr _ fun hrec => readR_writeR_congr _ fun hs => readR_writeR_congr _ fun hr =>
    absurd hj (by simp [hr, hs, hrec])

/-- Settles O46: both states have the same `signOutcome`. -/
theorem signIsPure : Obligations.SignIsPure := by
  intro s s' t t' rr rkey rs rrec low htab htab' hkey hdigest ht ht'
  have hsame : signOutcome (readR s' rkey) (digestInt s') low =
      signOutcome (readR s rkey) (digestInt s) low := by rw [hkey, hdigest]
  cases ho : signOutcome (readR s rkey) (digestInt s) low with
  | ok sig =>
    obtain rfl := Host.Outcome.next.inj (ht.symm.trans (exec_sign_ok htab ho rr rs rrec))
    obtain rfl := Host.Outcome.next.inj
      (ht'.symm.trans (exec_sign_ok htab' (hsame.trans ho) rr rs rrec))
    exact ⟨rfl, fun _ => ⟨rfl, fun j hj => readR_afterSign_congr hj sig s s'⟩⟩
  | error c =>
    obtain ⟨u, hu⟩ := exec_sign_error htab ho rr rs rrec
    obtain ⟨u', hu'⟩ := exec_sign_error htab' (hsame.trans ho) rr rs rrec
    obtain rfl := Host.Outcome.next.inj (ht.symm.trans hu)
    obtain rfl := Host.Outcome.next.inj (ht'.symm.trans hu')
    exact ⟨rfl, nofun⟩

end Sys2Proof.Machine
end

section
/-! RECOVER (44_ecdsa.md R385): its checks in their order (60_exceptions.md R453), and the point it
writes when they pass. -/

namespace Sys2Proof.Machine

/-! ### The x-coordinate (44_ecdsa.md R385, step 2) -/

/-- The x-coordinate RECOVER takes: bit 1 of recoveryId is set for 2 and 3. -/
def recoverX (r recid : Int) : Int := if 2 ≤ recid then r + Config.n else r

theorem recoverX_eq {recid : Int} (hrec : 0 ≤ recid ∧ recid ≤ 3) (r : Int) :
    (if recid / 2 = 1 then r + Config.n else r) = recoverX r recid := by
  rw [recoverX]
  congr 1
  exact propext ⟨by omega, by omega⟩

/-- It is r modulo n (44_ecdsa.md R386). -/
theorem recoverX_modEq (r recid : Int) : recoverX r recid ≡ r [ZMOD Config.n] := by
  unfold recoverX
  split
  · exact Int.add_emod_right r Config.n
  · exact Int.ModEq.rfl

theorem recoverX_nonneg {r : Int} (hr : 1 ≤ r) (recid : Int) : 0 ≤ recoverX r recid := by
  have := n_pos
  unfold recoverX
  split <;> omega

/-! ### The checks and the result -/

section

variable {h r s recid : Int}

theorem recoverPoint_badRecid (hrec : ¬(0 ≤ recid ∧ recid ≤ 3)) :
    recoverPoint h r s recid = .error .badRecid := by
  rw [recoverPoint, if_pos hrec]

theorem recoverPoint_range (hrec : 0 ≤ recid ∧ recid ≤ 3)
    (hv : ¬((1 ≤ r ∧ r ≤ Config.n - 1) ∧ (1 ≤ s ∧ s ≤ Config.n - 1))) :
    recoverPoint h r s recid = .error .range := by
  have hv' : (validScalar r && validScalar s) = false := by
    rwa [Bool.eq_false_iff, Ne, Bool.and_eq_true, validScalar_iff, validScalar_iff]
  rw [recoverPoint, if_neg (not_not.mpr hrec), if_pos (by rw [hv']; rfl)]

section

variable (hrec : 0 ≤ recid ∧ recid ≤ 3) (hr : 1 ≤ r ∧ r ≤ Config.n - 1)
  (hs : 1 ≤ s ∧ s ≤ Config.n - 1)

include hrec hr hs

theorem recoverPoint_xOverflow (hx : Config.P ≤ recoverX r recid) :
    recoverPoint h r s recid = .error .xOverflow := by
  have hv : (validScalar r && validScalar s) = true := by
    rw [Bool.and_eq_true]; exact ⟨(validScalar_iff r).mpr hr, (validScalar_iff s).mpr hs⟩
  rw [← recoverX_eq hrec] at hx
  rw [recoverPoint, if_neg (not_not.mpr hrec), if_neg (by rw [hv]; decide)]
  exact if_pos hx

theorem recoverPoint_noSqrt (hx : recoverX r recid < Config.P)
    (hno : ¬∃ y : Int, (y * y) % Config.P = (recoverX r recid ^ 3 + 7) % Config.P) :
    recoverPoint h r s recid = .error .noSqrt := by
  have hspec := recover_spec (h := h) hrec hr hs (by rwa [recoverX_eq hrec])
  simp only [recoverX_eq hrec] at hspec
  rcases hspec with ⟨rp, hf, -⟩ | ⟨-, he⟩
  · cases hf.symm.trans (fromX_of_nonsquare _ hno)
  · exact he

/-- The inverse RECOVER takes is one of r, because the x-coordinate is r modulo n. -/
theorem recoverPoint_ok (hx : recoverX r recid < Config.P) {y : Int}
    (hy : (y * y) % Config.P = (recoverX r recid ^ 3 + 7) % Config.P) :
    ∃ (rp : Point) (w : Int), rp.isCurvePoint ∧ rp.X = recoverX r recid ∧ rp.Z = 1 ∧
      (rp.Y * rp.Y) % Config.P = (recoverX r recid ^ 3 + 7) % Config.P ∧
      rp.Y % 2 = recid % 2 ∧ (r * w) % Config.n = 1 ∧ recoverPoint h r s recid =
        .ok (mulAdd (emod (-h * w) Config.n) (emod (s * w) Config.n) rp) := by
  have hspec := recover_spec (h := h) hrec hr hs (by rwa [recoverX_eq hrec])
  simp only [recoverX_eq hrec] at hspec
  rcases hspec with ⟨rp, hf, w, -, -, hw, he⟩ | ⟨hf, -⟩
  · have hcoord := (coordOk_iff _).mpr ⟨recoverX_nonneg hr.1 recid, hx⟩
    obtain ⟨hX, hZ, -, hsq, hodd⟩ := fromX_coordinates hcoord hf
    rw [decide_eq_true_eq] at hodd
    refine ⟨rp, w, fromX_isCurvePoint hcoord hf, hX, hZ, hsq, by omega, ?_, he⟩
    rw [mul_comm]
    exact ((recoverX_modEq r recid).symm.mul_left w).eq.trans hw
  · obtain ⟨q, hq⟩ := fromX_of_square (decide (recid % 2 = 1)) hy
    cases hf.symm.trans hq

end

end

/-! ### The command -/

theorem exec_recover (pd : PIdx) (rr rs rrec : RIdx) (s : State) :
    exec (.recover pd rr rs rrec) s = execRecover pd rr rs rrec s := rfl

section

variable {s : State} {rr rs rrec : RIdx}

theorem exec_recover_error {c : Cause}
    (h : recoverPoint (digestInt s) (readR s rr) (readR s rs) (readR s rrec) = .error c)
    (pd : PIdx) : exec (.recover pd rr rs rrec) s = fail c s := by
  rw [exec_recover]
  unfold execRecover
  rw [h]

theorem exec_recover_ok {q : Point}
    (h : recoverPoint (digestInt s) (readR s rr) (readR s rs) (readR s rrec) = .ok q)
    (pd : PIdx) : exec (.recover pd rr rs rrec) s = succeed (writeP s pd q) := by
  rw [exec_recover]
  unfold execRecover
  rw [h]

end

/-- Settles O48, by the check that decides. -/
theorem recoverResult : Obligations.RecoverResult := by
  intro s pd rr rs rrec hd r recid ranges radj onCurve Raises
  have raises {c : Cause} (hc : c.isFatal = false)
      (h : recoverPoint (digestInt s) r (readR s rs) recid = .error c) : Raises c :=
    errored_of_fail (exec_recover_error h pd) hc
  refine ⟨fun hrec => ?badRecid, fun h0 h3 hv => ?range,
    fun h0 h3 ⟨hr0, hr1, hs⟩ hx => ?xOverflow, fun h0 h3 ⟨hr0, hr1, hs⟩ hx hno => ?noSqrt,
    fun h0 h3 ⟨hr0, hr1, hs⟩ hx ⟨y, hy⟩ => ?point⟩
  case badRecid => exact raises rfl (recoverPoint_badRecid hrec)
  case range => exact raises rfl (recoverPoint_range ⟨h0, h3⟩ (by rwa [and_assoc]))
  case xOverflow => exact raises rfl (recoverPoint_xOverflow ⟨h0, h3⟩ ⟨hr0, hr1⟩ hs hx)
  case noSqrt => exact raises rfl (recoverPoint_noSqrt ⟨h0, h3⟩ ⟨hr0, hr1⟩ hs hx hno)
  case point =>
    have := fact_prime_P
    obtain ⟨rp, w, hcurve, hX, hZ, -, hY, hw, he⟩ :=
      recoverPoint_ok (h := digestInt s) ⟨h0, h3⟩ ⟨hr0, hr1⟩ hs hx hy
    obtain ⟨t, ht, hsucc, hdrbg, htab, hread⟩ :=
      writesPoint_of_succeed (exec_recover_ok he pd) hd
    exact ⟨t, rp, w, _, _, ht, hsucc, hdrbg, htab, hcurve, hX, hZ, hY, hw,
      emod_nonneg n_pos, emod_lt n_pos, Int.emod_emod_of_dvd _ dvd_rfl,
      emod_nonneg n_pos, emod_lt n_pos, Int.emod_emod_of_dvd _ dvd_rfl, hread,
      hread ▸ mulAdd_closed closed_isCurvePoint hcurve _ _⟩

end Sys2Proof.Machine
end

section
/-! The round trip (44_ecdsa.md R386, R387): the ephemeral point a signature stands for, and that
VERIFY and RECOVER find it again from the signature SIGN wrote and the public key d·G. -/

namespace Sys2Proof.Machine

/-! ### Integers modulo n -/

theorem intCast_n_eq_iff (a b : Int) :
    ((a : ZMod Config.n.toNat) = (b : ZMod Config.n.toNat)) ↔ a % Config.n = b % Config.n := by
  have h := ZMod.intCast_eq_intCast_iff' a b Config.n.toNat
  rwa [n_cast] at h

theorem cast_emod_n (a : Int) : ((emod a Config.n : Int) : ZMod Config.n.toNat) = a :=
  (intCast_n_eq_iff _ _).mpr (Int.emod_emod_of_dvd a dvd_rfl)

/-- The equation of a signature solved for the nonce, as VERIFY does: (h + r·d)/s ≡ k. -/
theorem verify_sum_emod {d h k r s w : Int} (heq : (k * s) % Config.n = (h + d * r) % Config.n)
    (hw : (w * s) % Config.n = 1) :
    (emod (h * w) Config.n + emod (r * w) Config.n * d) % Config.n = k % Config.n := by
  rw [← show (1 : Int) % Config.n = 1 by decide] at hw
  rw [← intCast_n_eq_iff] at heq hw ⊢
  push_cast [cast_emod_n] at heq hw ⊢
  linear_combination (k : ZMod Config.n.toNat) * hw - (w : ZMod Config.n.toNat) * heq

/-- The equation of a signature solved for the key, as RECOVER does: (s·k − h)/r ≡ d. -/
theorem recover_sum_emod {d h k r s w : Int} (heq : (k * s) % Config.n = (h + d * r) % Config.n)
    (hw : (r * w) % Config.n = 1) :
    (emod (-h * w) Config.n + emod (s * w) Config.n * k) % Config.n = d % Config.n := by
  rw [← show (1 : Int) % Config.n = 1 by decide] at hw
  rw [← intCast_n_eq_iff] at heq hw ⊢
  push_cast [cast_emod_n] at heq hw ⊢
  linear_combination (d : ZMod Config.n.toNat) * hw + (w : ZMod Config.n.toNat) * heq

/-- An x-coordinate is its residue modulo n, or that and n, because P < 2·n (44_ecdsa.md R386). -/
theorem eq_add_n_of_emod {x r : Int} (h0 : 0 ≤ x) (h1 : x < Config.P) (h : x % Config.n = r)
    (hne : x ≠ r) : x = r + Config.n := by
  have hP : Config.P < 2 * Config.n := by decide
  rcases lt_or_ge x Config.n with hlt | hge
  · exact absurd ((Int.emod_eq_of_lt h0 hlt).symm.trans h) hne
  · rw [← Int.sub_emod_right, Int.emod_eq_of_lt (by omega) (by omega)] at h
    omega

section

variable [Fact (Nat.Prime Config.P.toNat)]

/-- A square has one root of each parity, because P is odd (44_ecdsa.md R386). -/
theorem root_eq_of_parity {y z : Int} (hy0 : 0 < y) (hyP : y < Config.P) (hz0 : 0 ≤ z)
    (hzP : z < Config.P) (hsq : (z * z) % Config.P = (y * y) % Config.P) (hpar : z % 2 = y % 2) :
    z = y := by
  have hcast := (intCast_eq_iff _ _).mpr hsq
  push_cast at hcast
  rcases mul_self_eq_mul_self_iff.mp hcast with h | h
  · exact eq_of_cast hz0 hzP hy0.le hyP h
  · have hneg : z = Config.P - y := by
      refine eq_of_cast hz0 hzP (by omega) (by omega) ?_
      rw [h, Int.cast_sub, intCast_P, zero_sub]
    have hodd : Config.P % 2 = 1 := by decide
    omega

/-! ### The ephemeral point of a signature (44_ecdsa.md R386) -/

/-- The signature stands for the point k·G of affine coordinates (x, y): k·s ≡ h + d·r, r is x modulo
n, and recoveryId tells x from r and the parity of y. -/
structure Ephemeral (b : curve.Point) (d h : Int) (sig : Signature) (k x y : Int) : Prop where
  affine : ∃ p, Rep p (k • b) ∧ toAffine p = .ok (x, y)
  ne_zero : k • b ≠ 0
  equation : (k * sig.s) % Config.n = (h + d * sig.r) % Config.n
  x_nonneg : 0 ≤ x
  x_lt : x < Config.P
  x_emod : x % Config.n = sig.r
  y_pos : 0 < y
  y_lt : y < Config.P
  onCurve : (y * y) % Config.P = (x ^ 3 + 7) % Config.P
  recid : sig.recid = (if x ≠ sig.r then 2 else 0) + y % 2

section

variable {b : curve.Point} {d h : Int} {low : Bool} {sig : Signature}

/-- The x-coordinate RECOVER takes is that of the ephemeral point. -/
theorem Ephemeral.recoverX_eq {k x y : Int} (e : Ephemeral b d h sig k x y) :
    recoverX sig.r sig.recid = x := by
  have hrec := e.recid
  unfold recoverX
  by_cases hx : x = sig.r
  · rw [if_neg (by rw [hrec, if_neg (not_not.mpr hx)]; omega), hx]
  · rw [if_pos (by rw [hrec, if_pos hx]; omega),
      ← eq_add_n_of_emod e.x_nonneg e.x_lt e.x_emod hx]

variable (hb : Rep Config.base b)

include hb

/-- An accepted candidate's point, or its negative where low-S replaced s by n − s. -/
theorem Accepted.ephemeral (a : Accepted buildTable d h low sig) :
    ∃ k x y, Ephemeral b d h sig k x y := by
  obtain ⟨hk0, hk1⟩ := a.kRange
  have hn := n_lt
  have hp := wnaf_rep_zsmul hb (k := a.k) (by omega) (by omega)
  have hq := rep_neg hp
  obtain ⟨x', y', hneg, -⟩ := toAffine_rep hq
  have hne : a.k • b ≠ 0 :=
    zsmul_base_ne_zero hb (by rw [Int.emod_eq_of_lt (by omega) (by omega)]; omega)
  obtain ⟨rfl, hy', hx0, hxP, hy0, hyP, hcurve⟩ := toAffine_neg hp hq a.affine hneg hne
  rcases a.final with ⟨-, -, hs, hrec⟩ | ⟨-, hs, hrec⟩
  · have hp' : Rep (wnaf buildTable a.k) (- -(a.k • b)) := by rw [neg_neg]; exact hp
    obtain ⟨-, -, -, -, hy0', hyP', hcurve'⟩ :=
      toAffine_neg hq hp' hneg a.affine (neg_ne_zero.mpr hne)
    have hodd : Config.P % 2 = 1 := by decide
    have hpar : y' % 2 = 1 - a.y % 2 := by omega
    rw [← neg_zsmul] at hq
    refine ⟨-a.k, a.x, y', ⟨⟨_, hq, hneg⟩, by rwa [neg_zsmul, neg_ne_zero], ?_,
      hx0, hxP, a.rEq.symm, hy0', hyP', hcurve', by rw [hpar, hrec]⟩⟩
    rw [hs, ← a.equation, show -a.k * (Config.n - a.s0) = a.k * a.s0 + Config.n * -a.k by ring,
      Int.add_mul_emod_self_left]
  · exact ⟨a.k, a.x, a.y, ⟨⟨_, hp, a.affine⟩, hne, by rw [hs, a.equation],
      hx0, hxP, a.rEq.symm, hy0, hyP, hcurve, hrec⟩⟩

/-- The two terms of MULADD on multiples of G add up to a multiple of G (42_scalar.md R307). -/
theorem mulAdd_rep_multiple {q : Point} {j k u v : Int} (hq : Rep q (j • b))
    (hk : (emod u Config.n + emod v Config.n * j) % Config.n = k % Config.n) :
    Rep (mulAdd (emod u Config.n) (emod v Config.n) q) (k • b) := by
  have h := mulAdd_rep hb hq (emod_nonneg n_pos) ((emod_lt (a := u) n_pos).trans n_lt)
    (emod_nonneg n_pos) ((emod_lt (a := v) n_pos).trans n_lt)
  rwa [toNat_smul (emod_nonneg n_pos), toNat_smul (emod_nonneg n_pos), ← mul_zsmul, ← add_zsmul,
    (zsmul_base_eq_iff hb _ k).mpr hk] at h

/-! ### VERIFY and RECOVER find it again -/

/-- VERIFY's point is the ephemeral point, so its x-coordinate is r modulo n. -/
theorem Accepted.verifies (a : Accepted buildTable d h low sig) {q : Point}
    (hq : Rep q (d • b)) : verifySignature h sig.r sig.s q low = .ok true := by
  obtain ⟨k, x, y, e⟩ := a.ephemeral hb
  obtain ⟨hr, hs, hlow, -⟩ := a.range
  obtain ⟨w, -, hw0, hw1, hw⟩ := invert_scalar hs
  obtain ⟨p, hp, haff⟩ := e.affine
  have hsum := mulAdd_rep_multiple hb hq (verify_sum_emod e.equation hw)
  obtain ⟨valid, hv, hiff⟩ := verify_spec h sig.r sig.s q low
  rw [hv, hiff.mpr ⟨hr, hs, hlow, w, x, y, hw0, hw1, hw, (toAffine_congr hsum hp).trans haff,
    e.x_emod⟩]

/-- RECOVER's point of x-coordinate r or r + n is the ephemeral point, by its parity, and the sum it
takes is d·G. -/
theorem Accepted.recovers (a : Accepted buildTable d h low sig) :
    ∃ q, recoverPoint h sig.r sig.s sig.recid = .ok q ∧ Rep q (d • b) := by
  obtain ⟨k, x, y, e⟩ := a.ephemeral hb
  obtain ⟨hr, hs, -, hrec⟩ := a.range
  have hX := e.recoverX_eq
  obtain ⟨rp, w, hcurve, hrpX, hrpZ, hsq, hpar, hw, hok⟩ := recoverPoint_ok (h := h) hrec hr hs
    (by rw [hX]; exact e.x_lt) (by rw [hX]; exact e.onCurve)
  rw [hX] at hrpX hsq
  have hpar' : rp.Y % 2 = y % 2 := by rw [hpar, e.recid]; split <;> omega
  obtain ⟨-, hYP, -⟩ := hcurve.1
  have hY : rp.Y = y := root_eq_of_parity e.y_pos e.y_lt (Y_nonneg rp) hYP
    (hsq.trans e.onCurve.symm) hpar'
  obtain ⟨g, hg⟩ := (isCurvePoint_iff rp).mp hcurve
  obtain ⟨p, hp, haff⟩ := e.affine
  have haff' : toAffine rp = toAffine p := by
    rw [toAffine_one hcurve.1 hrpZ, hrpX, hY, haff]
  obtain rfl := rep_eq_of_affine hg hp haff' (rep_ne_zero_of_one hg hrpZ) e.ne_zero
  exact ⟨_, hok, mulAdd_rep_multiple hb hg (recover_sum_emod e.equation hw)⟩

end

end

/-! ### SIGN, then MULG, then VERIFY or RECOVER (44_ecdsa.md R387) -/

theorem exec_verify_ok {s : State} {rr rs : RIdx} {pq : PIdx} {low valid : Bool}
    (h : verifySignature (digestInt s) (readR s rr) (readR s rs) (readP s pq) low = .ok valid) :
    exec (.verify rr rs pq low) s = .next (complete valid s) := by
  have hx : exec (.verify rr rs pq low) s = execVerify rr rs pq low s := rfl
  rw [hx]
  unfold execVerify
  rw [h]
  rfl

/-- After SIGN and MULG of its key: the signature of an accepted candidate in the destinations, d·G in
P[pd], and the digest as it was. -/
structure Signed (rr rs rrec : RIdx) (pd : PIdx) (low : Bool) (d h : Int) (u : State) : Prop where
  accepted : ∃ sig, Nonempty (Accepted buildTable d h low sig) ∧ readR u rr = sig.r ∧
    readR u rs = sig.s ∧ readR u rrec = sig.recid
  digest : digestInt u = h
  publicKey : readP u pd = wnaf buildTable d
  key : 1 ≤ d ∧ d ≤ Config.n - 1

theorem signed_of_exec {s t u : State} {rr rkey rs rrec : RIdx} {pd : PIdx} {low : Bool}
    (hpd : 2 ≤ pd.val) (hrs : rr ≠ rs) (hrrec : rr ≠ rrec) (hsrec : rs ≠ rrec)
    (hkey : rkey ∉ [rr, rs, rrec]) (htab : TableRight s)
    (ht : exec (.sign rr rkey rs rrec low) s = .next t) (he : t.err = false)
    (hu : exec (.mulg pd rkey) t = .next u) :
    Signed rr rs rrec pd low (readR s rkey) (digestInt s) u := by
  obtain ⟨sig, ho, rfl⟩ := signOutcome_of_exec htab ht he
  obtain ⟨hd, -, ⟨a⟩⟩ := accepted_of_signOutcome ho
  have hd := (validScalar_iff _).mp hd
  have hsign := succeeded_afterSign rr rs rrec sig s
  have hd' : readR (afterSign rr rs rrec sig s) rkey = readR s rkey := hsign.intsKept rkey hkey
  have hn := n_lt
  have hscalar : scalarOk (readR (afterSign rr rs rrec sig s) rkey) = true :=
    (scalarOk_iff _).mpr (by omega)
  obtain ⟨u', hu', hmulg, -, -, hread⟩ := writesPoint_of_windowedInto
    (exec_mulg_ok hscalar pd) hpd fun _ => (tableBuilt_afterSign rr rs rrec sig s).tbl_eq htab
  obtain rfl := Host.Outcome.next.inj (hu.symm.trans hu')
  have hkept (i : RIdx) : readR u i = readR (afterSign rr rs rrec sig s) i :=
    hmulg.intsKept i List.not_mem_nil
  exact
    { accepted := ⟨sig, ⟨a⟩, (hkept rr).trans (readR_afterSign_r a s hrs hrrec),
        (hkept rs).trans (readR_afterSign_s a s hsrec),
        (hkept rrec).trans (readR_afterSign_recid a s)⟩
      digest := (digestInt_congr hmulg.quiet.dg hmulg.quiet.dlen).trans
        (digestInt_afterSign rr rs rrec sig s)
      publicKey := by rw [hread, hd']
      key := hd }

theorem Signed.publicKey_rep [Fact (Nat.Prime Config.P.toNat)] {rr rs rrec : RIdx} {pd : PIdx}
    {low : Bool} {d h : Int} {u : State} (hs : Signed rr rs rrec pd low d h u)
    {b : curve.Point} (hb : Rep Config.base b) : Rep (readP u pd) (d • b) := by
  obtain ⟨h0, h1⟩ := hs.key
  have hn := n_lt
  rw [hs.publicKey]
  exact wnaf_rep_zsmul hb (by omega) (by omega)

/-- Settles O49: VERIFY's predicate holds of an accepted candidate's signature and d·G. -/
theorem verifyAcceptsWhatSignWrote : Obligations.VerifyAcceptsWhatSignWrote := by
  intro s t u v rr rkey rs rrec pd low hpd hrs hrrec hsrec hkey htab ht he hu hv
  have := fact_prime_P
  obtain ⟨b, hb⟩ := exists_rep_base
  have hsigned := signed_of_exec hpd hrs hrrec hsrec hkey htab ht he hu
  obtain ⟨sig, ⟨a⟩, hr, hs, -⟩ := hsigned.accepted
  have hvalid := a.verifies hb (hsigned.publicKey_rep hb)
  rw [← hr, ← hs, ← hsigned.digest] at hvalid
  obtain rfl := Host.Outcome.next.inj (hv.symm.trans (exec_verify_ok hvalid))
  exact complete_result true u

/-- Settles O50: RECOVER's point stands for the point d·G that MULG's stands for. -/
theorem recoverFindsTheSigner : Obligations.RecoverFindsTheSigner := by
  intro s t u v rr rkey rs rrec pd pq low hpd hpq hne hrs hrrec hsrec hkey htab ht he hu hv
  have := fact_prime_P
  obtain ⟨b, hb⟩ := exists_rep_base
  have hsigned := signed_of_exec hpd hrs hrrec hsrec hkey htab ht he hu
  obtain ⟨sig, ⟨a⟩, hr, hs, hrec⟩ := hsigned.accepted
  obtain ⟨q, hq, hrep⟩ := a.recovers hb
  rw [← hr, ← hs, ← hrec, ← hsigned.digest] at hq
  obtain ⟨v', hv', hsucc, -, -, hread⟩ := writesPoint_of_succeed (exec_recover_ok hq pq) hpq
  obtain rfl := Host.Outcome.next.inj (hv.symm.trans hv')
  have hkept : readP v pd = readP u pd := hsucc.pointsKept pd (by simpa using hne)
  rw [hread, hkept]
  exact ⟨hsucc.err, (isCurvePoint_iff q).mpr ⟨_, hrep⟩,
    (pointEq_rep hrep (hsigned.publicKey_rep hb)).mpr rfl⟩

end Sys2Proof.Machine
end

section
/-! Completions (60_exceptions.md R450–R458): what every command's end has in common, the
recoverable error of a command or of a word that is none, and the fatal exhaustion of the DRBG. -/

namespace Sys2Proof.Machine

/-! ### Every command completes -/

theorem Quiet.raise {s t : State} (h : Quiet s t) (c : Cause) : Quiet s (raise c t) := { h with }

theorem Quiet.complete {s t : State} (h : Quiet s t) (b : Bool) : Quiet s (complete b t) :=
  { h with }

/-- However a command ends, it leaves what no completion changes (60_exceptions.md R454, R455,
R458). -/
theorem Ends.quiet {i : Instr} {s t : State} (he : Ends i s t) : Quiet s t := by
  cases he with
  | error | invariant => exact (Quiet.refl s).raise _
  | exhausted s' _ _ hq => exact hq.raise _
  | done b s' w => exact w.quiet.complete b

/-- ERR is set with a cause and only with one (60_exceptions.md R450). -/
theorem Ends.err_iff {i : Instr} {s t : State} (he : Ends i s t) :
    t.err = true ↔ t.cause ≠ .none := by
  cases he with
  | error c _ hn => exact iff_of_true rfl hn
  | invariant | exhausted => exact iff_of_true rfl nofun
  | done => exact iff_of_false nofun fun h => h rfl

/-- Only a fatal cause sets FATAL (60_exceptions.md R451). -/
theorem Ends.fatal_eq {i : Instr} {s t : State} (he : Ends i s t) :
    t.fatal = (s.fatal || t.cause.isFatal) := by
  cases he with
  | error | invariant => rfl
  | exhausted s' _ _ _ hf => exact congrArg (· || true) hf
  | done b s' w => exact w.fatal.trans (Bool.or_false _).symm

/-- RESULT is set by the two commands that report one, and not with an error (10_state.md R63). -/
theorem Ends.result {i : Instr} {s t : State} (he : Ends i s t) (h : t.result = true) :
    t.err = false ∧
      ((∃ pa pb, i = .peq pa pb) ∨ ∃ rr rs pq low, i = .verify rr rs pq low) := by
  cases he with
  | error | invariant | exhausted => cases h
  | done b s' w => exact ⟨rfl, w.result h⟩

/-- Settles O13, from what all the ways a command ends have in common. -/
theorem everyCommandCompletes : Obligations.EveryCommandCompletes := by
  intro i s
  obtain ⟨t, ht, he⟩ := exec_ends i s
  exact ⟨t, ht, he.completes.1, he.completes.2, he.err_iff, he.fatal_eq, he.quiet, he.result⟩

/-! ### Recoverable errors (60_exceptions.md R452, R455, R461, R462) -/

/-- The step at the end of the delay of a word that fails decode raises ILLEGAL. -/
theorem step_illegal {s : State} {e : DecodeReject} (h : s.inFlight = some 0)
    (hd : decode s.cmdlog = .error e) : step s = .next (raise .illegal s) := by
  rw [step_completes h]
  unfold completeInFlight fetchWord
  rw [hd]
  rfl

/-- Settles O3: raising ILLEGAL is a recoverable error of code 0x01. -/
theorem illegalWordCompletes : Obligations.IllegalWordCompletes := fun s _ h hd =>
  ⟨_, step_illegal h hd, errored_raise rfl s, statusWord_cause _⟩

/-- Of the ways a command ends, the recoverable errors change STATUS alone. -/
theorem Ends.errored {i : Instr} {s t : State} (he : Ends i s t) (herr : t.err = true)
    (hc : t.cause.isFatal = false) : Errored t.cause s t := by
  cases he with
  | error c h => exact errored_raise h s
  | invariant | exhausted => cases hc
  | done => cases herr

/-- The step at the end of the delay is the end of a command or the error of an illegal word. -/
theorem StepEnds.of_completion {s t : State} (he : StepEnds s t) (h : s.inFlight = some 0) :
    (∃ i, Ends i s t) ∨ t = raise .illegal s := by
  cases he with
  | command i _ _ _ he => exact .inl ⟨i, he⟩
  | illegal => exact .inr rfl
  | quiet hn => exact absurd h hn
  | served _ _ _ _ hn => exact absurd h hn

/-- A completion with a recoverable error, of a command or an illegal word, changes STATUS alone. -/
theorem StepEnds.errored {s t : State} (he : StepEnds s t) (h : s.inFlight = some 0)
    (herr : t.err = true) (hc : t.cause.isFatal = false) : Errored t.cause s t := by
  obtain ⟨i, he⟩ | rfl := he.of_completion h
  · exact he.errored herr hc
  · exact errored_raise rfl s

/-- A block that is neither BUSY nor FATAL accepts the next word written to CMD (60_exceptions.md
R462). -/
theorem step_accepts {s : State} (hn : s.inFlight = none) (hf : s.fatal = false) (c : Word)
    (rest : List HostEvent) : ∃ u, step { s with
      hostQueue := .write (Config.zsecpBase + 0x00C) 4 c :: rest } = .next u ∧
      u.cmdlog = c ∧ u.busy = true := by
  have hwait : s.inFlight ≠ some 0 := by rw [hn]; nofun
  have hidle : s.busy = false := by rw [State.busy, hn]; rfl
  obtain ⟨haccept, -⟩ := cmdWrite.2 { s with
    hostQueue := .write (Config.zsecpBase + 0x00C) 4 c :: rest } c rest hwait rfl
  obtain ⟨d, u, hu, hbusy, heq⟩ := haccept hidle hf
  exact ⟨u, hu, by rw [heq], hbusy⟩

/-- Settles O11: the error is one of a command or of an illegal word, and it leaves the block ready
to accept. -/
theorem recoverableErrorWritesNothing : Obligations.RecoverableErrorWritesNothing := by
  refine ⟨fun i s t h => (ends_of_exec h).errored, fun s t hi hs h herr hc => ?_⟩
  have he := (step_ends h).errored hs herr hc
  have hf : t.fatal = false := he.fatal.trans (hi.not_fatal hs)
  exact ⟨he, hf, he.quiet.cmdlog, fun c => step_accepts he.notBusy hf c t.hostQueue⟩

/-! ### Fatal errors (60_exceptions.md R458) -/

/-- Settles O12: from a state with the invariant the only fatal end is the DRBG's exhaustion. -/
theorem fatalErrorWritesNoRegister : Obligations.FatalErrorWritesNoRegister := by
  intro i s t hi hf h hc
  cases ends_of_exec h with
  | error c hrec => exact absurd (hrec.symm.trans hc) nofun
  | invariant hbad => exact absurd hi.points hbad
  | exhausted s' hr hp hq _ _ hctr htab hgen =>
    exact ⟨rfl, died_raise rfl hr hp hq, hctr (hi.ctrLive hf), htab.imp_right fun h => h.2.1, hgen⟩
  | done => cases hc

end Sys2Proof.Machine
end

section
/-! VERIFY (44_ecdsa.md R384, 60_exceptions.md R457): it always succeeds, and its predicate is the
equation of ECDSA for any inverse of s, not only the one the command computes. -/

namespace Sys2Proof.Machine

/-- Integers that agree modulo n have one residue. -/
theorem emod_n_eq_of_modEq {a b u : Int} (hab : a ≡ b [ZMOD Config.n]) (h0 : 0 ≤ u)
    (h1 : u < Config.n) (hu : u % Config.n = b % Config.n) : emod a Config.n = u :=
  hab.eq.trans (hu.symm.trans (Int.emod_eq_of_lt h0 h1))

/-- Whatever inverse w of s is taken, the two factors of the sum are determined modulo n, so the
equation is the one for the inverse in [0, n). -/
theorem verify_equation_iff (h r s : Int) (q : Point) :
    (∃ w x y, 0 ≤ w ∧ w < Config.n ∧ (w * s) % Config.n = 1 ∧
      toAffine (mulAdd (emod (h * w) Config.n) (emod (r * w) Config.n) q) = .ok (x, y) ∧
      emod x Config.n = r) ↔
    ∃ w u1 u2 x y, (s * w) % Config.n = 1 ∧
      0 ≤ u1 ∧ u1 < Config.n ∧ u1 % Config.n = (h * w) % Config.n ∧
      0 ≤ u2 ∧ u2 < Config.n ∧ u2 % Config.n = (r * w) % Config.n ∧
      toAffine (pointAdd (generic Config.base u1 false) (generic q u2 false)) = .ok (x, y) ∧
      x % Config.n = r := by
  constructor
  · rintro ⟨w, x, y, -, -, hw, haff, hx⟩
    exact ⟨w, _, _, x, y, by rwa [mul_comm],
      emod_nonneg n_pos, emod_lt n_pos, Int.emod_emod_of_dvd _ dvd_rfl,
      emod_nonneg n_pos, emod_lt n_pos, Int.emod_emod_of_dvd _ dvd_rfl, haff, hx⟩
  · rintro ⟨w, u1, u2, x, y, hw, h10, h11, hu1, h20, h21, hu2, haff, hx⟩
    have hred : emod w Config.n ≡ w [ZMOD Config.n] := Int.mod_modEq w Config.n
    refine ⟨emod w Config.n, x, y, emod_nonneg n_pos, emod_lt n_pos, ?_, ?_, hx⟩
    · rw [mul_comm]
      exact (hred.mul_left s).eq.trans hw
    · rw [emod_n_eq_of_modEq (hred.mul_left h) h10 h11 hu1,
        emod_n_eq_of_modEq (hred.mul_left r) h20 h21 hu2]
      exact haff

/-- Settles O47: VERIFY's predicate answers in every state, and the command reports its answer. -/
theorem verifyResult : Obligations.VerifyResult := by
  intro s rr rs pq low
  obtain ⟨b, hb, hiff⟩ :=
    verify_spec (digestInt s) (readR s rr) (readR s rs) (readP s pq) low
  rw [verify_equation_iff, and_assoc, and_assoc] at hiff
  exact ⟨_, b, exec_verify_ok hb, succeeded_self b s, rfl, TableKept.refl s, hiff⟩

end Sys2Proof.Machine
end

section
/-! The interrupt output (60_exceptions.md R464, R465): the writes that change it, and the steps
that raise and drop it. -/

namespace Sys2Proof.Machine

/-! ### The three registers that IRQ depends on -/

theorem irq_eq_true_iff (s : State) : s.irq = true ↔ s.irqen = true ∧ s.done = true :=
  Bool.and_eq_true_iff

/-- A STATUS write of bit 1 clears DONE (10_state.md R54). -/
theorem irq_writeStatus (v : Word) (s : State) :
    (writeStatus v s).irq = (s.irq && !v.getLsbD 1) := (Bool.and_assoc ..).symm

/-- A CTRL write sets IRQEN, or resets the block (10_state.md R51, 70_reset_and_hazards.md R502). -/
theorem irq_writeCtrl (v : Word) (s : State) :
    (writeCtrl v s).irq = (!v.getLsbD 1 && (v.getLsbD 0 && s.done)) := by
  unfold writeCtrl
  cases v.getLsbD 1 <;> rfl

/-- An accepted word clears DONE (10_state.md R55). -/
theorem irq_accept (c : Word) (s : State) : (accept c s).irq = false := Bool.and_false _

/-- CMD stands at one offset (20_memory.md R101). -/
theorem offset_of_cmd (off : Nat) : mmioReg off = .cmd → off = 0x00C := by
  unfold mmioReg
  simp only
  repeat' split
  all_goals simp

/-! ### Events that raise and drop it -/

/-- The next event of the host sets IRQEN, and DONE is set. -/
def RaisesIrq (s : State) : Prop :=
  s.done = true ∧ ∃ v rest,
    s.hostQueue = .write (Config.zsecpBase + 0x004) 4 v :: rest ∧ v.getLsbD 0 = true

/-- The next event clears DONE or IRQEN: a STATUS write of bit 1, an accepted CMD write, a CTRL
write that clears IRQEN or resets the block, or a hard reset. -/
def DropsIrq (s : State) : Prop :=
  (∃ v rest, s.hostQueue = .write (Config.zsecpBase + 0x008) 4 v :: rest ∧ v.getLsbD 1 = true) ∨
  (s.busy = false ∧ s.fatal = false ∧ ∃ c rest,
    s.hostQueue = .write (Config.zsecpBase + 0x00C) 4 c :: rest) ∨
  (∃ v rest, s.hostQueue = .write (Config.zsecpBase + 0x004) 4 v :: rest ∧
    (v.getLsbD 0 = false ∨ v.getLsbD 1 = true)) ∨
  ∃ rest, s.hostQueue = .hardReset :: rest

/-- After such an event is served IRQ is low. -/
theorem irq_of_dropsIrq {s t : State} (hd : DropsIrq s) (hf : s.inFlight ≠ some 0)
    (h : step s = .next t) : t.irq = false := by
  rcases hd with ⟨v, rest, hq, hv⟩ | ⟨hb, hfat, c, rest, hq⟩ | ⟨v, rest, hq, hv⟩ | ⟨rest, hq⟩
  case inr.inr.inr =>
    obtain rfl := Host.Outcome.next.inj ((step_event hf hq).symm.trans h)
    rfl
  all_goals
    obtain rfl := Host.Outcome.next.inj ((step_write_ok hf (by decide) (by decide) hq).symm.trans h)
  case inl => exact (irq_writeStatus v (waiting s rest)).trans (by rw [hv]; exact Bool.and_false _)
  case inr.inl =>
    have hw := writeCmd_accepts ((busy_waiting s rest).trans hb) hfat c
    exact (congrArg State.irq hw).trans (irq_accept c (waiting s rest))
  case inr.inr.inl =>
    refine (irq_writeCtrl v (waiting s rest)).trans ?_
    rcases hv with hv | hv <;> rw [hv] <;> simp

/-- A well-formed write that is served drops IRQ, leaves it as it was, or raises it. -/
theorem WriteEnds.irq {v : Word} {off : Nat} {s t : State} {rest : List HostEvent}
    (hw : WriteEnds v (waiting s rest) (mmioReg off) t)
    (hq : s.hostQueue = .write (Config.zsecpBase + off) 4 v :: rest) :
    DropsIrq s ∨ t.irq = s.irq ∨ (RaisesIrq s ∧ t.irq = true) := by
  generalize hreg : mmioReg off = reg at hw
  cases hw with
  | ignored | busy | dlen | dg | r => exact .inr (.inl rfl)
  | reset hv =>
    rw [(offset_of_control off).1 hreg] at hq
    exact .inl (.inr (.inr (.inl ⟨v, rest, hq, .inr hv⟩)))
  | irqen =>
    rw [(offset_of_control off).1 hreg] at hq
    cases hv : v.getLsbD 0
    · exact .inl (.inr (.inr (.inl ⟨v, rest, hq, .inl hv⟩)))
    · cases hd : s.done
      · exact .inr (.inl (by simp [State.irq, waiting, hd]))
      · exact .inr (.inr ⟨⟨hd, v, rest, hq, hv⟩, (irq_eq_true_iff _).mpr ⟨rfl, hd⟩⟩)
  | status =>
    rw [(offset_of_control off).2 hreg] at hq
    cases hv : v.getLsbD 1
    · exact .inr (.inl ((irq_writeStatus v _).trans (by rw [hv]; exact Bool.and_true _)))
    · exact .inl (.inl ⟨v, rest, hq, hv⟩)
  | accepted hb hf =>
    rw [offset_of_cmd off hreg] at hq
    exact .inl (.inr (.inl ⟨busy_waiting s rest ▸ hb, hf, v, rest, hq⟩))

/-- A step that is no completion serves an event that drops IRQ, leaves it as it was, or serves one
that raises it. -/
theorem StepEnds.irq {s t : State} (he : StepEnds s t) (hf : s.inFlight ≠ some 0) :
    DropsIrq s ∨ t.irq = s.irq ∨ (RaisesIrq s ∧ t.irq = true) := by
  cases he with
  | command _ _ h => exact absurd h hf
  | illegal h => exact absurd h hf
  | quiet => exact .inr (.inl rfl)
  | served e rest t' _ _ hq hs ht =>
    have hirq : t.irq = t'.irq := by rw [ht]; rfl
    rw [hirq]
    cases hs with
    | read | malformed | idle => exact .inr (.inl rfl)
    | write off v _ _ _ hw => exact hw.irq hq
    | hardReset => exact .inl (.inr (.inr (.inr ⟨rest, hq⟩)))

/-- A completion sets DONE and keeps IRQEN, so it shows IRQEN (60_exceptions.md R464). -/
theorem StepEnds.irq_completion {s t : State} (he : StepEnds s t) (hf : s.inFlight = some 0) :
    t.irq = s.irqen := by
  obtain ⟨i, he⟩ | rfl := he.of_completion hf
  · rw [State.irq, he.completes.1, he.quiet.irqen, Bool.and_true]
  · exact Bool.and_true _

/-- Settles O59: a completion shows IRQEN, and any other step keeps IRQ unless its event raises or
drops it. -/
theorem interruptLine : Obligations.InterruptLine := by
  intro s t h
  have he := step_ends h
  refine ⟨irq_eq_true_iff t, he.irq_completion, fun hlow hhigh => ?rises,
    fun hhigh hf => ⟨fun hlow => ?falls, fun hd => irq_of_dropsIrq hd hf h⟩⟩
  case rises =>
    by_cases hf : s.inFlight = some 0
    · exact .inl hf
    · rcases he.irq hf with hd | hsame | ⟨hr, -⟩
      · rw [irq_of_dropsIrq hd hf h] at hhigh; cases hhigh
      · rw [hhigh, hlow] at hsame; cases hsame
      · exact .inr hr
  case falls =>
    rcases he.irq hf with hd | hsame | ⟨-, hhigh'⟩
    · exact hd
    · rw [hlow, hhigh] at hsame; cases hsame
    · rw [hlow] at hhigh'; cases hhigh'

end Sys2Proof.Machine
end

section
/-! Reset and CTRL (10_state.md R51, 70_reset_and_hazards.md R501, R502): the three events the block
answers by a reset or by a new IRQEN, and that a completion which comes first leaves them in the
queue. -/

namespace Sys2Proof.Machine

/-! ### CTRL -/

/-- SRST reads 0: a read of CTRL shows IRQEN alone. -/
theorem getLsbD_one_readReg_ctrl (s : State) : (readReg s .ctrl).getLsbD 1 = false := by
  rw [readReg]
  cases s.irqen <;> rfl

theorem writeCtrl_of_srst {v : Word} (hv : v.getLsbD 1 = true) (s : State) :
    writeCtrl v s = resetBlock s := if_pos hv

theorem writeCtrl_of_no_srst {v : Word} (hv : v.getLsbD 1 = false) (s : State) :
    writeCtrl v s = { s with irqen := v.getLsbD 0 } := if_neg (ne_true_of_eq_false hv)

/-! ### The steps that serve a CTRL write and the reset input -/

theorem step_writeCtrl {s : State} {v : Word} {rest : List HostEvent} (hf : s.inFlight ≠ some 0)
    (hq : s.hostQueue = .write (Config.zsecpBase + 0x004) 4 v :: rest) :
    step s = .next { writeCtrl v (waiting s rest) with lastResponse := some .written } :=
  step_write_ok hf (by decide) (by decide) hq

/-- The soft reset, whatever else the state holds. -/
theorem step_softReset {s : State} {v : Word} {rest : List HostEvent} (hf : s.inFlight ≠ some 0)
    (h : s.hostQueue = .write (Config.zsecpBase + 0x004) 4 v :: rest ∧ v.getLsbD 1 = true) :
    step s = .next { State.reset with hostQueue := rest, lastResponse := some .written } := by
  obtain ⟨hq, hv⟩ := h
  rw [step_writeCtrl hf hq, writeCtrl_of_srst hv]
  rfl

/-- The reset input, whatever else the state holds. -/
theorem step_hardReset {s : State} {rest : List HostEvent} (hf : s.inFlight ≠ some 0)
    (hq : s.hostQueue = .hardReset :: rest) :
    step s = .next { State.reset with hostQueue := rest } :=
  step_event hf hq

theorem step_writeIrqen {s : State} {v : Word} {rest : List HostEvent} (hf : s.inFlight ≠ some 0)
    (hv : v.getLsbD 1 = false) (hq : s.hostQueue = .write (Config.zsecpBase + 0x004) 4 v :: rest) :
    step s = .next { s with
      irqen := v.getLsbD 0, inFlight := tick s.inFlight, hostQueue := rest,
      lastResponse := some .written } := by
  rw [step_writeCtrl hf hq, writeCtrl_of_no_srst hv]
  rfl

/-! ### A completion that is due -/

/-- A completion serves no event: the queue waits for the step after it (20_memory.md R112). -/
theorem StepEnds.hostQueue_completion {s t : State} (he : StepEnds s t)
    (hf : s.inFlight = some 0) : t.hostQueue = s.hostQueue := by
  obtain ⟨i, he⟩ | rfl := he.of_completion hf
  · exact he.quiet.hostQueue
  · rfl

/-- Settles O57: with no completion due each event is served by the step that meets it, and after a
completion none is due and the queue is the same. -/
theorem resetsAndCtrl : Obligations.ResetsAndCtrl := by
  refine ⟨getLsbD_one_readReg_ctrl, fun s v rest => ⟨fun hf => ?waits, fun hf => ?completes⟩⟩
  case waits => exact ⟨step_softReset hf, step_hardReset hf, step_writeIrqen hf⟩
  case completes =>
    obtain ⟨t, ht, -, hidle⟩ := step_completes_done hf
    have hf' : t.inFlight ≠ some 0 := fun h => by rw [State.busy, h] at hidle; cases hidle
    refine ⟨t, ht, ?_⟩
    rw [← (step_ends ht).hostQueue_completion hf]
    exact ⟨step_softReset hf', step_hardReset hf'⟩

end Sys2Proof.Machine
end
